-- ==== Sys2Proof/Word.lean ====
section
/-! DEFINITION. The bit-vector types of BPC-CORE: the 32-bit command header and the 64-bit word of the
command port, the registers and the memory cells (30_encoding.md R70, R71; 10_state.md section 1). -/

namespace Sys2Proof

/-- A 64-bit word: a command argument, a response's data word, a register, or the cell that holds one
W-bit word of WORDS or one NATIVE_W-bit entry of OVF, zero-extended (assumption log 4). -/
abbrev Word := BitVec 64

/-- A 32-bit command header (30_encoding.md R70). -/
abbrev Header := BitVec 32

end Sys2Proof
end

