-- ==== Sys2Proof/Syntax.lean ====
section
/-! DEFINITION. The instructions of BPC-CORE: one constructor per row of the opcode table
(30_encoding.md R73), with the operands that R72 and R77 give each. -/

namespace Sys2Proof

/-- A decoded command. A constructor carries the header fields and the argument its opcode uses; the
argument of BEGIN, END and RDREG is ignored (30_encoding.md R77) and so not carried. -/
inductive Instr where
  /-- BEGIN: opens a session with the configuration of its header fields (45_session_control.md R222).
  `width` is the field WIDTH, the element width K. -/
  | beginSession (width ksmall : BitVec 7) (variant : BitVec 2) (signed ovfEn ovfMode : Bool)
  /-- WRITE_BITS: writes the `width` low bits of `value` at CURSOR (40_word_buffer.md R104). -/
  | writeBits (width : BitVec 7) (value : Word)
  /-- READ_BITS: reads `width` bits at the stream address `offset` (40_word_buffer.md R105). -/
  | readBits (width : BitVec 7) (offset : Word)
  /-- PACK_CONS: appends an element to a consecutive array (41_consecutive.md R131). -/
  | packCons (element : Word)
  /-- PACK_NCONS: appends an element to a non-consecutive array (42_non_consecutive.md R152). -/
  | packNcons (element : Word)
  /-- PACK_OVF: appends an element through the overflow router (43_overflow.md R174). -/
  | packOvf (element : Word)
  /-- END: seals the packed array (45_session_control.md R224). -/
  | endSession
  /-- UNPACK_CONS: reads element `index` of a consecutive array (41_consecutive.md R132). -/
  | unpackCons (index : Word)
  /-- UNPACK_NCONS: reads element `index` of a non-consecutive array (42_non_consecutive.md R153). -/
  | unpackNcons (index : Word)
  /-- UNPACK_OVF: reads element `index` of an overflow array (43_overflow.md R175). -/
  | unpackOvf (index : Word)
  /-- RDREG: reads register number `reg` (45_session_control.md R228). -/
  | rdreg (reg : BitVec 4)
deriving DecidableEq, Repr

end Sys2Proof
end

