-- ==== Sys2Proof/WellFormed.lean ====
section
/-! DEFINITION. Which instructions an encoding can stand for. The types of the fields bound everything
but a register number: the field values that decode and are rejected at execution (30_encoding.md R81)
are well-formed. -/

namespace Sys2Proof

/-- An RDREG names one of the registers 0 to 11; numbers 12 to 15 are reserved (30_encoding.md R80). -/
def wellFormed : Instr → Bool
  | .rdreg reg => decide (reg.toNat < 12)
  | .beginSession _ _ _ _ _ _ | .writeBits _ _ | .readBits _ _ | .packCons _ | .packNcons _
  | .packOvf _ | .endSession | .unpackCons _ | .unpackNcons _ | .unpackOvf _ => true

/-- The instruction is one that some header decodes to. -/
abbrev WellFormed (i : Instr) : Prop := wellFormed i = true

end Sys2Proof
end

