-- ==== Sys2Proof/Decode.lean ====
section
/-! DEFINITION. The decoder of 30_encoding.md R79, total on every header, and the encoder written from
the same header layout (R72) and opcode map (R73, R74). -/

namespace Sys2Proof

/-- The eleven assigned opcodes (30_encoding.md R73). -/
inductive Opcode where
  | begin_ | writeBits | readBits | packCons | packNcons | packOvf
  | end_ | unpackCons | unpackNcons | unpackOvf | rdreg
deriving DecidableEq, Repr

/-- Why a header is no command; each is an IllegalCommand (30_encoding.md R81). -/
inductive Illegal where
  /-- OPC is 0x0 or 0xC to 0xF (R75). -/
  | reservedOpcode
  /-- A bit outside the fields the opcode uses is set (R74). -/
  | reservedBits
  /-- RDREG of a register number 12 to 15 (R80). -/
  | reservedRegister
deriving DecidableEq, Repr

/-- The opcode field OPC, header bits [31:28] (30_encoding.md R72). -/
def opcField (h : Header) : BitVec 4 := h.extractLsb' 28 4

/-- The field WIDTH, header bits [27:21]. -/
def widthField (h : Header) : BitVec 7 := h.extractLsb' 21 7

/-- The field KSMALL, header bits [20:14]. -/
def ksmallField (h : Header) : BitVec 7 := h.extractLsb' 14 7

/-- The field VARIANT, header bits [13:12]. -/
def variantField (h : Header) : BitVec 2 := h.extractLsb' 12 2

/-- The field SIGNED, header bit [11]. -/
def signedField (h : Header) : Bool := h.getLsbD 11

/-- The field OVF_EN, header bit [10]. -/
def ovfEnField (h : Header) : Bool := h.getLsbD 10

/-- The field OVF_MODE, header bit [9]. -/
def ovfModeField (h : Header) : Bool := h.getLsbD 9

/-- The field REG, header bits [8:5]. -/
def regField (h : Header) : BitVec 4 := h.extractLsb' 5 4

/-- The opcode map (30_encoding.md R73); `none` for the reserved opcodes (R75). -/
def opcodeOf (opc : BitVec 4) : Option Opcode :=
  match opc.toNat with
  | 0x1 => some .begin_
  | 0x2 => some .writeBits
  | 0x3 => some .readBits
  | 0x4 => some .packCons
  | 0x5 => some .packNcons
  | 0x6 => some .packOvf
  | 0x7 => some .end_
  | 0x8 => some .unpackCons
  | 0x9 => some .unpackNcons
  | 0xA => some .unpackOvf
  | 0xB => some .rdreg
  | _ => none

/-- MASK of 30_encoding.md R74: the header bits the opcode fixes. -/
def Opcode.mask : Opcode → Header
  | .begin_ => 0xF00001FF#32
  | .writeBits => 0xF01FFFFF#32
  | .readBits => 0xF01FFFFF#32
  | .packCons => 0xFFFFFFFF#32
  | .packNcons => 0xFFFFFFFF#32
  | .packOvf => 0xFFFFFFFF#32
  | .end_ => 0xFFFFFFFF#32
  | .unpackCons => 0xFFFFFFFF#32
  | .unpackNcons => 0xFFFFFFFF#32
  | .unpackOvf => 0xFFFFFFFF#32
  | .rdreg => 0xFFFFFE1F#32

/-- MATCH of 30_encoding.md R74: the value of the fixed bits. -/
def Opcode.fixed : Opcode → Header
  | .begin_ => 0x10000000#32
  | .writeBits => 0x20000000#32
  | .readBits => 0x30000000#32
  | .packCons => 0x40000000#32
  | .packNcons => 0x50000000#32
  | .packOvf => 0x60000000#32
  | .end_ => 0x70000000#32
  | .unpackCons => 0x80000000#32
  | .unpackNcons => 0x90000000#32
  | .unpackOvf => 0xA0000000#32
  | .rdreg => 0xB0000000#32

/-- The operands of an opcode, taken from the header fields of 30_encoding.md R72 and the argument as
R77 assigns it. -/
def Opcode.operands (o : Opcode) (h : Header) (a : Word) : Instr :=
  match o with
  | .begin_ =>
    .beginSession (widthField h) (ksmallField h) (variantField h) (signedField h) (ovfEnField h)
      (ovfModeField h)
  | .writeBits => .writeBits (widthField h) a
  | .readBits => .readBits (widthField h) a
  | .packCons => .packCons a
  | .packNcons => .packNcons a
  | .packOvf => .packOvf a
  | .end_ => .endSession
  | .unpackCons => .unpackCons a
  | .unpackNcons => .unpackNcons a
  | .unpackOvf => .unpackOvf a
  | .rdreg => .rdreg (regField h)

/-- The decoder of 30_encoding.md R79: reserved opcodes, then reserved bits, then reserved register
numbers are illegal, in that order; every other header is a command. -/
def decode (h : Header) (a : Word) : Except Illegal Instr :=
  match opcodeOf (opcField h) with
  | none => .error .reservedOpcode
  | some o =>
    if h &&& o.mask = o.fixed then
      if wellFormed (o.operands h a) then .ok (o.operands h a) else .error .reservedRegister
    else .error .reservedBits

/-- A bit as an n-bit header contribution at position `pos`. -/
def bitAt (pos : Nat) (b : Bool) : Header := if b then 1#32 <<< pos else 0#32

/-- The header of an instruction: its opcode's fixed bits with its fields put in the places of
30_encoding.md R72. -/
def encodeHeader : Instr → Header
  | .beginSession width ksmall variant signed ovfEn ovfMode =>
    Opcode.begin_.fixed ||| (width.zeroExtend 32 <<< 21) ||| (ksmall.zeroExtend 32 <<< 14)
      ||| (variant.zeroExtend 32 <<< 12) ||| bitAt 11 signed ||| bitAt 10 ovfEn ||| bitAt 9 ovfMode
  | .writeBits width _ => Opcode.writeBits.fixed ||| (width.zeroExtend 32 <<< 21)
  | .readBits width _ => Opcode.readBits.fixed ||| (width.zeroExtend 32 <<< 21)
  | .packCons _ => Opcode.packCons.fixed
  | .packNcons _ => Opcode.packNcons.fixed
  | .packOvf _ => Opcode.packOvf.fixed
  | .endSession => Opcode.end_.fixed
  | .unpackCons _ => Opcode.unpackCons.fixed
  | .unpackNcons _ => Opcode.unpackNcons.fixed
  | .unpackOvf _ => Opcode.unpackOvf.fixed
  | .rdreg reg => Opcode.rdreg.fixed ||| (reg.zeroExtend 32 <<< 5)

/-- The argument of an instruction (30_encoding.md R77); 0 where the block ignores it, as an assembler
writes it (R82). -/
def encodeArg : Instr → Word
  | .writeBits _ value => value
  | .readBits _ offset => offset
  | .packCons a | .packNcons a | .packOvf a => a
  | .unpackCons i | .unpackNcons i | .unpackOvf i => i
  | .beginSession _ _ _ _ _ _ | .endSession | .rdreg _ => 0#64

/-- The command (header and argument) of an instruction. -/
def encode (i : Instr) : Header × Word := (encodeHeader i, encodeArg i)

/-- The header of a command whose bits are `w`, bit 0 the least significant bit of the header; bits at
or above `nbits` are 0. -/
def tableHeader (nbits w : Nat) : Header := BitVec.ofNat 32 (w % 2 ^ nbits)

/-- The argument of a command whose bits are `w`: the 64 bits that follow the header's 32; bits at or
above `nbits` are 0. -/
def tableArg (nbits w : Nat) : Word := BitVec.ofNat 64 ((w % 2 ^ nbits) / 2 ^ 32)

/-- The instruction the decoder reads from a command whose bits are `w`, numbered as the opcode table
numbers them: the 32-bit header in bits 31..0 and the 64-bit argument in bits 95..32. -/
def decodeTableWord (nbits w : Nat) : Option Instr :=
  (decode (tableHeader nbits w) (tableArg nbits w)).toOption

end Sys2Proof
end

