-- ==== Sys2Proof/Config.lean ====
section
/-! DEFINITION. What an implementation of BPC-CORE fixes: its four parameters (00_scope.md section 4). -/

namespace Sys2Proof

/-- The parameters of a block, fixed for its life (00_scope.md R3). They stand in the state as the
registers PARAM_W, PARAM_NATIVE_W, PARAM_MAX_WORDS and PARAM_MAX_OVF, so that every statement about
all states is one about all parameter tuples (assumption log 1). -/
structure Params where
  /-- `W`: the word width in bits. -/
  w : Nat
  /-- `NATIVE_W`: the width of a host integer and of an overflow store entry. -/
  nativeW : Nat
  /-- `MAX_WORDS`: the capacity of the word buffer in words. -/
  maxWords : Nat
  /-- `MAX_OVF`: the capacity of the overflow store in entries. -/
  maxOvf : Nat
deriving DecidableEq, Repr

/-- The parameter tuple of the block that `State.reset` describes. DESIGN CHOICE, unsafe: the spec
leaves all four open (assumption log 1). No statement rests on it. -/
def Config.params : Params := { w := 32, nativeW := 32, maxWords := 16, maxOvf := 8 }

end Sys2Proof
end

