-- ==== Sys2Proof/Machine/State.lean ====
section
/-! DEFINITION. The state of BPC-CORE as plain data (10_state.md), the reasons a step can stop, and the
state after reset (70_reset_and_hazards.md R280). -/

namespace Sys2Proof.Machine

/-- STATUS.STATE (10_state.md R20). The codes 5 to 7 are never held (assumption log 7). -/
inductive SessionState where
  /-- 0: no buffer since reset. -/
  | empty
  /-- 1: a compress operation is open. -/
  | packing
  /-- 2: the compress operation finished; the packed array is immutable. -/
  | sealed
  /-- 3: a compress operation failed; its partial buffer may not be observed. -/
  | aborted
  /-- 4: a consistency failure was found; fatal. -/
  | faulted
deriving DecidableEq, Repr

/-- CONFIG.VARIANT (10_state.md R21). The value 3 is never held (assumption log 7). -/
inductive Variant where
  /-- 0 CONS: consecutive layout. -/
  | cons
  /-- 1 NCONS: non-consecutive layout. -/
  | ncons
  /-- 2 RAW: the host writes the buffer with WRITE_BITS. -/
  | raw
deriving DecidableEq, Repr

/-- The causes of a response (60_exceptions.md R250). The codes 8 to 15 are never raised. -/
inductive Cause where
  /-- 0 NONE: the command responded. -/
  | noError
  /-- 1 ConfigurationError. -/
  | configurationError
  /-- 2 RangeError. -/
  | rangeError
  /-- 3 IndexError. -/
  | indexError
  /-- 4 ConsistencyError. -/
  | consistencyError
  /-- 5 StateError. -/
  | stateError
  /-- 6 CapacityError. -/
  | capacityError
  /-- 7 IllegalCommand. -/
  | illegalCommand
deriving DecidableEq, Repr

/-- The CONFIG register by its fields (10_state.md R21 to R26); its 64-bit view is `configWord`. -/
structure ConfigReg where
  /-- CONFIG.VARIANT. -/
  variant : Variant
  /-- CONFIG.SIGNED: elements pass through the signed value codec. -/
  signed : Bool
  /-- CONFIG.OVF_EN: elements go through the overflow router. -/
  ovfEn : Bool
  /-- CONFIG.OVF_MODE: false is INDEX, true is COMPACT. -/
  ovfMode : Bool
  /-- CONFIG.K: the element field width without overflow. -/
  k : BitVec 7
  /-- CONFIG.KSMALL: the small width of the overflow router. -/
  ksmall : BitVec 7
deriving DecidableEq, Repr

/-- A memory: (index, cell) pairs, indices strictly rising; an index not listed holds no value, and
reading it faults (assumption log 3). A cell holds one W-bit word or one NATIVE_W-bit entry,
zero-extended to 64 bits (assumption log 4). -/
abbrev Memory := List (Nat × Word)

/-- The response to a command (30_encoding.md R71): cause C and data word D. -/
structure Response where
  cause : Cause
  data : Word
deriving DecidableEq, Repr

/-- What the host does next (00_scope.md R2, 70_reset_and_hazards.md R280). -/
inductive HostAction where
  /-- Issue the command with header `h` and argument `a` (30_encoding.md R70). -/
  | command (h : Header) (a : Word)
  /-- Assert reset between two commands (70_reset_and_hazards.md R280). -/
  | reset
deriving DecidableEq, Repr

/-- The state of the block, and the host's side of its command port (`pending`, `responses`: the
model's own fields, assumption log 2). -/
structure State where
  /-- PARAM_W, PARAM_NATIVE_W, PARAM_MAX_WORDS, PARAM_MAX_OVF (00_scope.md R3). -/
  params : Params
  /-- STATUS.STATE (10_state.md R20). -/
  state : SessionState
  /-- CONFIG (10_state.md R21 to R27). -/
  config : ConfigReg
  /-- CURSOR (10_state.md R28). -/
  cursor : Word
  /-- LEN_WORDS (10_state.md R29). -/
  lenWords : Word
  /-- N, the element count (10_state.md R30). -/
  count : Word
  /-- OVF_COUNT (10_state.md R31). -/
  ovfCount : Word
  /-- LAST_CAUSE (10_state.md R32). -/
  lastCause : Cause
  /-- ERR_STICKY (10_state.md R33). -/
  errSticky : BitVec 8
  /-- WORDS (10_state.md R34). -/
  words : Memory
  /-- OVF (10_state.md R35). -/
  ovf : Memory
  /-- The host's actions not yet taken, oldest first. -/
  pending : List HostAction
  /-- The responses returned, newest first. -/
  responses : List Response
deriving DecidableEq, Repr

/-- Why the machine stops. The spec gives no such stop: each stands for an access whose result R281
(70_reset_and_hazards.md) says can never be observed. Safe: the model stops where the hardware would go
on, and no state reachable from reset gets there. -/
inductive Fault where
  /-- Raised by `readWord`: the word has no value since reset (assumption log 3). Safe. -/
  | unspecifiedWord
  /-- Raised by `readWord`: the word index is at or past MAX_WORDS, no such word exists
  (20_memory.md R60). Safe. -/
  | noSuchWord
  /-- Raised by `ovfRead`: the entry has no value since reset (assumption log 3). Safe. -/
  | unspecifiedEntry
  /-- Raised by `ovfRead`: the entry index is at or past MAX_OVF, no such entry exists
  (20_memory.md R60). Safe. -/
  | noSuchEntry
deriving DecidableEq, Repr

/-- Why the model gives a state or an instruction no meaning. -/
inductive Refusal where
  /-- Raised by `exec` for an instruction without a meaning; no arm does. Safe. -/
  | notModelled (mnemonic : String)
  /-- Raised by `step`: the parameter tuple is outside the legal values; 00_scope.md R4 asks for this
  refusal. Safe. -/
  | illegalParameters
deriving DecidableEq, Repr

/-- CONFIG after reset: all fields 0 (70_reset_and_hazards.md R280). -/
def ConfigReg.zero : ConfigReg :=
  { variant := .cons, signed := false, ovfEn := false, ovfMode := false, k := 0#7, ksmall := 0#7 }

/-- A block with parameters `p` right after reset (70_reset_and_hazards.md R280); WORDS and OVF are
unspecified (R281), held as no value. -/
def State.resetOf (p : Params) : State where
  params := p
  state := .empty
  config := ConfigReg.zero
  cursor := 0#64
  lenWords := 0#64
  count := 0#64
  ovfCount := 0#64
  lastCause := .noError
  errSticky := 0#8
  words := []
  ovf := []
  pending := []
  responses := []

/-- The machine right after reset, with the parameter tuple `Config.params` (assumption log 1). -/
def State.reset : State := State.resetOf Config.params

end Sys2Proof.Machine
end

