-- ==== Sys2Proof/Machine/Codec.lean ====
section
/-! DEFINITION. The signed value codec and the integer notation of the spec: two's-complement reading
and patterns (00_scope.md R7), Encode, Decode, FitsS and FitsU (44_signed_codec.md R200 to R203). -/

namespace Sys2Proof.Machine

/-- `sext_n` of the low n bits of `v`: their two's-complement reading (00_scope.md R7). -/
def sext (n v : Nat) : Int :=
  if (v % 2 ^ n).testBit (n - 1) then (v % 2 ^ n : Nat) - (2 ^ n : Nat) else (v % 2 ^ n : Nat)

/-- `pat_n(x)`: the n-bit pattern x mod 2^n (00_scope.md R7). -/
def pat (n : Nat) (x : Int) : Nat := (x % (2 ^ n : Nat)).toNat

/-- `FitsS(x, k)` (44_signed_codec.md R202): x lies in [-(2^(k-1) - 1), 2^(k-1) - 1]. -/
def fitsS (x : Int) (k : Nat) : Bool :=
  decide (-((2 ^ (k - 1) : Nat) - 1 : Int) ≤ x ∧ x ≤ ((2 ^ (k - 1) : Nat) - 1 : Int))

/-- `FitsU(x, k)` (44_signed_codec.md R203): x lies in [0, 2^k - 1]. -/
def fitsU (x : Int) (k : Nat) : Bool := decide (0 ≤ x ∧ x ≤ ((2 ^ k : Nat) - 1 : Int))

/-- `Encode(x, k)` (44_signed_codec.md R200). -/
def encodeS (x : Int) (k : Nat) : Nat := if 0 ≤ x then x.toNat else 2 ^ (k - 1) + (-x).toNat

/-- `Decode(u, k)` (44_signed_codec.md R201). -/
def decodeS (u k : Nat) : Int :=
  if u > 2 ^ (k - 1) - 1 then -((u : Int) - (2 ^ (k - 1) : Nat)) else u

/-- Whether an element fits a k-bit field of a session with the given SIGNED bit (43_overflow.md R172). -/
def fits (signed : Bool) (x : Int) (k : Nat) : Bool := if signed then fitsS x k else fitsU x k

/-- The field value of an element that fits: Encode in a signed session, the element itself otherwise
(41_consecutive.md R131). -/
def fieldOf (signed : Bool) (x : Int) (k : Nat) : Nat := if signed then encodeS x k else x.toNat

/-- The element a field value stands for: Decode in a signed session, the value itself otherwise
(41_consecutive.md R132). -/
def elementOf (signed : Bool) (u k : Nat) : Int := if signed then decodeS u k else u

end Sys2Proof.Machine
end

