-- ==== Sys2Proof/Machine/Flags.lean ====
section
/-! DEFINITION. The status registers: cause codes, ERR_STICKY, the state a cause leads to, and the
register codes STATUS and CONFIG (10_state.md R20 to R27, R32, R33, R42; 60_exceptions.md R250 to
R257). The block has no condition codes (10_state.md R42). -/

namespace Sys2Proof.Machine

/-- The cause code (60_exceptions.md R250). -/
def causeCode : Cause → BitVec 4
  | .noError => 0#4
  | .configurationError => 1#4
  | .rangeError => 2#4
  | .indexError => 3#4
  | .consistencyError => 4#4
  | .stateError => 5#4
  | .capacityError => 6#4
  | .illegalCommand => 7#4

/-- The code of STATUS.STATE (10_state.md R20). -/
def stateCode : SessionState → BitVec 3
  | .empty => 0#3
  | .packing => 1#3
  | .sealed => 2#3
  | .aborted => 3#3
  | .faulted => 4#3

/-- The code of CONFIG.VARIANT (10_state.md R21). -/
def variantCode : Variant → BitVec 2
  | .cons => 0#2
  | .ncons => 1#2
  | .raw => 2#2

/-- The variant a header field VARIANT names (30_encoding.md R72); 3 names none. -/
def variantOf (v : BitVec 2) : Option Variant :=
  match v.toNat with
  | 0 => some .cons
  | 1 => some .ncons
  | 2 => some .raw
  | _ => none

/-- The 64-bit view of CONFIG (10_state.md R27):
{zero45, KSMALL, K, OVF_MODE, OVF_EN, SIGNED, VARIANT}. -/
def configWord (c : ConfigReg) : Word :=
  0#45 ++ c.ksmall ++ c.k ++ BitVec.ofBool c.ovfMode ++ BitVec.ofBool c.ovfEn ++
    BitVec.ofBool c.signed ++ variantCode c.variant

/-- Bit 0 of ERR_STICKY is hardwired 0 (10_state.md R33). -/
def stickyMask : BitVec 8 := 0xFE#8

/-- ERR_STICKY after a command ends with cause `c`: bit c is set, no bit is cleared, bit 0 stays 0
(10_state.md R33). -/
def stickyAfter (c : Cause) (e : BitVec 8) : BitVec 8 :=
  (e ||| (1#8 <<< (causeCode c).toNat)) &&& stickyMask

/-- STATE after a raise with cause `c`: RangeError and CapacityError lead to ABORTED (60_exceptions.md
R256), ConsistencyError to FAULTED (R257), the others leave it (R255). -/
def stateAfter (c : Cause) (st : SessionState) : SessionState :=
  match c with
  | .rangeError => .aborted
  | .capacityError => .aborted
  | .consistencyError => .faulted
  | .noError | .configurationError | .indexError | .stateError | .illegalCommand => st

end Sys2Proof.Machine
end

