-- ==== Sys2Proof/Machine/Operands.lean ====
section
/-! DEFINITION. Operand assembly (30_encoding.md R76, R77) and the form of the data word (R78). -/

namespace Sys2Proof.Machine

/-- WRITE_BITS's value: A mod 2^WIDTH (30_encoding.md R77). -/
def valueOperand (width : BitVec 7) (a : Word) : Nat := a.toNat % 2 ^ width.toNat

/-- READ_BITS's bit offset: A as an unsigned integer (30_encoding.md R77). -/
def offsetOperand (a : Word) : Nat := a.toNat

/-- A pack command's element: sext_NATIVE_W(A[NATIVE_W-1:0]) (30_encoding.md R77). -/
def elementOperand (p : Params) (a : Word) : Int := sext p.nativeW a.toNat

/-- An unpack command's index: A as an unsigned integer (30_encoding.md R77). -/
def indexOperand (a : Word) : Nat := a.toNat

/-- The data word of a read field: zext_64 (30_encoding.md R78). -/
def fieldData (u : Nat) : Word := BitVec.ofNat 64 u

/-- The data word of an element: pat_64 (30_encoding.md R78). -/
def elementData (x : Int) : Word := BitVec.ofNat 64 (pat 64 x)

end Sys2Proof.Machine
end

