-- ==== Sys2Proof/Machine/Ops.lean ====
section
/-! DEFINITION. The shared operations of the machine: the end of a command (respond, raise), the
memories, the word-buffer primitives MemWrite and MemRead, the overflow store, field addresses, the
registers RDREG reads, the legality table and the port. -/

namespace Sys2Proof.Machine

/-! ### Parameters -/

/-- The legal parameter tuples (00_scope.md section 4, R4). -/
abbrev ParamsLegal (p : Params) : Prop :=
  1 ≤ p.w ∧ p.w ≤ 64 ∧ 1 ≤ p.nativeW ∧ p.nativeW ≤ 64 ∧ p.maxWords * p.w < 2 ^ 64 ∧ p.maxOvf < 2 ^ 64

/-! ### The end of a command

Taking an error is `raise`; there is no trap entry, no saved address and no return command
(60_exceptions.md R258, R259). -/

/-- `respond(d)`: the command ends with cause NONE and data d (30_encoding.md R71); LAST_CAUSE becomes 0
after the data is taken (60_exceptions.md R254). -/
def respond (d : Word) (s : State) : State :=
  { s with lastCause := .noError, responses := { cause := .noError, data := d } :: s.responses }

/-- `raise c`: the response (c, 0), LAST_CAUSE, ERR_STICKY and STATE as 60_exceptions.md R253 to R257
say; nothing else changes. It is applied to the state before the command's writes, so a command that
raises is all-or-nothing (00_scope.md R10). -/
def raise (c : Cause) (s : State) : State :=
  { s with
    state := stateAfter c s.state
    lastCause := c
    errSticky := stickyAfter c s.errSticky
    responses := { cause := c, data := 0#64 } :: s.responses }

/-! ### Memories -/

/-- The cell at an index, if the index holds a value. -/
def Memory.get : Memory → Nat → Option Word
  | [], _ => none
  | (a, x) :: m, i => if i = a then some x else Memory.get m i

/-- Writes a cell, keeping the indices strictly rising. -/
def Memory.set : Memory → Nat → Word → Memory
  | [], i, v => [(i, v)]
  | (a, x) :: m, i, v =>
    if i < a then (i, v) :: (a, x) :: m
    else if i = a then (i, v) :: m
    else (a, x) :: Memory.set m i v

/-- Every index of the memory is above `b`. -/
def Memory.above (b : Nat) : Memory → Bool
  | [] => true
  | (a, _) :: m => decide (b < a) && Memory.above b m

/-- The canonical form: indices strictly rising. An index not listed holds no value, so no entry can
equal what an unlisted index reads as. -/
def Memory.wf : Memory → Bool
  | [] => true
  | (a, _) :: m => Memory.above a m && Memory.wf m

/-- Every listed index is below `size` and every cell below 2^width: the memory is an array of `size`
words of `width` bits. -/
def Memory.within (size width : Nat) : Memory → Bool
  | [] => true
  | (a, x) :: m => decide (a < size) && decide (x.toNat < 2 ^ width) && Memory.within size width m

/-- Reads WORDS[q]; faults where the word does not exist or holds no value. -/
def readWord (s : State) (q : Nat) : Except Fault Word :=
  if q < s.params.maxWords then
    match Memory.get s.words q with
    | some x => .ok x
    | none => .error .unspecifiedWord
  else .error .noSuchWord

/-- A word with bit `b` set to `v`. -/
def setWordBit (x : Word) (b : Nat) (v : Bool) : Word :=
  if v then x ||| (1#64 <<< b) else x &&& ~~~(1#64 <<< b)

/-! ### The bit stream -/

/-- The word that holds stream bit p (00_scope.md R8). -/
def wordOf (prm : Params) (p : Nat) : Nat := p / prm.w

/-- The place of stream bit p in its word: bit W-1-(p mod W) (00_scope.md R8). -/
def bitOf (prm : Params) (p : Nat) : Nat := prm.w - 1 - p % prm.w

/-- `Bit(p)` (00_scope.md R8). -/
def readBit (s : State) (p : Nat) : Except Fault Bool :=
  match readWord s (wordOf s.params p) with
  | .ok x => .ok (x.getLsbD (bitOf s.params p))
  | .error f => .error f

/-- Reads n bits from stream address p on, most significant first, into the accumulator r: the loop of
40_word_buffer.md R101. -/
def readFrom (s : State) (r p : Nat) : Nat → Except Fault Nat
  | 0 => .ok r
  | n + 1 =>
    match readBit s p with
    | .ok b => readFrom s (2 * r + b.toNat) (p + 1) n
    | .error f => .error f

/-- `MemRead(p, n)` (40_word_buffer.md R101). -/
def memRead (s : State) (p n : Nat) : Except Fault Nat := readFrom s 0 p n

/-- Allocates `j` words: each is set to zero and LEN_WORDS grows by one (40_word_buffer.md R100,
10_state.md R34). -/
def allocate (s : State) : Nat → State
  | 0 => s
  | j + 1 =>
    allocate
      { s with
        words := Memory.set s.words s.lenWords.toNat 0#64
        lenWords := s.lenWords + 1#64 } j

/-- Writes stream bit p, allocating words while its word is not allocated: one turn of the loop of
40_word_buffer.md R100. -/
def writeBit (s : State) (p : Nat) (v : Bool) : Except Fault State :=
  let q := wordOf s.params p
  let s1 := allocate s (q + 1 - s.lenWords.toNat)
  match readWord s1 q with
  | .ok x => .ok { s1 with words := Memory.set s1.words q (setWordBit x (bitOf s.params p) v) }
  | .error f => .error f

/-- `MemWrite(p, n, v)` (40_word_buffer.md R100): the n low bits of v at stream address p, most
significant first. -/
def memWrite (s : State) (p : Nat) : Nat → Nat → Except Fault State
  | 0, _ => .ok s
  | n + 1, v =>
    match writeBit s p (v.testBit n) with
    | .ok s1 => memWrite s1 (p + 1) n v
    | .error f => .error f

/-- The capacity in bits, MAX_WORDS * W (40_word_buffer.md R103). -/
def capacityBits (prm : Params) : Nat := prm.maxWords * prm.w

/-- Writes a field of n bits at stream address `start` and moves CURSOR past it (40_word_buffer.md R104,
41_consecutive.md R131). DEDUCED, unsafe in unreachable states alone: the 64-bit counters wrap
(assumption log 5). -/
def putField (s : State) (start n v : Nat) : Except Fault State :=
  match memWrite s start n v with
  | .ok s1 => .ok { s1 with cursor := BitVec.ofNat 64 (start + n) }
  | .error f => .error f

/-! ### The overflow store -/

/-- `OvfAppend(e)` below capacity (10_state.md R36); the capacity check is the caller's, before any
write. -/
def ovfAppend (s : State) (e : Word) : State :=
  { s with ovf := Memory.set s.ovf s.ovfCount.toNat e, ovfCount := s.ovfCount + 1#64 }

/-- The entry `OvfRead(j)` returns for j < OVF_COUNT (10_state.md R37); that check is the caller's. -/
def ovfRead (s : State) (j : Nat) : Except Fault Word :=
  if j < s.params.maxOvf then
    match Memory.get s.ovf j with
    | some x => .ok x
    | none => .error .unspecifiedEntry
  else .error .noSuchEntry

/-! ### Field addresses -/

/-- ceil(a / b) for positive b (00_scope.md R6). -/
def ceilDiv (a b : Nat) : Nat := (a + b - 1) / b

/-- `NextStart(kf)` (42_non_consecutive.md R150): the next word boundary when the field would not fit
in the rest of the current word. -/
def nextStart (s : State) (kf : Nat) : Nat :=
  if s.cursor.toNat % s.params.w + kf > s.params.w then
    ceilDiv s.cursor.toNat s.params.w * s.params.w
  else s.cursor.toNat

/-- `FieldAddrNC(i, k)` (42_non_consecutive.md R151), with epw = floor(W / k). -/
def fieldAddrNC (w i k : Nat) : Nat := i / (w / k) * w + i % (w / k) * k

/-- ks = CONFIG.KSMALL (43_overflow.md). -/
def ksOf (s : State) : Nat := s.config.ksmall.toNat

/-- kp = ks + 1, the width of a primary field (43_overflow.md R170). -/
def kpOf (s : State) : Nat := ksOf s + 1

/-- `PrimAddr(i)` (43_overflow.md R171). -/
def primAddr (s : State) (i : Nat) : Nat :=
  if s.config.variant = .ncons then fieldAddrNC s.params.w i (kpOf s) else i * kpOf s

/-- The sum of the flag bits of fields 0 to i (43_overflow.md R176). -/
def flagSum (s : State) : Nat → Except Fault Nat
  | 0 => memRead s (primAddr s 0) 1
  | i + 1 =>
    match flagSum s i with
    | .ok t =>
      match memRead s (primAddr s (i + 1)) 1 with
      | .ok b => .ok (t + b)
      | .error f => .error f
    | .error f => .error f

/-- `OvfPosCompact(i)` (43_overflow.md R176). Field i is flagged where it is used, so the sum is at
least 1. -/
def ovfPosCompact (s : State) (i : Nat) : Except Fault Nat :=
  match flagSum s i with
  | .ok t => .ok (t - 1)
  | .error f => .error f

/-! ### Registers -/

/-- The register number r of 10_state.md section 1, zero-extended to 64 bits; none for the reserved
numbers 12 to 15 (30_encoding.md R80). -/
def readReg (s : State) (r : BitVec 4) : Option Word :=
  match r.toNat with
  | 0 => some ((stateCode s.state).zeroExtend 64)
  | 1 => some (configWord s.config)
  | 2 => some s.cursor
  | 3 => some s.lenWords
  | 4 => some s.count
  | 5 => some s.ovfCount
  | 6 => some ((causeCode s.lastCause).zeroExtend 64)
  | 7 => some ((s.errSticky &&& stickyMask).zeroExtend 64)
  | 8 => some (BitVec.ofNat 64 s.params.w)
  | 9 => some (BitVec.ofNat 64 s.params.nativeW)
  | 10 => some (BitVec.ofNat 64 s.params.maxWords)
  | 11 => some (BitVec.ofNat 64 s.params.maxOvf)
  | _ => none

/-! ### Legality -/

/-- The legality table (45_session_control.md R220): whether the command may run in STATE, given
CONFIG.VARIANT and CONFIG.OVF_EN. -/
def legal (i : Instr) (s : State) : Bool :=
  match i with
  | .beginSession _ _ _ _ _ _ => s.state != .faulted
  | .writeBits _ _ => s.state == .packing && s.config.variant == .raw
  | .readBits _ _ => s.state == .empty || s.state == .packing || s.state == .sealed
  | .packCons _ => s.state == .packing && s.config.variant == .cons && !s.config.ovfEn
  | .packNcons _ => s.state == .packing && s.config.variant == .ncons && !s.config.ovfEn
  | .packOvf _ => s.state == .packing && s.config.variant != .raw && s.config.ovfEn
  | .endSession => s.state == .packing
  | .unpackCons _ => s.state == .sealed && s.config.variant == .cons && !s.config.ovfEn
  | .unpackNcons _ => s.state == .sealed && s.config.variant == .ncons && !s.config.ovfEn
  | .unpackOvf _ => s.state == .sealed && s.config.variant != .raw && s.config.ovfEn
  | .rdreg _ => true

/-! ### The port -/

/-- The block takes the host's next action; none while the host issues nothing. -/
def takeAction (s : State) : Option (HostAction × State) :=
  match s.pending with
  | [] => none
  | act :: rest => some (act, { s with pending := rest })

/-- Reset asserted by the host between commands (70_reset_and_hazards.md R280): every register at its
reset value, WORDS and OVF unspecified. The parameters stay (00_scope.md R3), and so does the host's
side of the port. -/
def resetBlock (s : State) : State :=
  { State.resetOf s.params with pending := s.pending, responses := s.responses }

end Sys2Proof.Machine
end

