-- ==== Sys2Proof/Machine/Packing.lean ====
section
/-! DEFINITION. What PACK_CONS and PACK_NCONS share, and what UNPACK_CONS and UNPACK_NCONS share: the
two differ in the address of the field alone (41_consecutive.md R131, R132; 42_non_consecutive.md R152,
R153). -/

namespace Sys2Proof.Machine

/-- Appends an element as a k-bit field at stream address `start`: the range check, the capacity check,
the write, and N + 1 (41_consecutive.md R131, 42_non_consecutive.md R152). -/
def packAt (s : State) (start : Nat) (x : Int) : Host.Outcome State Fault Refusal :=
  if !fits s.config.signed x s.config.k.toNat then .next (raise .rangeError s)
  else if start + s.config.k.toNat > capacityBits s.params then .next (raise .capacityError s)
  else
    match putField s start s.config.k.toNat (fieldOf s.config.signed x s.config.k.toNat) with
    | .ok s1 => .next (respond 0#64 { s1 with count := s1.count + 1#64 })
    | .error f => .fault f

/-- Reads element i, the k-bit field at stream address `start`: the index check, the consistency check
and the read (41_consecutive.md R132, 42_non_consecutive.md R153). -/
def unpackAt (s : State) (i start : Nat) : Host.Outcome State Fault Refusal :=
  if i ≥ s.count.toNat then .next (raise .indexError s)
  else if start + s.config.k.toNat > s.cursor.toNat then .next (raise .consistencyError s)
  else
    match memRead s start s.config.k.toNat with
    | .ok u => .next (respond (elementData (elementOf s.config.signed u s.config.k.toNat)) s)
    | .error f => .fault f

end Sys2Proof.Machine
end

