-- ==== Sys2Proof/Machine/Consecutive.lean ====
section
/-! DEFINITION. The consecutive packer's commands (41_consecutive.md R130 to R132). -/

namespace Sys2Proof.Machine

/-- PACK_CONS (41_consecutive.md R131): the field goes to CURSOR. -/
def execPackCons (a : Word) (s : State) : Host.Outcome State Fault Refusal :=
  if !legal (.packCons a) s then .next (raise .stateError s)
  else packAt s s.cursor.toNat (elementOperand s.params a)

/-- UNPACK_CONS (41_consecutive.md R132): the field stands at i * k. -/
def execUnpackCons (a : Word) (s : State) : Host.Outcome State Fault Refusal :=
  if !legal (.unpackCons a) s then .next (raise .stateError s)
  else unpackAt s (indexOperand a) (indexOperand a * s.config.k.toNat)

end Sys2Proof.Machine
end

