-- ==== Sys2Proof/Machine/NonConsecutive.lean ====
section
/-! DEFINITION. The non-consecutive packer's commands (42_non_consecutive.md R150 to R153). -/

namespace Sys2Proof.Machine

/-- PACK_NCONS (42_non_consecutive.md R152): the field goes to NextStart(k). -/
def execPackNcons (a : Word) (s : State) : Host.Outcome State Fault Refusal :=
  if !legal (.packNcons a) s then .next (raise .stateError s)
  else packAt s (nextStart s s.config.k.toNat) (elementOperand s.params a)

/-- UNPACK_NCONS (42_non_consecutive.md R153): the field stands at FieldAddrNC(i, k). -/
def execUnpackNcons (a : Word) (s : State) : Host.Outcome State Fault Refusal :=
  if !legal (.unpackNcons a) s then .next (raise .stateError s)
  else unpackAt s (indexOperand a) (fieldAddrNC s.params.w (indexOperand a) s.config.k.toNat)

end Sys2Proof.Machine
end

