-- ==== Sys2Proof/Machine/Overflow.lean ====
section
/-! DEFINITION. The overflow router's commands (43_overflow.md R170 to R176). -/

namespace Sys2Proof.Machine

/-- Where PACK_OVF writes the primary field: NextStart(kp) in an NCONS layout, CURSOR otherwise
(43_overflow.md R171). -/
def primStart (s : State) : Nat :=
  if s.config.variant = .ncons then nextStart s (kpOf s) else s.cursor.toNat

/-- The payload of an overflowed element: the overflow store index in INDEX mode, the placeholder 0 in
COMPACT mode (43_overflow.md R173). -/
def overflowPayload (s : State) : Nat := if s.config.ovfMode then 0 else s.ovfCount.toNat

/-- PACK_OVF of an element that fits ks bits: flag 0 and the payload (43_overflow.md R170, R172). -/
def packFitting (s : State) (x : Int) : Host.Outcome State Fault Refusal :=
  match putField s (primStart s) (kpOf s) (fieldOf s.config.signed x (ksOf s)) with
  | .ok s1 => .next (respond 0#64 { s1 with count := s1.count + 1#64 })
  | .error f => .fault f

/-- PACK_OVF of an element that does not fit: flag 1 and the payload, and the element's own NATIVE_W-bit
pattern appended to the overflow store (43_overflow.md R172, R173). The store's capacity and, in INDEX
mode, the payload's width are checked first (R174). -/
def packOverflowing (s : State) (x : Int) : Host.Outcome State Fault Refusal :=
  if s.ovfCount.toNat ≥ s.params.maxOvf then .next (raise .capacityError s)
  else if overflowPayload s > 2 ^ ksOf s - 1 then .next (raise .capacityError s)
  else
    match putField s (primStart s) (kpOf s) (2 ^ ksOf s + overflowPayload s) with
    | .ok s1 =>
      let s2 := ovfAppend s1 (BitVec.ofNat 64 (pat s.params.nativeW x))
      .next (respond 0#64 { s2 with count := s2.count + 1#64 })
    | .error f => .fault f

/-- PACK_OVF (43_overflow.md R174). -/
def execPackOvf (a : Word) (s : State) : Host.Outcome State Fault Refusal :=
  if !legal (.packOvf a) s then .next (raise .stateError s)
  else if primStart s + kpOf s > capacityBits s.params then .next (raise .capacityError s)
  else if fits s.config.signed (elementOperand s.params a) (ksOf s) then
    packFitting s (elementOperand s.params a)
  else packOverflowing s (elementOperand s.params a)

/-- The overflow position of the flagged element i: its payload in INDEX mode, the flag count in COMPACT
mode (43_overflow.md R175, R176). -/
def overflowPosition (s : State) (i payload : Nat) : Except Fault Nat :=
  if s.config.ovfMode then ovfPosCompact s i else .ok payload

/-- UNPACK_OVF of a flagged element whose overflow position is j: `OvfRead(j)`, which raises
ConsistencyError for j >= OVF_COUNT (10_state.md R37), read back sign-extended (43_overflow.md R175). -/
def unpackEntry (s : State) (j : Nat) : Host.Outcome State Fault Refusal :=
  if j ≥ s.ovfCount.toNat then .next (raise .consistencyError s)
  else
    match ovfRead s j with
    | .ok e => .next (respond (elementData (sext s.params.nativeW e.toNat)) s)
    | .error f => .fault f

/-- UNPACK_OVF of element i whose primary field is f = {flag, payload} (43_overflow.md R170, R175). -/
def unpackPrimary (s : State) (i f : Nat) : Host.Outcome State Fault Refusal :=
  if f.testBit (ksOf s) then
    match overflowPosition s i (f % 2 ^ ksOf s) with
    | .ok j => unpackEntry s j
    | .error e => .fault e
  else
    .next (respond (elementData (elementOf s.config.signed (f % 2 ^ ksOf s) (ksOf s))) s)

/-- UNPACK_OVF (43_overflow.md R175). -/
def execUnpackOvf (a : Word) (s : State) : Host.Outcome State Fault Refusal :=
  if !legal (.unpackOvf a) s then .next (raise .stateError s)
  else if indexOperand a ≥ s.count.toNat then .next (raise .indexError s)
  else if primAddr s (indexOperand a) + kpOf s > s.cursor.toNat then
    .next (raise .consistencyError s)
  else
    match memRead s (primAddr s (indexOperand a)) (kpOf s) with
    | .ok f => unpackPrimary s (indexOperand a) f
    | .error e => .fault e

end Sys2Proof.Machine
end

