-- ==== Sys2Proof/Machine/Session.lean ====
section
/-! DEFINITION. Session control: BEGIN, END and RDREG (45_session_control.md R220 to R228). -/

namespace Sys2Proof.Machine

/-- The form "plain packed array" of 45_session_control.md R221, beside VARIANT 0 or 1. -/
def plainForm (p : Params) (c : ConfigReg) : Bool :=
  !c.ovfEn && !c.ovfMode && decide (1 ≤ c.k.toNat ∧ c.k.toNat ≤ p.w ∧ c.ksmall.toNat = 0)

/-- The form "overflow packed array" of 45_session_control.md R221, beside VARIANT 0 or 1. -/
def overflowForm (p : Params) (c : ConfigReg) : Bool :=
  c.ovfEn && decide (c.k.toNat = 0 ∧ 1 ≤ c.ksmall.toNat ∧ c.ksmall.toNat < p.nativeW ∧
    c.ksmall.toNat + 1 ≤ p.w)

/-- The form "RAW buffer" of 45_session_control.md R221, beside VARIANT 2. -/
def rawForm (c : ConfigReg) : Bool :=
  !c.signed && !c.ovfEn && !c.ovfMode && decide (c.k.toNat = 0 ∧ c.ksmall.toNat = 0)

/-- The configuration is one of the three legal forms of 45_session_control.md R221. -/
def legalForm (p : Params) (c : ConfigReg) : Bool :=
  match c.variant with
  | .raw => rawForm c
  | .cons | .ncons => plainForm p c || overflowForm p c

/-- The configuration BEGIN's fields name, if they are a legal form; VARIANT 3 is in none
(45_session_control.md R221). -/
def configOf (p : Params) (width ksmall : BitVec 7) (variant : BitVec 2)
    (signed ovfEn ovfMode : Bool) : Option ConfigReg :=
  match variantOf variant with
  | none => none
  | some v =>
    let c : ConfigReg :=
      { variant := v, signed := signed, ovfEn := ovfEn, ovfMode := ovfMode, k := width,
        ksmall := ksmall }
    if legalForm p c then some c else none

/-- An open session with configuration c: everything empty, the memories' contents left (but
unobservable) (45_session_control.md R222). -/
def openSession (c : ConfigReg) (s : State) : State :=
  { s with config := c, cursor := 0#64, lenWords := 0#64, count := 0#64, ovfCount := 0#64,
           state := .packing }

/-- BEGIN (45_session_control.md R222). -/
def execBegin (width ksmall : BitVec 7) (variant : BitVec 2) (signed ovfEn ovfMode : Bool)
    (s : State) : Host.Outcome State Fault Refusal :=
  if !legal (.beginSession width ksmall variant signed ovfEn ovfMode) s then
    .next (raise .stateError s)
  else
    match configOf s.params width ksmall variant signed ovfEn ovfMode with
    | none => .next (raise .configurationError s)
    | some c => .next (respond 0#64 (openSession c s))

/-- END (45_session_control.md R224). -/
def execEnd (s : State) : Host.Outcome State Fault Refusal :=
  if !legal .endSession s then .next (raise .stateError s)
  else .next (respond 0#64 { s with state := .sealed })

/-- RDREG (45_session_control.md R228): the value before this command's own LAST_CAUSE write; a reserved
number raises IllegalCommand (30_encoding.md R80). -/
def execRdreg (reg : BitVec 4) (s : State) : Host.Outcome State Fault Refusal :=
  match readReg s reg with
  | some d => .next (respond d s)
  | none => .next (raise .illegalCommand s)

end Sys2Proof.Machine
end

