-- ==== Sys2Proof/Machine/WordBuffer.lean ====
section
/-! DEFINITION. The Word Buffer commands WRITE_BITS and READ_BITS (40_word_buffer.md R102 to R105). -/

namespace Sys2Proof.Machine

/-- The width check of WRITE_BITS and READ_BITS: 1 to W (40_word_buffer.md R102). -/
def widthLegal (s : State) (width : BitVec 7) : Bool :=
  decide (1 ≤ width.toNat ∧ width.toNat ≤ s.params.w)

/-- WRITE_BITS (40_word_buffer.md R104). -/
def execWriteBits (width : BitVec 7) (a : Word) (s : State) : Host.Outcome State Fault Refusal :=
  if !legal (.writeBits width a) s then .next (raise .stateError s)
  else if !widthLegal s width then .next (raise .configurationError s)
  else if s.cursor.toNat + width.toNat > capacityBits s.params then .next (raise .capacityError s)
  else
    match putField s s.cursor.toNat width.toNat (valueOperand width a) with
    | .ok s1 => .next (respond 0#64 s1)
    | .error f => .fault f

/-- READ_BITS (40_word_buffer.md R105). -/
def execReadBits (width : BitVec 7) (a : Word) (s : State) : Host.Outcome State Fault Refusal :=
  if !legal (.readBits width a) s then .next (raise .stateError s)
  else if !widthLegal s width then .next (raise .configurationError s)
  else if offsetOperand a + width.toNat > s.cursor.toNat then .next (raise .indexError s)
  else
    match memRead s (offsetOperand a) width.toNat with
    | .ok u => .next (respond (fieldData u) s)
    | .error f => .fault f

end Sys2Proof.Machine
end

