-- ==== Sys2Proof/Machine/Dispatch.lean ====
section
/-! DEFINITION. The meaning of every instruction, one arm per constructor. -/

namespace Sys2Proof.Machine

def exec (i : Instr) (s : State) : Host.Outcome State Fault Refusal :=
  match i with
  | .beginSession width ksmall variant signed ovfEn ovfMode => Sys2Proof.Machine.execBegin width ksmall variant signed ovfEn ovfMode s
  | .writeBits width value => Sys2Proof.Machine.execWriteBits width value s
  | .readBits width offset => Sys2Proof.Machine.execReadBits width offset s
  | .packCons element => Sys2Proof.Machine.execPackCons element s
  | .packNcons element => Sys2Proof.Machine.execPackNcons element s
  | .packOvf element => Sys2Proof.Machine.execPackOvf element s
  | .endSession => Sys2Proof.Machine.execEnd s
  | .unpackCons index => Sys2Proof.Machine.execUnpackCons index s
  | .unpackNcons index => Sys2Proof.Machine.execUnpackNcons index s
  | .unpackOvf index => Sys2Proof.Machine.execUnpackOvf index s
  | .rdreg reg => Sys2Proof.Machine.execRdreg reg s

end Sys2Proof.Machine
end

