-- ==== Sys2Proof/Machine/Fetch.lean ====
section
/-! DEFINITION. Running the command the host has issued: decoding, then the meaning (30_encoding.md R79).
The block fetches nothing itself (10_state.md R41). -/

namespace Sys2Proof.Machine

/-- A command taken from the port: decoded and run, or IllegalCommand (30_encoding.md R79). -/
def runCommand (h : Header) (a : Word) (s : State) : Host.Outcome State Fault Refusal :=
  match decode h a with
  | .ok i => exec i s
  | .error _ => .next (raise .illegalCommand s)

end Sys2Proof.Machine
end

