-- ==== Sys2Proof/Machine/Step.lean ====
section
/-! DEFINITION. One step: the block takes the host's next action and runs it to completion (00_scope.md
R1, R2). -/

namespace Sys2Proof.Machine

/-- One step. A block with an illegal parameter tuple is refused (00_scope.md R4). With no action of the
host the block waits and holds its state (60_exceptions.md R265, 70_reset_and_hazards.md R282). -/
def step (s : State) : Host.Outcome State Fault Refusal :=
  if ParamsLegal s.params then
    match takeAction s with
    | none => .next s
    | some (.reset, s1) => .next (resetBlock s1)
    | some (.command h a, s1) => runCommand h a s1
  else .refused .illegalParameters

/-- The command whose bits are `w` (numbered as for `decodeTableWord`) placed as the host's next
action, before any other (assumption log 2). -/
def State.withFetchWord (s : State) (nbits w : Nat) : State :=
  { s with pending := .command (tableHeader nbits w) (tableArg nbits w) :: s.pending }

end Sys2Proof.Machine
end

