-- ==== Sys2Proof/Machine/HostSide.lean ====
section
/-! DEFINITION. What the host does with the commands to obtain whole-array operations (30_encoding.md
R83; 45_session_control.md R232 to R235). None of this is a command of the block. -/

namespace Sys2Proof.Machine

/-- The forms of a packed array the assembly syntax of BEGIN writes (30_encoding.md R82). -/
inductive ArrayForm where
  /-- `BEGIN.CONS k=<K>` or `BEGIN.NCONS k=<K>`, `signed` or not. -/
  | plain (ncons : Bool) (k : BitVec 7) (signed : Bool)
  /-- `BEGIN.CONS ovf=...` or `BEGIN.NCONS ovf=...`, index or compact, `signed` or not. -/
  | overflow (ncons compact : Bool) (ks : BitVec 7) (signed : Bool)
deriving DecidableEq, Repr

/-- The header field VARIANT of a layout: 0 CONS, 1 NCONS (30_encoding.md R72). -/
def layoutField (ncons : Bool) : BitVec 2 := if ncons then 1#2 else 0#2

/-- The BEGIN of an array form (30_encoding.md R82). -/
def beginArray : ArrayForm → Instr
  | .plain ncons k signed => .beginSession k 0#7 (layoutField ncons) signed false false
  | .overflow ncons compact ks signed =>
    .beginSession 0#7 ks (layoutField ncons) signed true compact

/-- `BEGIN.RAW` (30_encoding.md R82). -/
def beginRaw : Instr := .beginSession 0#7 0#7 2#2 false false false

/-- An integer operand as the host writes it: pat_64(x) (30_encoding.md R82). -/
def operandWord (x : Int) : Word := BitVec.ofNat 64 (pat 64 x)

/-- The pack command of an array form (30_encoding.md R83). -/
def packInstr (f : ArrayForm) (x : Int) : Instr :=
  match f with
  | .plain false _ _ => .packCons (operandWord x)
  | .plain true _ _ => .packNcons (operandWord x)
  | .overflow _ _ _ _ => .packOvf (operandWord x)

/-- The unpack command of an array form; also the pseudo-instruction `GET.<V> <i>` (30_encoding.md
R83). DESIGN CHOICE, unsafe: an index of 2^64 or more, which no argument equals, is taken modulo 2^64;
R82 and R83 are silent on it (assumption log 10). -/
def unpackInstr (f : ArrayForm) (i : Nat) : Instr :=
  match f with
  | .plain false _ _ => .unpackCons (BitVec.ofNat 64 i)
  | .plain true _ _ => .unpackNcons (BitVec.ofNat 64 i)
  | .overflow _ _ _ _ => .unpackOvf (BitVec.ofNat 64 i)

/-- `COMPRESS.<variant> <opts> v0, ..., v(n-1)` (30_encoding.md R83, 45_session_control.md R234). -/
def compressSeq (f : ArrayForm) (values : List Int) : List Instr :=
  beginArray f :: values.map (packInstr f) ++ [.endSession]

/-- The unpacks of `DECOMPRESS.<V>` for n elements, in index order (30_encoding.md R83). -/
def unpackSeq (f : ArrayForm) (n : Nat) : List Instr := (List.range n).map (unpackInstr f)

/-- `RDREG N`. -/
def readCount : Instr := .rdreg 4#4

/-- The host issues commands one after another, each after the response to the one before
(70_reset_and_hazards.md R285). DESIGN CHOICE, unsafe: it issues the rest of the sequence after a command
that raised, a failed BEGIN of COMPRESS included, where the spec leaves the next command to the host
(60_exceptions.md R259; assumption log 9). -/
def runSeq : List Instr → State → Host.Outcome State Fault Refusal
  | [], s => .next s
  | i :: is, s =>
    match exec i s with
    | .next s1 => runSeq is s1
    | .fault f => .fault f
    | .refused r => .refused r

/-- The data word of the last response; 0 before the first. -/
def lastData (s : State) : Word :=
  match s.responses with
  | [] => 0#64
  | r :: _ => r.data

/-- `DECOMPRESS.<V>`: RDREG N, then UNPACK_<V> i for i below the value read (30_encoding.md R83,
45_session_control.md R233). -/
def decompress (f : ArrayForm) (s : State) : Host.Outcome State Fault Refusal :=
  match exec readCount s with
  | .next s1 => runSeq (unpackSeq f (lastData s1).toNat) s1
  | .fault e => .fault e
  | .refused r => .refused r

/-- `bitlen(m)`: the number of binary digits of m (45_session_control.md R232). -/
def bitLen (m : Nat) : Nat := if m = 0 then 0 else Nat.log2 m + 1

/-- The largest magnitude of the values, 0 for none (45_session_control.md R232). -/
def maxMagnitude : List Int → Nat
  | [] => 0
  | v :: vs => max v.natAbs (maxMagnitude vs)

/-- AutoWidth, before the replacement of 0 (45_session_control.md R232). -/
def rawAutoWidth (values : List Int) (signed : Bool) : Nat :=
  bitLen (maxMagnitude values) + signed.toNat

/-- `AutoWidth(values, signed)`: a result of 0 is replaced by 1 (45_session_control.md R232). -/
def autoWidth (values : List Int) (signed : Bool) : Nat :=
  if rawAutoWidth values signed = 0 then 1 else rawAutoWidth values signed

/-- `COMPRESS` with `k=auto` (30_encoding.md R83); none where the width does not fit the 7-bit field. -/
def compressAuto (ncons signed : Bool) (values : List Int) : Option (List Instr) :=
  if autoWidth values signed < 128 then
    some (compressSeq (.plain ncons (BitVec.ofNat 7 (autoWidth values signed)) signed) values)
  else none

end Sys2Proof.Machine
end

