-- ==== Sys2Proof/Safety.lean ====
section
/-! DEFINITION. The terms the statements use: what a raise does, what a stored field is, and the
invariant of the states a block can be in (10_state.md R38, R39; 70_reset_and_hazards.md R281). -/

namespace Sys2Proof.Machine

/-! ### Errors -/

/-- STATE after a raise, as 60_exceptions.md R255 to R257 list it. -/
def abortedBy (c : Cause) (st : SessionState) : SessionState :=
  if c = .rangeError ∨ c = .capacityError then .aborted
  else if c = .consistencyError then .faulted
  else st

/-- `t` is `s` after a command that raised `c`: the response (c, 0), LAST_CAUSE, bit c of ERR_STICKY and
STATE; everything else as it was (60_exceptions.md R253, R255 to R257; bit 0 of ERR_STICKY is hardwired
0, 10_state.md R33). -/
structure Raised (c : Cause) (s t : State) : Prop where
  frame : t = { s with
    state := abortedBy c s.state
    lastCause := c
    errSticky := t.errSticky
    responses := { cause := c, data := 0#64 } :: s.responses }
  sticky : ∀ b, b < 8 → t.errSticky.getLsbD b =
    (decide (b ≠ 0) && (s.errSticky.getLsbD b || decide (b = (causeCode c).toNat)))

/-- The instruction raises `c` in the state `s`. -/
def Raises (i : Instr) (s : State) (c : Cause) : Prop := ∃ t, exec i s = .next t ∧ Raised c s t

/-! ### Fields of the bit stream -/

/-- The k-bit field at stream address p holds u, most significant bit first (20_memory.md R51). -/
structure FieldAt (s : State) (p k u : Nat) : Prop where
  bits : ∀ j, j < k → readBit s (p + j) = .ok (u.testBit (k - 1 - j))
  small : u < 2 ^ k

/-- `t`'s word buffer is `s`'s with the k-bit field u stored at stream address `start`
(40_word_buffer.md R100): the field's bits, every other allocated bit as it was, zero in the rest of a
word allocated by the write, and every word outside the field's untouched. -/
structure FieldStored (s t : State) (start k u : Nat) : Prop where
  field : FieldAt t start k u
  kept : ∀ p, p < s.lenWords.toNat * s.params.w → (p < start ∨ start + k ≤ p) →
    readBit t p = readBit s p
  fill : ∀ p, s.lenWords.toNat * s.params.w ≤ p → p < t.lenWords.toNat * s.params.w →
    (p < start ∨ start + k ≤ p) → readBit t p = .ok false
  others : ∀ q, (q < start / s.params.w ∨ (start + k - 1) / s.params.w < q) →
    Memory.get t.words q = Memory.get s.words q
  length : t.lenWords.toNat = max s.lenWords.toNat (ceilDiv (start + k) s.params.w)

/-- The word buffer can be read below LEN_WORDS and written at CURSOR: the parameters are legal, every
word below LEN_WORDS exists and holds a value, and CURSOR lies in the allocated words (10_state.md
R34, R38). -/
structure BufferOk (s : State) : Prop where
  params : ParamsLegal s.params
  length : s.lenWords.toNat ≤ s.params.maxWords
  listed : ∀ q, q < s.lenWords.toNat → (Memory.get s.words q).isSome = true
  cursor : s.cursor.toNat ≤ s.lenWords.toNat * s.params.w

/-! ### Layout -/

/-- The width of an element's field: K, or KSMALL + 1 with the overflow router (10_state.md R25). -/
def elemWidth (s : State) : Nat := if s.config.ovfEn then kpOf s else s.config.k.toNat

/-- Where element i's field starts (41_consecutive.md R130, 42_non_consecutive.md R151, 43_overflow.md
R171). -/
def elemAddr (s : State) (i : Nat) : Nat :=
  if s.config.variant = .ncons then fieldAddrNC s.params.w i (elemWidth s) else i * elemWidth s

/-- Where the last of n elements' fields ends (41_consecutive.md R133, 42_non_consecutive.md R154). -/
def elemEnd (s : State) (n : Nat) : Nat :=
  if n = 0 then 0 else elemAddr s (n - 1) + elemWidth s

/-- The flag bit of primary field i (43_overflow.md R170); false where it cannot be read. -/
def flagBit (s : State) (i : Nat) : Bool :=
  match readBit s (primAddr s i) with
  | .ok b => b
  | .error _ => false

/-- How many of the primary fields 0 to n-1 are flagged (10_state.md R39). -/
def flagsBelow (s : State) : Nat → Nat
  | 0 => 0
  | n + 1 => flagsBelow s n + (flagBit s n).toNat

/-! ### The invariant -/

/-- What holds of the memories, the registers and the parameters in every state reachable from reset. -/
structure BlockInv (s : State) : Prop where
  params : ParamsLegal s.params
  wordsWf : Memory.wf s.words = true
  wordsIn : Memory.within s.params.maxWords s.params.w s.words = true
  ovfWf : Memory.wf s.ovf = true
  ovfIn : Memory.within s.params.maxOvf s.params.nativeW s.ovf = true
  sticky : s.errSticky.getLsbD 0 = false
  form : s.state = .empty ∨ legalForm s.params s.config = true
  fresh : s.state = .empty → s.config = ConfigReg.zero ∧ s.cursor = 0#64 ∧ s.count = 0#64 ∧
    s.ovfCount = 0#64
  capacity : s.cursor.toNat ≤ capacityBits s.params
  length : s.lenWords.toNat = ceilDiv s.cursor.toNat s.params.w
  listed : ∀ q, q < s.lenWords.toNat → (Memory.get s.words q).isSome = true
  ovfCapacity : s.ovfCount.toNat ≤ s.params.maxOvf
  ovfListed : ∀ j, j < s.ovfCount.toNat → (Memory.get s.ovf j).isSome = true
  tail : ∀ p, s.cursor.toNat ≤ p → p < s.lenWords.toNat * s.params.w → readBit s p = .ok false

/-- What holds of the packed array in every state reachable from reset: the fields end at CURSOR
(41_consecutive.md R133, 42_non_consecutive.md R154, 43_overflow.md R179), padding reads 0
(42_non_consecutive.md R150), the overflow store holds as many entries as there are flags (10_state.md
R39), an INDEX payload is the number of flags before it (43_overflow.md R173), and no consistency
failure was found (60_exceptions.md R257). -/
structure ArrayInv (s : State) : Prop where
  notFaulted : s.state ≠ .faulted
  ends : s.config.variant ≠ .raw → s.cursor.toNat = elemEnd s s.count.toNat
  rawCount : s.config.variant = .raw → s.count = 0#64
  padding : s.config.variant = .ncons → ∀ p, p < s.lenWords.toNat * s.params.w →
    s.params.w / elemWidth s * elemWidth s ≤ p % s.params.w → readBit s p = .ok false
  noStore : s.config.ovfEn = false → s.ovfCount = 0#64
  flags : s.config.ovfEn = true → flagsBelow s s.count.toNat = s.ovfCount.toNat
  payloads : s.config.ovfEn = true → s.config.ovfMode = false → ∀ i, i < s.count.toNat →
    flagBit s i = true → memRead s (primAddr s i + 1) (ksOf s) = .ok (flagsBelow s i)

/-- The invariant of the states a block can be in. -/
structure Inv (s : State) : Prop where
  block : BlockInv s
  array : ArrayInv s

/-! ### What a command can observe -/

/-- The two states differ at most in the words at or past LEN_WORDS and the entries at or past
OVF_COUNT (10_state.md R43). -/
structure SameObservable (s t : State) : Prop where
  frame : t = { s with words := t.words, ovf := t.ovf }
  words : ∀ q, q < s.lenWords.toNat → Memory.get t.words q = Memory.get s.words q
  ovf : ∀ j, j < s.ovfCount.toNat → Memory.get t.ovf j = Memory.get s.ovf j

end Sys2Proof.Machine
end

