-- ==== Sys2Proof/Certificates/Slice0/Obligations.lean ====
section
/-! DEFINITION. The statements about the model, for the provers. Those that rest on a choice of the model
say so. The tables of the spec are written out again here, in numbers, so that a statement does not
lean on the model's own copy. -/

namespace Sys2Proof.Claims

open Sys2Proof.Machine

/-- Header bits [hi:lo] as a number (00_scope.md R5). -/
def bitsOf (h : Header) (hi lo : Nat) : Nat := h.toNat / 2 ^ lo % 2 ^ (hi - lo + 1)

/-- The rows of 30_encoding.md R74: opcode, MASK, MATCH. -/
def maskTable : List (Nat × Nat × Nat) :=
  [(0x1, 0xF00001FF, 0x10000000), (0x2, 0xF01FFFFF, 0x20000000), (0x3, 0xF01FFFFF, 0x30000000),
   (0x4, 0xFFFFFFFF, 0x40000000), (0x5, 0xFFFFFFFF, 0x50000000), (0x6, 0xFFFFFFFF, 0x60000000),
   (0x7, 0xFFFFFFFF, 0x70000000), (0x8, 0xFFFFFFFF, 0x80000000), (0x9, 0xFFFFFFFF, 0x90000000),
   (0xA, 0xFFFFFFFF, 0xA0000000), (0xB, 0xFFFFFE1F, 0xB0000000)]

/-- OPC is 0x0 or 0xC to 0xF (30_encoding.md R75). -/
abbrev ReservedOpcode (h : Header) : Prop := bitsOf h 31 28 = 0 ∨ 12 ≤ bitsOf h 31 28

/-- A bit the opcode's MASK covers differs from its MATCH (30_encoding.md R74). -/
abbrev ReservedBitSet (h : Header) : Prop :=
  ∃ row ∈ maskTable, row.1 = bitsOf h 31 28 ∧ h.toNat &&& row.2.1 ≠ row.2.2

/-- RDREG of a register number 12 to 15 (30_encoding.md R80). -/
abbrev ReservedRegister (h : Header) : Prop := bitsOf h 31 28 = 0xB ∧ 12 ≤ bitsOf h 8 5

/-- The command of an opcode with the fields of 30_encoding.md R72 and the argument of R77. -/
def commandOf (h : Header) (a : Word) : Option Instr :=
  match bitsOf h 31 28 with
  | 0x1 => some (.beginSession (BitVec.ofNat 7 (bitsOf h 27 21)) (BitVec.ofNat 7 (bitsOf h 20 14))
      (BitVec.ofNat 2 (bitsOf h 13 12)) (bitsOf h 11 11 == 1) (bitsOf h 10 10 == 1)
      (bitsOf h 9 9 == 1))
  | 0x2 => some (.writeBits (BitVec.ofNat 7 (bitsOf h 27 21)) a)
  | 0x3 => some (.readBits (BitVec.ofNat 7 (bitsOf h 27 21)) a)
  | 0x4 => some (.packCons a)
  | 0x5 => some (.packNcons a)
  | 0x6 => some (.packOvf a)
  | 0x7 => some .endSession
  | 0x8 => some (.unpackCons a)
  | 0x9 => some (.unpackNcons a)
  | 0xA => some (.unpackOvf a)
  | 0xB => some (.rdreg (BitVec.ofNat 4 (bitsOf h 8 5)))
  | _ => none

/-- The command is a BEGIN. -/
def isBegin : Instr → Bool
  | .beginSession _ _ _ _ _ _ => true
  | _ => false

/-- The command is an RDREG. -/
def isRdreg : Instr → Bool
  | .rdreg _ => true
  | _ => false

/-- READ_BITS and the unpack commands. -/
def isRead : Instr → Bool
  | .readBits _ _ | .unpackCons _ | .unpackNcons _ | .unpackOvf _ => true
  | _ => false

/-- WRITE_BITS and the pack commands. -/
def isWrite : Instr → Bool
  | .writeBits _ _ | .packCons _ | .packNcons _ | .packOvf _ => true
  | _ => false

/-- BEGIN, WRITE_BITS, the pack commands and END return nothing (30_encoding.md R78). -/
def returnsNothing : Instr → Bool
  | .beginSession _ _ _ _ _ _ | .writeBits _ _ | .packCons _ | .packNcons _ | .packOvf _
  | .endSession => true
  | _ => false

/-- The arguments of BEGIN, END and RDREG are ignored (30_encoding.md R77). -/
def ignoresArgument : Instr → Bool
  | .beginSession _ _ _ _ _ _ | .endSession | .rdreg _ => true
  | _ => false

/-- `s` after a command that responded with data d and wrote nothing else (60_exceptions.md R254). -/
def responded (d : Word) (s : State) : State :=
  { s with lastCause := .noError, responses := { cause := .noError, data := d } :: s.responses }

/-- The causes each command can end with (60_exceptions.md R250; RDREG's IllegalCommand is that of a
reserved number, which no header decodes to). -/
def causesOf : Instr → List Cause
  | .beginSession _ _ _ _ _ _ => [.noError, .stateError, .configurationError]
  | .writeBits _ _ => [.noError, .stateError, .configurationError, .capacityError]
  | .readBits _ _ => [.noError, .stateError, .configurationError, .indexError]
  | .packCons _ => [.noError, .stateError, .rangeError, .capacityError]
  | .packNcons _ => [.noError, .stateError, .rangeError, .capacityError]
  | .packOvf _ => [.noError, .stateError, .capacityError]
  | .endSession => [.noError, .stateError]
  | .unpackCons _ => [.noError, .stateError, .indexError, .consistencyError]
  | .unpackNcons _ => [.noError, .stateError, .indexError, .consistencyError]
  | .unpackOvf _ => [.noError, .stateError, .indexError, .consistencyError]
  | .rdreg _ => [.noError, .illegalCommand]

/-- The legality table of 45_session_control.md R220, row by row: the command, STATE, VARIANT and OVF_EN. -/
def Allowed (i : Instr) (st : SessionState) (v : Variant) (ovfEn : Bool) : Prop :=
  match i, st with
  | .beginSession _ _ _ _ _ _, .faulted => False
  | .beginSession _ _ _ _ _ _, _ => True
  | .writeBits _ _, .packing => v = .raw
  | .readBits _ _, .empty => True
  | .readBits _ _, .packing => True
  | .readBits _ _, .sealed => True
  | .packCons _, .packing => v = .cons ∧ ovfEn = false
  | .packNcons _, .packing => v = .ncons ∧ ovfEn = false
  | .packOvf _, .packing => (v = .cons ∨ v = .ncons) ∧ ovfEn = true
  | .endSession, .packing => True
  | .unpackCons _, .sealed => v = .cons ∧ ovfEn = false
  | .unpackNcons _, .sealed => v = .ncons ∧ ovfEn = false
  | .unpackOvf _, .sealed => (v = .cons ∨ v = .ncons) ∧ ovfEn = true
  | .rdreg _, _ => True
  | _, _ => False

/-- The command may run in the state `s` (45_session_control.md R220). -/
abbrev AllowedIn (i : Instr) (s : State) : Prop := Allowed i s.state s.config.variant s.config.ovfEn

/-- The three legal forms of BEGIN's fields (45_session_control.md R221). -/
abbrev LegalBegin (p : Params) (k ks : BitVec 7) (variant : BitVec 2)
    (signed ovfEn ovfMode : Bool) : Prop :=
  (variant.toNat ≤ 1 ∧ ovfEn = false ∧ ovfMode = false ∧ 1 ≤ k.toNat ∧ k.toNat ≤ p.w ∧ ks.toNat = 0) ∨
  (variant.toNat ≤ 1 ∧ ovfEn = true ∧ k.toNat = 0 ∧ 1 ≤ ks.toNat ∧ ks.toNat < p.nativeW ∧
    ks.toNat + 1 ≤ p.w) ∨
  (variant.toNat = 2 ∧ signed = false ∧ ovfEn = false ∧ ovfMode = false ∧ k.toNat = 0 ∧ ks.toNat = 0)

/-- The two's-complement reading of the low n bits of `a` (00_scope.md R7, 30_encoding.md R77). -/
def signedOf (n a : Nat) : Int :=
  if a % 2 ^ n < 2 ^ (n - 1) then (a % 2 ^ n : Nat) else ((a % 2 ^ n : Nat) : Int) - (2 ^ n : Nat)

/-- The element of a pack command (30_encoding.md R77). -/
abbrev elementArg (s : State) (a : Word) : Int := signedOf s.params.nativeW a.toNat

/-- FitsS in a signed session, FitsU in an unsigned one (44_signed_codec.md R202, R203). -/
abbrev InRange (signed : Bool) (k : Nat) (x : Int) : Prop :=
  if signed then -((2 ^ (k - 1) : Nat) : Int) + 1 ≤ x ∧ x ≤ ((2 ^ (k - 1) : Nat) : Int) - 1
  else 0 ≤ x ∧ x ≤ ((2 ^ k : Nat) : Int) - 1

/-- The code of an element: its magnitude, with 2^(k-1) added for a negative one (44_signed_codec.md
R200). -/
def codeOf (k : Nat) (x : Int) : Nat := if x < 0 then 2 ^ (k - 1) + x.natAbs else x.natAbs

/-- The element of a code in a session with the given SIGNED bit (44_signed_codec.md R201). -/
def valueOf (signed : Bool) (k u : Nat) : Int :=
  if signed = true ∧ 2 ^ (k - 1) ≤ u then -((u : Int) - (2 ^ (k - 1) : Nat)) else u

/-- The value of register r (10_state.md section 1, R20, R27, R32, R33). -/
def registerValue (s : State) (r : Nat) : Nat :=
  match r with
  | 0 => match s.state with
    | .empty => 0 | .packing => 1 | .sealed => 2 | .aborted => 3 | .faulted => 4
  | 1 => (match s.config.variant with | .cons => 0 | .ncons => 1 | .raw => 2)
      + s.config.signed.toNat * 2 ^ 2 + s.config.ovfEn.toNat * 2 ^ 3
      + s.config.ovfMode.toNat * 2 ^ 4 + s.config.k.toNat * 2 ^ 5 + s.config.ksmall.toNat * 2 ^ 12
  | 2 => s.cursor.toNat
  | 3 => s.lenWords.toNat
  | 4 => s.count.toNat
  | 5 => s.ovfCount.toNat
  | 6 => match s.lastCause with
    | .noError => 0 | .configurationError => 1 | .rangeError => 2 | .indexError => 3
    | .consistencyError => 4 | .stateError => 5 | .capacityError => 6 | .illegalCommand => 7
  | 7 => s.errSticky.toNat - s.errSticky.toNat % 2
  | 8 => s.params.w
  | 9 => s.params.nativeW
  | 10 => s.params.maxWords
  | _ => s.params.maxOvf

/-- A CONS or NCONS session without the overflow router is open (45_session_control.md R220). -/
abbrev OpenPlain (v : Variant) (s : State) : Prop :=
  s.state = .packing ∧ s.config.variant = v ∧ s.config.ovfEn = false

/-- A session with the overflow router is open (45_session_control.md R220). -/
abbrev OpenOverflow (s : State) : Prop :=
  s.state = .packing ∧ s.config.variant ≠ .raw ∧ s.config.ovfEn = true

/-- A sealed CONS or NCONS array without the overflow router (45_session_control.md R220). -/
abbrev SealedPlain (v : Variant) (s : State) : Prop :=
  s.state = .sealed ∧ s.config.variant = v ∧ s.config.ovfEn = false

/-- A sealed overflow array (45_session_control.md R220). -/
abbrev SealedOverflow (s : State) : Prop :=
  s.state = .sealed ∧ s.config.variant ≠ .raw ∧ s.config.ovfEn = true

/-- The two states hold the same array: they differ at most in the status registers and the port. -/
abbrev SameArray (s u : State) : Prop :=
  u = { s with lastCause := u.lastCause, errSticky := u.errSticky, pending := u.pending,
               responses := u.responses }

/-- MemWrites of the fields (p, n, v) of a list, in order (40_word_buffer.md R100). -/
def writeAll (s : State) : List (Nat × Nat × Nat) → Except Fault State
  | [] => .ok s
  | (p, n, v) :: fields =>
    match memWrite s p n v with
    | .ok s1 => writeAll s1 fields
    | .error f => .error f

end Sys2Proof.Claims

open Sys2Proof Sys2Proof.Machine Sys2Proof.Claims

/-! ### Encoding -/

/-- Decoding the encoding of a well-formed instruction gives it back, with every operand at every value
its field admits (30_encoding.md R72 to R74, R77). -/
def Obligations.DecodeOfEncodeIsIdentity : Prop :=
  ∀ i : Instr, WellFormed i → decode (encode i).1 (encode i).2 = .ok i

/-- A header that decodes is the header of its instruction, bit for bit, and the argument is the
instruction's unless its opcode ignores it (30_encoding.md R74, R77). -/
def Obligations.EncodeOfDecodeIsHeader : Prop :=
  ∀ (h : Header) (a : Word) (i : Instr), decode h a = .ok i →
    WellFormed i ∧ (encode i).1 = h ∧ (encode i).2 = if ignoresArgument i then 0#64 else a

/-- The decoder is total, checks in the order of 30_encoding.md R79, takes every field from the header
bits of R72, and a header it refuses raises IllegalCommand, whatever the state. -/
def Obligations.DecoderChecksInOrder : Prop :=
  ∀ (h : Header) (a : Word),
    (ReservedOpcode h → decode h a = .error .reservedOpcode) ∧
    (¬ ReservedOpcode h → ReservedBitSet h → decode h a = .error .reservedBits) ∧
    (¬ ReservedOpcode h → ¬ ReservedBitSet h → ReservedRegister h →
      decode h a = .error .reservedRegister) ∧
    (¬ ReservedOpcode h → ¬ ReservedBitSet h → ¬ ReservedRegister h →
      ∃ i, commandOf h a = some i ∧ decode h a = .ok i) ∧
    (∀ (e : Illegal) (s : State) (rest : List HostAction), decode h a = .error e →
      ParamsLegal s.params → s.pending = .command h a :: rest →
      ∃ t, step s = .next t ∧ Raised .illegalCommand { s with pending := rest } t)

/-- A few headers of the spec's test vectors decode to the commands they stand for (95_test_vectors.md
WB-1, CO-2, OV-4, SC-3). -/
def Obligations.SpecHeadersDecode : Prop :=
  decode 0x20E00000#32 0x5A#64 = .ok (.writeBits 7#7 0x5A#64) ∧
  decode 0x31000000#32 2#64 = .ok (.readBits 8#7 2#64) ∧
  decode 0x10600000#32 0#64 = .ok (.beginSession 3#7 0#7 0#2 false false false) ∧
  decode 0x10009C00#32 0#64 = .ok (.beginSession 0#7 2#7 1#2 true true false) ∧
  decode 0x40000000#32 5#64 = .ok (.packCons 5#64) ∧
  decode 0xB00000C0#32 0#64 = .ok (.rdreg 6#4) ∧
  decode 0xB0000180#32 0#64 = .error .reservedRegister ∧
  decode 0x70000001#32 0#64 = .error .reservedBits

/-! ### Steps -/

/-- When the host's next action is a command that decodes to i, a step is the meaning of i in the state
without that action (00_scope.md R1, R2; `pending` is the model's own field, assumption log 2). -/
def Obligations.StepRunsDecodedInstruction : Prop :=
  ∀ (s : State) (h : Header) (a : Word) (rest : List HostAction) (i : Instr),
    ParamsLegal s.params → s.pending = .command h a :: rest → decode h a = .ok i →
      step s = exec i { s with pending := rest }

/-- A header with a reserved opcode, a reserved bit set or a reserved register number raises
IllegalCommand, whatever the argument and the state (30_encoding.md R74, R75, R80). -/
def Obligations.IllegalHeaderRaisesIllegalCommand : Prop :=
  ∀ (s : State) (h : Header) (a : Word) (rest : List HostAction),
    ParamsLegal s.params → s.pending = .command h a :: rest →
    (ReservedOpcode h ∨ ReservedBitSet h ∨ ReservedRegister h) →
      ∃ t, step s = .next t ∧ Raised .illegalCommand { s with pending := rest } t

/-- While the host issues nothing, the block waits and holds its state (60_exceptions.md R265; that a
step is then an idle one is the model's form, assumption log 2). -/
def Obligations.StepWithoutActionHoldsState : Prop :=
  ∀ s : State, ParamsLegal s.params → s.pending = [] → step s = .next s

/-- Reset asserted by the host: every register takes the value of 70_reset_and_hazards.md R280. That WORDS
and OVF then list no value is the model's choice for 'unspecified' (assumption log 3); that the actions
after the reset stay pending and the responses stay is the model's choice for its own two fields
(assumption log 2). -/
def Obligations.HostResetGivesResetValues : Prop :=
  ∀ (s : State) (rest : List HostAction), ParamsLegal s.params → s.pending = .reset :: rest →
    step s = .next
      { params := s.params
        state := .empty
        config := { variant := .cons, signed := false, ovfEn := false, ovfMode := false, k := 0#7,
                    ksmall := 0#7 }
        cursor := 0#64
        lenWords := 0#64
        count := 0#64
        ovfCount := 0#64
        lastCause := .noError
        errSticky := 0#8
        words := []
        ovf := []
        pending := rest
        responses := s.responses }

/-- A step is refused exactly where the parameter tuple is outside the legal values (00_scope.md R4). -/
def Obligations.IllegalParametersAreRefused : Prop :=
  ∀ s : State,
    (s.params.w < 1 ∨ 64 < s.params.w ∨ s.params.nativeW < 1 ∨ 64 < s.params.nativeW ∨
      2 ^ 64 ≤ s.params.maxWords * s.params.w ∨ 2 ^ 64 ≤ s.params.maxOvf) ↔
    step s = .refused .illegalParameters

/-- Every command gets one response; an error's data word is 0, and so is that of a command that returns
nothing; LAST_CAUSE is the response's cause (30_encoding.md R71, 10_state.md R32). -/
def Obligations.EveryCommandGetsOneResponse : Prop :=
  ∀ (s t : State) (h : Header) (a : Word) (rest : List HostAction),
    s.pending = .command h a :: rest → step s = .next t →
      ∃ r, t.responses = r :: s.responses ∧ t.pending = rest ∧ t.lastCause = r.cause ∧
        (r.cause ≠ .noError → r.data = 0#64) ∧
        (∀ i, decode h a = .ok i → returnsNothing i = true → r.data = 0#64)

/-- No step changes a parameter (00_scope.md R3). -/
def Obligations.NoStepChangesParameters : Prop :=
  ∀ s t : State, step s = .next t → t.params = s.params

/-! ### Errors -/

/-- A command that ends with an error has the effects of 60_exceptions.md R253 and R255 to R257 and no
other: the buffer, the overflow store, the configuration and the counters stay (R251, 00_scope.md
R10). -/
def Obligations.ErrorHasOnlyItsEffects : Prop :=
  ∀ (i : Instr) (s t : State), exec i s = .next t → t.lastCause ≠ .noError → Raised t.lastCause s t

/-- Each command ends only with the causes that 60_exceptions.md R250 lists for it. -/
def Obligations.CommandsEndWithTheirCauses : Prop :=
  ∀ (i : Instr) (s t : State), exec i s = .next t → t.lastCause ∈ causesOf i

/-- ERR_STICKY: a command that ends with an error sets that cause's bit, no command clears a bit or sets
another, bit 0 stays 0, and reset clears all (10_state.md R33). -/
def Obligations.ErrStickyAccumulatesUntilReset : Prop :=
  (∀ (s t : State) (h : Header) (a : Word) (rest : List HostAction),
    s.errSticky.getLsbD 0 = false → s.pending = .command h a :: rest → step s = .next t →
      t.errSticky.getLsbD 0 = false ∧
      (t.lastCause = .noError → t.errSticky = s.errSticky) ∧
      (t.lastCause ≠ .noError →
        ∀ b, b < 8 → t.errSticky.getLsbD b =
          (s.errSticky.getLsbD b || decide (b = (causeCode t.lastCause).toNat)))) ∧
  (∀ (s t : State) (rest : List HostAction),
    s.pending = .reset :: rest → step s = .next t → t.errSticky = 0#8)

/-- A command raises StateError exactly where the legality table says no (45_session_control.md R220). -/
def Obligations.LegalityTableDecidesStateError : Prop :=
  ∀ (i : Instr) (s : State),
    (¬ AllowedIn i s → Raises i s .stateError) ∧
    (AllowedIn i s → ∀ t, exec i s = .next t → t.lastCause ≠ .stateError)

/-- RangeError and CapacityError are raised only in PACKING, by WRITE_BITS and the pack commands, and lead
to ABORTED with no effect beyond R253; there every command but BEGIN and RDREG raises StateError
(60_exceptions.md R256). -/
def Obligations.AbortOnlyFromPacking : Prop :=
  (∀ (i : Instr) (s t : State), exec i s = .next t →
    (t.lastCause = .rangeError ∨ t.lastCause = .capacityError) →
      s.state = .packing ∧ isWrite i = true ∧ t.state = .aborted ∧ Raised t.lastCause s t) ∧
  (∀ (i : Instr) (s : State), s.state = .aborted → isBegin i = false → isRdreg i = false →
    Raises i s .stateError)

/-- ConsistencyError is raised only in SEALED and leads to FAULTED; no command leaves FAULTED, and reset
does (60_exceptions.md R257, 70_reset_and_hazards.md R280). -/
def Obligations.FaultedOnlyFromSealedUntilReset : Prop :=
  (∀ (i : Instr) (s t : State), exec i s = .next t → t.lastCause = .consistencyError →
    s.state = .sealed ∧ t.state = .faulted) ∧
  (∀ (s t : State) (h : Header) (a : Word) (rest : List HostAction),
    s.state = .faulted → s.pending = .command h a :: rest → step s = .next t → t.state = .faulted) ∧
  (∀ (s t : State) (rest : List HostAction),
    s.pending = .reset :: rest → step s = .next t → t.state = .empty)

/-- In a sealed array no command but BEGIN changes WORDS, OVF, CURSOR, LEN_WORDS, N or OVF_COUNT, and
none leads back to writing (45_session_control.md R223). -/
def Obligations.SealedArrayIsImmutable : Prop :=
  ∀ (s t : State) (h : Header) (a : Word) (rest : List HostAction),
    (s.state = .sealed ∨ s.state = .faulted) → s.pending = .command h a :: rest →
    (∀ i, decode h a = .ok i → isBegin i = false) → step s = .next t →
      t.words = s.words ∧ t.ovf = s.ovf ∧ t.cursor = s.cursor ∧ t.lenWords = s.lenWords ∧
      t.count = s.count ∧ t.ovfCount = s.ovfCount ∧ (t.state = .sealed ∨ t.state = .faulted)

/-- READ_BITS and the unpack commands change no word, no overflow entry and no counter; one that
responds changes LAST_CAUSE alone, and the same read in the same array, whatever commands stand
between, returns the same data; one that raises ConsistencyError leaves FAULTED (20_memory.md R59). -/
def Obligations.ReadsHaveNoSideEffect : Prop :=
  ∀ (i : Instr) (s t : State), isRead i = true → exec i s = .next t →
    (t.words = s.words ∧ t.ovf = s.ovf ∧ t.cursor = s.cursor ∧ t.lenWords = s.lenWords ∧
      t.count = s.count ∧ t.ovfCount = s.ovfCount) ∧
    (t.lastCause = .noError → ∃ d, t = responded d s ∧
      ∀ u : State, SameArray s u → exec i u = .next (responded d u)) ∧
    (t.lastCause = .consistencyError → t.state = .faulted)

/-! ### Session control -/

/-- BEGIN with a legal form opens an empty session with that configuration, in every state but FAULTED
(45_session_control.md R221, R222). -/
def Obligations.BeginOpensEmptySession : Prop :=
  ∀ (k ks : BitVec 7) (variant : BitVec 2) (signed ovfEn ovfMode : Bool) (s : State),
    s.state ≠ .faulted → LegalBegin s.params k ks variant signed ovfEn ovfMode →
      ∃ v, (v = .cons ∧ variant = 0#2 ∨ v = .ncons ∧ variant = 1#2 ∨ v = .raw ∧ variant = 2#2) ∧
        exec (.beginSession k ks variant signed ovfEn ovfMode) s = .next
          { s with
            config := { variant := v, signed := signed, ovfEn := ovfEn, ovfMode := ovfMode, k := k,
                        ksmall := ks }
            cursor := 0#64, lenWords := 0#64, count := 0#64, ovfCount := 0#64
            state := .packing
            lastCause := .noError
            responses := { cause := .noError, data := 0#64 } :: s.responses }

/-- BEGIN with fields in none of the three legal forms raises ConfigurationError with no other effect
(45_session_control.md R221). -/
def Obligations.BeginRejectsIllegalForms : Prop :=
  ∀ (k ks : BitVec 7) (variant : BitVec 2) (signed ovfEn ovfMode : Bool) (s : State),
    s.state ≠ .faulted → ¬ LegalBegin s.params k ks variant signed ovfEn ovfMode →
      Raises (.beginSession k ks variant signed ovfEn ovfMode) s .configurationError

/-- END seals an open session and raises StateError in every other state (45_session_control.md R224). -/
def Obligations.EndSealsOpenSession : Prop :=
  ∀ s : State,
    (s.state = .packing → exec .endSession s = .next (responded 0#64 { s with state := .sealed })) ∧
    (s.state ≠ .packing → Raises .endSession s .stateError)

/-- RDREG of registers 0 to 11 returns the register, with the value before its own LAST_CAUSE write, in
every state, and changes LAST_CAUSE alone; a reserved number raises IllegalCommand
(45_session_control.md R228). -/
def Obligations.RdregReturnsRegister : Prop :=
  ∀ (r : BitVec 4) (s : State),
    (r.toNat < 12 →
      exec (.rdreg r) s = .next (responded (BitVec.ofNat 64 (registerValue s r.toNat)) s)) ∧
    (12 ≤ r.toNat → Raises (.rdreg r) s .illegalCommand)

/-! ### Word Buffer commands -/

/-- WRITE_BITS in an open RAW session stores the WIDTH low bits of its argument at CURSOR and advances
CURSOR; nothing else changes (40_word_buffer.md R100, R104). -/
def Obligations.WriteBitsStoresField : Prop :=
  ∀ (width : BitVec 7) (a : Word) (s : State),
    BufferOk s → s.state = .packing → s.config.variant = .raw →
    1 ≤ width.toNat → width.toNat ≤ s.params.w →
    s.cursor.toNat + width.toNat ≤ s.params.maxWords * s.params.w →
      ∃ t, exec (.writeBits width a) s = .next t ∧
        FieldStored s t s.cursor.toNat width.toNat (a.toNat % 2 ^ width.toNat) ∧
        t.cursor.toNat = s.cursor.toNat + width.toNat ∧
        t = { responded 0#64 s with words := t.words, lenWords := t.lenWords, cursor := t.cursor }

/-- READ_BITS of a field below CURSOR returns it zero-extended and changes LAST_CAUSE alone
(40_word_buffer.md R101, R105). -/
def Obligations.ReadBitsReturnsField : Prop :=
  ∀ (width : BitVec 7) (a : Word) (s : State) (u : Nat),
    (s.state = .empty ∨ s.state = .packing ∨ s.state = .sealed) →
    1 ≤ width.toNat → width.toNat ≤ s.params.w →
    a.toNat + width.toNat ≤ s.cursor.toNat → FieldAt s a.toNat width.toNat u →
      exec (.readBits width a) s = .next (responded (BitVec.ofNat 64 u) s)

/-- A WRITE_BITS or READ_BITS whose WIDTH is 0 or greater than W raises ConfigurationError
(40_word_buffer.md R102), where its state condition holds. -/
def Obligations.IllegalWidthRaisesConfigurationError : Prop :=
  ∀ (width : BitVec 7) (a : Word) (s : State), (width.toNat = 0 ∨ s.params.w < width.toNat) →
    (AllowedIn (.writeBits width a) s → Raises (.writeBits width a) s .configurationError) ∧
    (AllowedIn (.readBits width a) s → Raises (.readBits width a) s .configurationError)

/-- READ_BITS of a legal width that ends past CURSOR raises IndexError (40_word_buffer.md R105). -/
def Obligations.ReadPastCursorRaisesIndexError : Prop :=
  ∀ (width : BitVec 7) (a : Word) (s : State), AllowedIn (.readBits width a) s →
    1 ≤ width.toNat → width.toNat ≤ s.params.w → s.cursor.toNat < a.toNat + width.toNat →
      Raises (.readBits width a) s .indexError

/-- A write whose field would end past MAX_WORDS * W raises CapacityError before any bit is written, in
each command that writes the buffer (40_word_buffer.md R103). -/
def Obligations.WritePastCapacityRaises : Prop :=
  (∀ (width : BitVec 7) (a : Word) (s : State), s.state = .packing → s.config.variant = .raw →
    1 ≤ width.toNat → width.toNat ≤ s.params.w →
    s.params.maxWords * s.params.w < s.cursor.toNat + width.toNat →
      Raises (.writeBits width a) s .capacityError) ∧
  (∀ (a : Word) (s : State), OpenPlain .cons s →
    InRange s.config.signed s.config.k.toNat (elementArg s a) →
    s.params.maxWords * s.params.w < s.cursor.toNat + s.config.k.toNat →
      Raises (.packCons a) s .capacityError) ∧
  (∀ (a : Word) (s : State), OpenPlain .ncons s →
    InRange s.config.signed s.config.k.toNat (elementArg s a) →
    s.params.maxWords * s.params.w < nextStart s s.config.k.toNat + s.config.k.toNat →
      Raises (.packNcons a) s .capacityError) ∧
  (∀ (a : Word) (s : State), OpenOverflow s →
    s.params.maxWords * s.params.w < primStart s + (s.config.ksmall.toNat + 1) →
      Raises (.packOvf a) s .capacityError)

/-! ### Packing -/

/-- PACK_CONS of an element in range stores its code at CURSOR, advances CURSOR by K and N by 1; nothing
else changes (41_consecutive.md R131). -/
def Obligations.PackConsAppendsField : Prop :=
  ∀ (a : Word) (s : State), BufferOk s → OpenPlain .cons s →
    1 ≤ s.config.k.toNat → s.config.k.toNat ≤ s.params.w →
    InRange s.config.signed s.config.k.toNat (elementArg s a) →
    s.cursor.toNat + s.config.k.toNat ≤ s.params.maxWords * s.params.w →
      ∃ t, exec (.packCons a) s = .next t ∧
        FieldStored s t s.cursor.toNat s.config.k.toNat (codeOf s.config.k.toNat (elementArg s a)) ∧
        t.cursor.toNat = s.cursor.toNat + s.config.k.toNat ∧
        t = { responded 0#64 s with
              words := t.words, lenWords := t.lenWords, cursor := t.cursor, count := s.count + 1#64 }

/-- PACK_NCONS of an element in range stores its code at NextStart(K), where it straddles no word,
moves CURSOR past it and N by 1; nothing else changes (42_non_consecutive.md R150, R152). -/
def Obligations.PackNconsAppendsField : Prop :=
  ∀ (a : Word) (s : State), BufferOk s → OpenPlain .ncons s →
    1 ≤ s.config.k.toNat → s.config.k.toNat ≤ s.params.w →
    InRange s.config.signed s.config.k.toNat (elementArg s a) →
    nextStart s s.config.k.toNat + s.config.k.toNat ≤ s.params.maxWords * s.params.w →
      ∃ t, exec (.packNcons a) s = .next t ∧
        FieldStored s t (nextStart s s.config.k.toNat) s.config.k.toNat
          (codeOf s.config.k.toNat (elementArg s a)) ∧
        nextStart s s.config.k.toNat % s.params.w + s.config.k.toNat ≤ s.params.w ∧
        t.cursor.toNat = nextStart s s.config.k.toNat + s.config.k.toNat ∧
        t = { responded 0#64 s with
              words := t.words, lenWords := t.lenWords, cursor := t.cursor, count := s.count + 1#64 }

/-- PACK_CONS and PACK_NCONS of an element out of range raise RangeError (41_consecutive.md R131,
42_non_consecutive.md R152). -/
def Obligations.PackOutOfRangeRaisesRangeError : Prop :=
  (∀ (a : Word) (s : State), OpenPlain .cons s →
    ¬ InRange s.config.signed s.config.k.toNat (elementArg s a) →
      Raises (.packCons a) s .rangeError) ∧
  (∀ (a : Word) (s : State), OpenPlain .ncons s →
    ¬ InRange s.config.signed s.config.k.toNat (elementArg s a) →
      Raises (.packNcons a) s .rangeError)

/-- PACK_OVF of an element that fits KSMALL bits stores flag 0 and its code as a primary field and
advances N; the overflow store and everything else stay (43_overflow.md R170 to R172, R174). -/
def Obligations.PackOvfStoresFittingElement : Prop :=
  ∀ (a : Word) (s : State), BufferOk s → OpenOverflow s →
    1 ≤ s.config.ksmall.toNat → s.config.ksmall.toNat + 1 ≤ s.params.w →
    InRange s.config.signed s.config.ksmall.toNat (elementArg s a) →
    primStart s + (s.config.ksmall.toNat + 1) ≤ s.params.maxWords * s.params.w →
      ∃ t, exec (.packOvf a) s = .next t ∧
        codeOf s.config.ksmall.toNat (elementArg s a) < 2 ^ s.config.ksmall.toNat ∧
        FieldStored s t (primStart s) (s.config.ksmall.toNat + 1)
          (codeOf s.config.ksmall.toNat (elementArg s a)) ∧
        t.cursor.toNat = primStart s + (s.config.ksmall.toNat + 1) ∧
        t = { responded 0#64 s with
              words := t.words, lenWords := t.lenWords, cursor := t.cursor, count := s.count + 1#64 }

/-- PACK_OVF of an element that does not fit stores flag 1 and the payload (the store index in INDEX
mode, 0 in COMPACT mode), appends the element's NATIVE_W-bit pattern to the overflow store and
advances N; everything else stays (43_overflow.md R170 to R174, 10_state.md R36). -/
def Obligations.PackOvfRoutesOverflowingElement : Prop :=
  ∀ (a : Word) (s : State), BufferOk s → OpenOverflow s →
    1 ≤ s.config.ksmall.toNat → s.config.ksmall.toNat + 1 ≤ s.params.w →
    ¬ InRange s.config.signed s.config.ksmall.toNat (elementArg s a) →
    primStart s + (s.config.ksmall.toNat + 1) ≤ s.params.maxWords * s.params.w →
    s.ovfCount.toNat < s.params.maxOvf →
    (s.config.ovfMode = false → s.ovfCount.toNat ≤ 2 ^ s.config.ksmall.toNat - 1) →
      ∃ t, exec (.packOvf a) s = .next t ∧
        FieldStored s t (primStart s) (s.config.ksmall.toNat + 1)
          (2 ^ s.config.ksmall.toNat + if s.config.ovfMode then 0 else s.ovfCount.toNat) ∧
        t.cursor.toNat = primStart s + (s.config.ksmall.toNat + 1) ∧
        t.ovfCount.toNat = s.ovfCount.toNat + 1 ∧
        Memory.get t.ovf s.ovfCount.toNat =
          some (BitVec.ofNat 64 (a.toNat % 2 ^ s.params.nativeW)) ∧
        (∀ j, j ≠ s.ovfCount.toNat → Memory.get t.ovf j = Memory.get s.ovf j) ∧
        t = { responded 0#64 s with
              words := t.words, lenWords := t.lenWords, cursor := t.cursor, count := s.count + 1#64
              ovf := t.ovf, ovfCount := t.ovfCount }

/-- PACK_OVF of an element that does not fit raises CapacityError when the overflow store is full, or in
INDEX mode when the index does not fit KSMALL bits (43_overflow.md R173, R174; 10_state.md R36). -/
def Obligations.OverflowStoreExhaustionRaises : Prop :=
  ∀ (a : Word) (s : State), OpenOverflow s →
    ¬ InRange s.config.signed s.config.ksmall.toNat (elementArg s a) →
    primStart s + (s.config.ksmall.toNat + 1) ≤ s.params.maxWords * s.params.w →
    (s.params.maxOvf ≤ s.ovfCount.toNat ∨
      s.config.ovfMode = false ∧ 2 ^ s.config.ksmall.toNat - 1 < s.ovfCount.toNat) →
      Raises (.packOvf a) s .capacityError

/-! ### Unpacking -/

/-- UNPACK_CONS i returns the element whose K-bit field stands at i * K and changes LAST_CAUSE alone
(41_consecutive.md R132). -/
def Obligations.UnpackConsReturnsElement : Prop :=
  ∀ (a : Word) (s : State) (u : Nat), SealedPlain .cons s → 1 ≤ s.config.k.toNat →
    a.toNat < s.count.toNat → a.toNat * s.config.k.toNat + s.config.k.toNat ≤ s.cursor.toNat →
    FieldAt s (a.toNat * s.config.k.toNat) s.config.k.toNat u →
      exec (.unpackCons a) s =
        .next (responded (BitVec.ofInt 64 (valueOf s.config.signed s.config.k.toNat u)) s)

/-- UNPACK_NCONS i returns the element whose K-bit field stands at word i div epw, local offset
(i mod epw) * K, epw = floor(W / K), and changes LAST_CAUSE alone (42_non_consecutive.md R151,
R153). -/
def Obligations.UnpackNconsReturnsElement : Prop :=
  ∀ (a : Word) (s : State) (p u : Nat), SealedPlain .ncons s → 1 ≤ s.config.k.toNat →
    a.toNat < s.count.toNat →
    p = a.toNat / (s.params.w / s.config.k.toNat) * s.params.w +
      a.toNat % (s.params.w / s.config.k.toNat) * s.config.k.toNat →
    p + s.config.k.toNat ≤ s.cursor.toNat → FieldAt s p s.config.k.toNat u →
      exec (.unpackNcons a) s =
        .next (responded (BitVec.ofInt 64 (valueOf s.config.signed s.config.k.toNat u)) s)

/-- UNPACK_OVF of an element whose flag is 0 returns the payload's element (43_overflow.md R170, R175). -/
def Obligations.UnpackOvfReturnsPrimaryElement : Prop :=
  ∀ (a : Word) (s : State) (u : Nat), SealedOverflow s → 1 ≤ s.config.ksmall.toNat →
    a.toNat < s.count.toNat →
    primAddr s a.toNat + (s.config.ksmall.toNat + 1) ≤ s.cursor.toNat →
    FieldAt s (primAddr s a.toNat) (s.config.ksmall.toNat + 1) u → u < 2 ^ s.config.ksmall.toNat →
      exec (.unpackOvf a) s =
        .next (responded (BitVec.ofInt 64 (valueOf s.config.signed s.config.ksmall.toNat u)) s)

/-- UNPACK_OVF of a flagged element in INDEX mode returns the overflow entry its payload names,
sign-extended from NATIVE_W bits (43_overflow.md R175; 10_state.md R37). -/
def Obligations.UnpackOvfReturnsIndexedEntry : Prop :=
  ∀ (a : Word) (s : State) (j : Nat) (e : Word), SealedOverflow s → s.config.ovfMode = false →
    1 ≤ s.params.nativeW → a.toNat < s.count.toNat →
    primAddr s a.toNat + (s.config.ksmall.toNat + 1) ≤ s.cursor.toNat →
    j < 2 ^ s.config.ksmall.toNat →
    FieldAt s (primAddr s a.toNat) (s.config.ksmall.toNat + 1) (2 ^ s.config.ksmall.toNat + j) →
    j < s.ovfCount.toNat → j < s.params.maxOvf → Memory.get s.ovf j = some e →
      exec (.unpackOvf a) s =
        .next (responded (BitVec.ofInt 64 (signedOf s.params.nativeW e.toNat)) s)

/-- UNPACK_OVF of a flagged element in COMPACT mode ignores its payload and returns the overflow entry
at the number of flags before it, sign-extended from NATIVE_W bits (43_overflow.md R175, R176). -/
def Obligations.UnpackOvfReturnsCountedEntry : Prop :=
  ∀ (a : Word) (s : State) (payload : Nat) (e : Word), SealedOverflow s → s.config.ovfMode = true →
    1 ≤ s.params.nativeW → a.toNat < s.count.toNat →
    primAddr s a.toNat + (s.config.ksmall.toNat + 1) ≤ s.cursor.toNat →
    payload < 2 ^ s.config.ksmall.toNat →
    FieldAt s (primAddr s a.toNat) (s.config.ksmall.toNat + 1)
      (2 ^ s.config.ksmall.toNat + payload) →
    (∀ m, m < a.toNat → ∃ b, readBit s (primAddr s m) = .ok b) →
    flagsBelow s a.toNat < s.ovfCount.toNat → flagsBelow s a.toNat < s.params.maxOvf →
    Memory.get s.ovf (flagsBelow s a.toNat) = some e →
      exec (.unpackOvf a) s =
        .next (responded (BitVec.ofInt 64 (signedOf s.params.nativeW e.toNat)) s)

/-- An unpack of an index at or past N raises IndexError; a negative index is an unsigned one past N
(30_encoding.md R77; 41_consecutive.md R132, 42_non_consecutive.md R153, 43_overflow.md R175). -/
def Obligations.IndexPastCountRaisesIndexError : Prop :=
  ∀ (a : Word) (s : State), s.count.toNat ≤ a.toNat →
    (SealedPlain .cons s → Raises (.unpackCons a) s .indexError) ∧
    (SealedPlain .ncons s → Raises (.unpackNcons a) s .indexError) ∧
    (SealedOverflow s → Raises (.unpackOvf a) s .indexError)

/-- An unpack whose field passes CURSOR, or whose overflow position is at or past OVF_COUNT, raises
ConsistencyError (60_exceptions.md R250; 10_state.md R37). -/
def Obligations.InconsistentArrayRaisesConsistencyError : Prop :=
  ∀ (a : Word) (s : State), a.toNat < s.count.toNat →
    (SealedPlain .cons s → s.cursor.toNat < a.toNat * s.config.k.toNat + s.config.k.toNat →
      Raises (.unpackCons a) s .consistencyError) ∧
    (SealedPlain .ncons s →
      s.cursor.toNat < fieldAddrNC s.params.w a.toNat s.config.k.toNat + s.config.k.toNat →
      Raises (.unpackNcons a) s .consistencyError) ∧
    (SealedOverflow s → s.cursor.toNat < primAddr s a.toNat + (s.config.ksmall.toNat + 1) →
      Raises (.unpackOvf a) s .consistencyError) ∧
    (∀ j, SealedOverflow s → s.config.ovfMode = false →
      primAddr s a.toNat + (s.config.ksmall.toNat + 1) ≤ s.cursor.toNat →
      j < 2 ^ s.config.ksmall.toNat →
      FieldAt s (primAddr s a.toNat) (s.config.ksmall.toNat + 1) (2 ^ s.config.ksmall.toNat + j) →
      s.ovfCount.toNat ≤ j → Raises (.unpackOvf a) s .consistencyError) ∧
    (∀ payload, SealedOverflow s → s.config.ovfMode = true →
      primAddr s a.toNat + (s.config.ksmall.toNat + 1) ≤ s.cursor.toNat →
      payload < 2 ^ s.config.ksmall.toNat →
      FieldAt s (primAddr s a.toNat) (s.config.ksmall.toNat + 1)
        (2 ^ s.config.ksmall.toNat + payload) →
      (∀ m, m < a.toNat → ∃ b, readBit s (primAddr s m) = .ok b) →
      s.ovfCount.toNat ≤ flagsBelow s a.toNat → Raises (.unpackOvf a) s .consistencyError)

/-! ### The signed value codec -/

/-- Decode undoes Encode on the signed range, and the unsigned path stores and returns an element in its
range unchanged (44_signed_codec.md R204). -/
def Obligations.CodecRoundTrips : Prop :=
  ∀ (x : Int) (k : Nat), 1 ≤ k →
    (InRange true k x → decodeS (encodeS x k) k = x) ∧
    (InRange false k x → elementOf false (fieldOf false x k) k = x)

/-- Encode maps the signed range onto [0, 2^k - 1] without 2^(k-1), one to one, and Decode maps both 0
and 2^(k-1) to 0 (44_signed_codec.md R205). -/
def Obligations.EncodeIsBijectionWithoutHalfCode : Prop :=
  ∀ k : Nat, 1 ≤ k →
    (∀ x, InRange true k x → encodeS x k < 2 ^ k ∧ encodeS x k ≠ 2 ^ (k - 1)) ∧
    (∀ x y, InRange true k x → InRange true k y → encodeS x k = encodeS y k → x = y) ∧
    (∀ u, u < 2 ^ k → u ≠ 2 ^ (k - 1) → ∃ x, InRange true k x ∧ encodeS x k = u) ∧
    decodeS 0 k = 0 ∧ decodeS (2 ^ (k - 1)) k = 0

/-- At width 1 the signed range is 0 alone (44_signed_codec.md R206). -/
def Obligations.WidthOneSignedHoldsOnlyZero : Prop :=
  (∀ x : Int, fitsS x 1 = true ↔ x = 0) ∧ encodeS 0 1 = 0 ∧ decodeS 1 1 = 0

/-! ### Word Buffer primitives -/

/-- MemRead of a field is the slice of one word, or of the tail of one and the head of the next
(40_word_buffer.md R101, "Equivalently"). -/
def Obligations.MemReadIsWordSlices : Prop :=
  ∀ (s : State) (p n : Nat) (x : Word), ParamsLegal s.params → 1 ≤ n → n ≤ s.params.w →
    readWord s (p / s.params.w) = .ok x →
    (p % s.params.w + n ≤ s.params.w →
      memRead s p n = .ok (x.toNat / 2 ^ (s.params.w - p % s.params.w - n) % 2 ^ n)) ∧
    (s.params.w < p % s.params.w + n → ∀ (y : Word) (l : Nat), readWord s (p / s.params.w + 1) = .ok y →
      l = p % s.params.w + n - s.params.w →
      memRead s p n = .ok (x.toNat % 2 ^ (s.params.w - p % s.params.w) * 2 ^ l +
        y.toNat / 2 ^ (s.params.w - l) % 2 ^ l))

/-- MemWrite of a field replaces the slice of one word, or the tail of one and the head of the next; a
word it allocates held 0 (40_word_buffer.md R100, "Equivalently"). -/
def Obligations.MemWriteIsWordSlices : Prop :=
  ∀ (s t : State) (p n v q o : Nat), ParamsLegal s.params → 1 ≤ n → n ≤ s.params.w → v < 2 ^ n →
    p ≤ s.lenWords.toNat * s.params.w → q = p / s.params.w → o = p % s.params.w →
    memWrite s p n v = .ok t →
    ∃ x : Word, (q < s.lenWords.toNat → Memory.get s.words q = some x) ∧
      (s.lenWords.toNat ≤ q → x = 0#64) ∧
      (o + n ≤ s.params.w → ∃ x' : Word, Memory.get t.words q = some x' ∧
        x'.toNat = x.toNat / 2 ^ (s.params.w - o) * 2 ^ (s.params.w - o) +
          v * 2 ^ (s.params.w - o - n) + x.toNat % 2 ^ (s.params.w - o - n)) ∧
      (s.params.w < o + n → ∀ l, l = o + n - s.params.w →
        ∃ x' y y' : Word, (q + 1 < s.lenWords.toNat → Memory.get s.words (q + 1) = some y) ∧
          (s.lenWords.toNat ≤ q + 1 → y = 0#64) ∧
          Memory.get t.words q = some x' ∧ Memory.get t.words (q + 1) = some y' ∧
          x'.toNat = x.toNat / 2 ^ (s.params.w - o) * 2 ^ (s.params.w - o) + v / 2 ^ l ∧
          y'.toNat = y.toNat / 2 ^ s.params.w * 2 ^ s.params.w +
            v % 2 ^ l * 2 ^ (s.params.w - l) + y.toNat % 2 ^ (s.params.w - l))

/-- What MemWrite wrote, MemRead reads: at once, and after any number of later writes to other stream
addresses (40_word_buffer.md R106). -/
def Obligations.WriteThenReadAgrees : Prop :=
  ∀ (s t u : State) (p n v : Nat) (later : List (Nat × Nat × Nat)), ParamsLegal s.params →
    v < 2 ^ n → memWrite s p n v = .ok t →
    (∀ f ∈ later, f.1 + f.2.1 ≤ p ∨ p + n ≤ f.1) → writeAll t later = .ok u →
      memRead u p n = .ok v

/-- MemWrite and MemRead touch the words p div W and p div W + 1 alone, and the second only for a field
that straddles (40_word_buffer.md R107). -/
def Obligations.AccessesTouchAtMostTwoWords : Prop :=
  ∀ (s : State) (p n : Nat), ParamsLegal s.params → 1 ≤ n → n ≤ s.params.w →
    (∀ (v : Nat) (t : State), p ≤ s.lenWords.toNat * s.params.w → memWrite s p n v = .ok t →
      ∀ q, q ≠ p / s.params.w → (q ≠ p / s.params.w + 1 ∨ p % s.params.w + n ≤ s.params.w) →
        Memory.get t.words q = Memory.get s.words q) ∧
    (∀ t : State, t.params = s.params →
      readWord t (p / s.params.w) = readWord s (p / s.params.w) →
      (s.params.w < p % s.params.w + n →
        readWord t (p / s.params.w + 1) = readWord s (p / s.params.w + 1)) →
      memRead t p n = memRead s p n)

/-! ### Layout -/

/-- With CURSOR at the end of element N - 1, the padding rule of R150 starts element N at
FieldAddrNC(N, k), and no field straddles a word (42_non_consecutive.md R151). -/
def Obligations.PaddingRuleGivesFieldAddress : Prop :=
  ∀ (s : State) (k : Nat), 1 ≤ k → k ≤ s.params.w →
    s.cursor.toNat =
      (if s.count.toNat = 0 then 0 else fieldAddrNC s.params.w (s.count.toNat - 1) k + k) →
    nextStart s k = fieldAddrNC s.params.w s.count.toNat k ∧
    ∀ i, fieldAddrNC s.params.w i k % s.params.w + k ≤ s.params.w

/-- The density of a packed array: with kf the field width and n = N elements, CONS has CURSOR = n * kf
and LEN_WORDS = ceil(n * kf / W); NCONS has ceil(n / epw) words and ends after the last field
(41_consecutive.md R133, 42_non_consecutive.md R154, 43_overflow.md R179), in every state of the
invariant. -/
def Obligations.PackedArrayDensity : Prop :=
  ∀ s : State, Inv s → s.state ≠ .empty →
    (s.config.variant = .cons →
      s.cursor.toNat = s.count.toNat * elemWidth s ∧
      s.lenWords.toNat = ceilDiv (s.count.toNat * elemWidth s) s.params.w) ∧
    (s.config.variant = .ncons → s.count.toNat = 0 → s.cursor = 0#64 ∧ s.lenWords = 0#64) ∧
    (s.config.variant = .ncons → 1 ≤ s.count.toNat →
      s.lenWords.toNat = ceilDiv s.count.toNat (s.params.w / elemWidth s) ∧
      s.cursor.toNat = (s.count.toNat - 1) / (s.params.w / elemWidth s) * s.params.w +
        ((s.count.toNat - 1) % (s.params.w / elemWidth s) + 1) * elemWidth s)

/-! ### Invariants -/

/-- The invariant holds right after reset, for every legal parameter tuple and for the model's own
(70_reset_and_hazards.md R280; that the memories list nothing is the model's form, assumption log 3). -/
def Obligations.InvariantHoldsAtReset : Prop :=
  (∀ p : Params, ParamsLegal p → Inv (State.resetOf p)) ∧ Inv State.reset

/-- Every step keeps the invariant of the registers and memories: legal parameters, canonical memories
of W-bit words and NATIVE_W-bit entries, a legal configuration, CURSOR within capacity,
LEN_WORDS = ceil(CURSOR / W) (10_state.md R38), allocated words and entries with values, zeros past
CURSOR. -/
def Obligations.StepKeepsBlockInvariant : Prop :=
  ∀ s t : State, BlockInv s → step s = .next t → BlockInv t

/-- Every step keeps the whole invariant: also the layout, the padding, the flag count (10_state.md R39),
the INDEX payloads, and that the block is not FAULTED. -/
def Obligations.StepKeepsInvariant : Prop :=
  ∀ s t : State, Inv s → step s = .next t → Inv t

/-- In a state of the invariant no command raises ConsistencyError (60_exceptions.md R257), and every
instruction answers a next state. -/
def Obligations.InvariantExcludesConsistencyError : Prop :=
  ∀ (i : Instr) (s : State), Inv s →
    ∃ t, exec i s = .next t ∧ t.lastCause ≠ .consistencyError

/-- In a state of the invariant every step answers a next state: no fault, no refusal, every command ends
(70_reset_and_hazards.md R286). -/
def Obligations.EveryStepCompletes : Prop :=
  ∀ s : State, Inv s → ∃ t, step s = .next t

/-- What the words past LEN_WORDS and the entries past OVF_COUNT hold is never observable: two states
that differ there alone take the same step, response and all (70_reset_and_hazards.md R281,
10_state.md R43). -/
def Obligations.StaleContentsAreUnobservable : Prop :=
  ∀ s s' t : State, Inv s → SameObservable s s' → step s = .next t →
    ∃ t', step s' = .next t' ∧ SameObservable t t'

/-! ### Whole arrays -/

/-- Compressing values in range within capacity raises nothing and leaves a sealed array of N elements
(45_session_control.md R234; 41_consecutive.md R133, 42_non_consecutive.md R154). -/
def Obligations.CompressOfFittingValuesSeals : Prop :=
  ∀ (ncons signed : Bool) (k : BitVec 7) (values : List Int) (s : State),
    ParamsLegal s.params → s.state ≠ .faulted → 1 ≤ k.toNat → k.toNat ≤ s.params.w →
    (∀ x ∈ values, InRange signed k.toNat x ∧ -((2 ^ (s.params.nativeW - 1) : Nat) : Int) ≤ x ∧
      x < ((2 ^ (s.params.nativeW - 1) : Nat) : Int)) →
    (ncons = false → values.length * k.toNat ≤ s.params.maxWords * s.params.w) →
    (ncons = true → ceilDiv values.length (s.params.w / k.toNat) ≤ s.params.maxWords) →
      ∃ t, runSeq (compressSeq (.plain ncons k signed) values) s = .next t ∧
        t.state = .sealed ∧ t.count.toNat = values.length ∧
        t.responses = List.replicate (values.length + 2) { cause := .noError, data := 0#64 } ++
          s.responses

/-- Decompressing what was compressed without a raise returns the values in order, and UNPACK i returns
value i, for every layout, codec and overflow mode (45_session_control.md R235). -/
def Obligations.CompressThenDecompressReturnsValues : Prop :=
  ∀ (f : ArrayForm) (values : List Int) (s t : State),
    ParamsLegal s.params → s.state ≠ .faulted →
    (∀ x ∈ values, -((2 ^ (s.params.nativeW - 1) : Nat) : Int) ≤ x ∧
      x < ((2 ^ (s.params.nativeW - 1) : Nat) : Int)) →
    runSeq (compressSeq f values) s = .next t →
    (∀ r ∈ t.responses.take (values.length + 2), r.cause = .noError) →
      (∃ u, decompress f t = .next u ∧
        u.responses = values.reverse.map
            (fun x => { cause := .noError, data := BitVec.ofInt 64 x : Response }) ++
          { cause := .noError, data := BitVec.ofNat 64 values.length } :: t.responses) ∧
      ∀ (i : Nat) (x : Int), values[i]? = some x →
        exec (unpackInstr f i) t = .next (responded (BitVec.ofInt 64 x) t)

/-- AutoWidth is ceil(log2(m + 1)), plus 1 for a signed session, never 0; with it every value fits a
signed session and every non-negative value an unsigned one (45_session_control.md R232). -/
def Obligations.AutoWidthFitsEveryValue : Prop :=
  ∀ (values : List Int) (signed : Bool),
    autoWidth values signed = max 1 (Nat.clog 2 (maxMagnitude values + 1) + signed.toNat) ∧
    ∀ x ∈ values, (signed = true ∨ 0 ≤ x) → InRange signed (autoWidth values signed) x
end

