-- ==== Sys2Proof/Laws/Memory.lean ====
section
/-! SUPPORT. The memories: a read after a write, and that every write keeps the canonical form and the
bounds of indices and cells. -/

namespace Sys2Proof.Machine

@[simp] theorem Memory.get_nil (i : Nat) : Memory.get [] i = none := rfl

@[simp] theorem Memory.get_set_self (m : Memory) (i : Nat) (v : Word) :
    Memory.get (Memory.set m i v) i = some v := by
  induction m with
  | nil => simp [Memory.set, Memory.get]
  | cons c m ih =>
    obtain ⟨a, x⟩ := c
    simp only [Memory.set]
    split
    · simp [Memory.get]
    · split
      · simp [Memory.get]
      · rename_i _ h
        simp [Memory.get, h, ih]

theorem Memory.get_set_ne (m : Memory) {i j : Nat} (v : Word) (h : j ≠ i) :
    Memory.get (Memory.set m i v) j = Memory.get m j := by
  induction m with
  | nil => simp [Memory.set, Memory.get, h]
  | cons c m ih =>
    obtain ⟨a, x⟩ := c
    simp only [Memory.set]
    split
    · simp [Memory.get, h]
    · split
      · rename_i _ hia
        have hja : ¬ j = a := by omega
        simp [Memory.get, h, hja]
      · by_cases hja : j = a <;> simp [Memory.get, hja, ih]

theorem Memory.get_set (m : Memory) (i j : Nat) (v : Word) :
    Memory.get (Memory.set m i v) j = if j = i then some v else Memory.get m j := by
  split
  · rename_i h; subst h; exact Memory.get_set_self m _ v
  · rename_i h; exact Memory.get_set_ne m v h

theorem Memory.above_mono {b b' : Nat} (m : Memory) (hb : b ≤ b') (h : Memory.above b' m = true) :
    Memory.above b m = true := by
  induction m with
  | nil => rfl
  | cons c m ih =>
    obtain ⟨a, x⟩ := c
    simp only [Memory.above, Bool.and_eq_true, decide_eq_true_eq] at h ⊢
    exact ⟨by omega, ih h.2⟩

theorem Memory.above_set {b i : Nat} (m : Memory) (v : Word) (hi : b < i)
    (h : Memory.above b m = true) : Memory.above b (Memory.set m i v) = true := by
  induction m with
  | nil => simp [Memory.set, Memory.above, hi]
  | cons c m ih =>
    obtain ⟨a, x⟩ := c
    simp only [Memory.above, Bool.and_eq_true, decide_eq_true_eq] at h
    simp only [Memory.set]
    split
    · simp [Memory.above, hi, h.1, h.2]
    · split <;> simp [Memory.above, hi, h.1, h.2, ih h.2]

/-- Every write keeps the canonical form. -/
theorem Memory.wf_set {i : Nat} (m : Memory) (v : Word) (h : Memory.wf m = true) :
    Memory.wf (Memory.set m i v) = true := by
  induction m with
  | nil => simp [Memory.set, Memory.wf, Memory.above]
  | cons c m ih =>
    obtain ⟨a, x⟩ := c
    simp only [Memory.wf, Bool.and_eq_true] at h
    simp only [Memory.set]
    split
    · rename_i hia
      simp [Memory.wf, Memory.above, hia, h.1, h.2, Memory.above_mono m (Nat.le_of_lt hia) h.1]
    · split
      · rename_i _ hia
        subst hia
        simp [Memory.wf, h.1, h.2]
      · rename_i h1 h2
        have hai : a < i := by omega
        simp [Memory.wf, Memory.above_set m v hai h.1, ih h.2]

/-- Every write inside the array keeps the bounds of indices and cells. -/
theorem Memory.within_set {size width i : Nat} (m : Memory) (v : Word) (hi : i < size)
    (hv : v.toNat < 2 ^ width) (h : Memory.within size width m = true) :
    Memory.within size width (Memory.set m i v) = true := by
  induction m with
  | nil => simp [Memory.set, Memory.within, hi, hv]
  | cons c m ih =>
    obtain ⟨a, x⟩ := c
    simp only [Memory.within, Bool.and_eq_true, decide_eq_true_eq] at h
    simp only [Memory.set]
    split
    · simp [Memory.within, hi, hv, h.1.1, h.1.2, h.2]
    · split <;> simp [Memory.within, hi, hv, h.1.1, h.1.2, h.2, ih h.2]

/-- A cell read from a memory within bounds is inside the array and has the cell's width. -/
theorem Memory.within_get {size width i : Nat} {x : Word} (m : Memory)
    (h : Memory.within size width m = true) (hx : Memory.get m i = some x) :
    i < size ∧ x.toNat < 2 ^ width := by
  induction m with
  | nil => simp at hx
  | cons c m ih =>
    obtain ⟨a, y⟩ := c
    simp only [Memory.within, Bool.and_eq_true, decide_eq_true_eq] at h
    simp only [Memory.get] at hx
    split at hx
    · rename_i hia
      cases hx
      exact ⟨by omega, h.1.2⟩
    · exact ih h.2 hx

theorem setWordBit_getLsbD (x : Word) {b : Nat} (v : Bool) (j : Nat) (hb : b < 64) :
    (setWordBit x b v).getLsbD j = if j = b then v else x.getLsbD j := by
  unfold setWordBit
  by_cases hj : j = b
  · subst hj
    cases v <;> simp [hb]
  · by_cases hj64 : j < 64
    · have key : (1#64 <<< b).getLsbD j = false := by
        rw [BitVec.getLsbD_shiftLeft]
        by_cases h : j < b
        · simp [h]
        · have : ¬ (j - b = 0) := by omega
          simp [BitVec.getLsbD_one, this]
      cases v
      · simp only [Bool.false_eq_true, if_false, BitVec.getLsbD_and, BitVec.getLsbD_not, key, hj]
        simp [hj64]
      · simp only [if_true, BitVec.getLsbD_or, key, hj, if_false, Bool.or_false]
    · rw [BitVec.getLsbD_of_ge _ _ (by omega), BitVec.getLsbD_of_ge x _ (by omega)]
      simp [hj]

/-- A word of W bits stays one when one of its bits is written. -/
theorem setWordBit_lt {x : Word} {b w : Nat} (v : Bool) (hb : b < w) (hw : w ≤ 64)
    (hx : x.toNat < 2 ^ w) : (setWordBit x b v).toNat < 2 ^ w := by
  apply Nat.lt_pow_two_of_testBit
  intro j hj
  have h1 := setWordBit_getLsbD x v j (b := b) (by omega)
  have hjb : ¬ j = b := by omega
  rw [if_neg hjb] at h1
  have h2 : x.getLsbD j = false := by
    show x.toNat.testBit j = false
    exact Nat.testBit_lt_two_pow (Nat.lt_of_lt_of_le hx (Nat.pow_le_pow_right (by omega) hj))
  rw [h2] at h1
  exact h1

end Sys2Proof.Machine
end

