-- ==== Sys2Proof/Laws/Buffer.lean ====
section
/-! SUPPORT. What the word-buffer primitives do, said once: reading a bit, allocating words, writing a bit,
MemWrite and MemRead (40_word_buffer.md R100, R101). -/

namespace Sys2Proof.Machine

/-! ### Places of bits -/

theorem div_lt_of_lt_mul {p n w : Nat} (h : p < n * w) : p / w < n :=
  Nat.div_lt_of_lt_mul (by rwa [Nat.mul_comm] at h)

theorem lt_mul_of_div_lt {p n w : Nat} (hw : 1 ≤ w) (h : p / w < n) : p < n * w :=
  (Nat.div_lt_iff_lt_mul hw).1 h

theorem bitOf_lt {prm : Params} (h : 1 ≤ prm.w) (p : Nat) : bitOf prm p < prm.w := by
  unfold bitOf; omega

/-- Two stream addresses of one word with one place in it are one. -/
theorem bitOf_inj {prm : Params} (h : 1 ≤ prm.w) {p p' : Nat}
    (hq : wordOf prm p = wordOf prm p') (hb : bitOf prm p = bitOf prm p') : p = p' := by
  unfold wordOf at hq
  unfold bitOf at hb
  have h1 := Nat.mod_lt p h
  have h2 := Nat.mod_lt p' h
  have h3 : p % prm.w = p' % prm.w := by omega
  rw [← Nat.div_add_mod p prm.w, ← Nat.div_add_mod p' prm.w, hq, h3]

/-! ### Reading a word and a bit -/

/-- A read of a word answers a value exactly where the word exists and holds it. -/
theorem readWord_eq_ok {s : State} {q : Nat} {x : Word} :
    readWord s q = .ok x ↔ q < s.params.maxWords ∧ Memory.get s.words q = some x := by
  unfold readWord
  split
  · rename_i hq
    cases hm : Memory.get s.words q <;> simp [hq]
  · rename_i hq
    simp [hq]

/-- Reading a word depends on the parameters and that cell alone. -/
theorem readWord_congr {s t : State} {q : Nat} (hp : t.params = s.params)
    (hw : Memory.get t.words q = Memory.get s.words q) : readWord t q = readWord s q := by
  unfold readWord
  rw [hp, hw]

theorem readBit_congr {s t : State} {p : Nat} (hp : t.params = s.params)
    (hw : Memory.get t.words (wordOf s.params p) = Memory.get s.words (wordOf s.params p)) :
    readBit t p = readBit s p := by
  unfold readBit
  rw [hp, readWord_congr hp hw]

theorem readBit_of_get {s : State} {p : Nat} {x : Word} (hq : wordOf s.params p < s.params.maxWords)
    (hx : Memory.get s.words (wordOf s.params p) = some x) :
    readBit s p = .ok (x.getLsbD (bitOf s.params p)) := by
  unfold readBit
  rw [readWord_eq_ok.2 ⟨hq, hx⟩]

/-! ### Reading a field -/

theorem readFrom_eq_ok {s : State} (n : Nat) : ∀ {r p v : Nat},
    readFrom s r p n = .ok v ↔ ∃ u, FieldAt s p n u ∧ v = r * 2 ^ n + u := by
  induction n with
  | zero =>
    intro r p v
    constructor
    · intro h
      refine ⟨0, ⟨by intro j hj; omega, by simp⟩, ?_⟩
      simp only [readFrom, Except.ok.injEq] at h
      omega
    · rintro ⟨u, hu, rfl⟩
      have := hu.small
      simp only [readFrom, Except.ok.injEq]
      omega
  | succ n ih =>
    intro r p v
    simp only [readFrom]
    cases hb : readBit s p with
    | error f =>
      constructor
      · intro h; cases h
      · rintro ⟨u, hu, -⟩
        have := hu.bits 0 (by omega)
        rw [Nat.add_zero, hb] at this
        cases this
    | ok b =>
      dsimp only
      rw [ih]
      constructor
      · rintro ⟨u, hu, rfl⟩
        have hu2 := hu.small
        refine ⟨2 ^ n * b.toNat + u, ⟨?_, ?_⟩, ?_⟩
        · intro j hj
          cases j with
          | zero =>
            rw [Nat.add_zero, hb, Nat.add_sub_cancel, Nat.sub_zero,
              Nat.testBit_two_pow_mul_add _ hu2]
            cases b <;> simp
          | succ j =>
            have := hu.bits j (by omega)
            rw [show p + (j + 1) = p + 1 + j by omega, this,
              Nat.testBit_two_pow_mul_add _ hu2, if_pos (by omega)]
            congr 2
            omega
        · rw [Nat.pow_succ]
          cases b <;> simp <;> omega
        · rw [Nat.pow_succ, Nat.add_mul, Nat.mul_comm 2 r, Nat.mul_assoc r 2, Nat.mul_comm 2 (2 ^ n),
            Nat.mul_comm b.toNat, Nat.add_assoc]
      · rintro ⟨u, hu, rfl⟩
        have hlt := hu.small
        refine ⟨u % 2 ^ n, ⟨?_, Nat.mod_lt _ (Nat.two_pow_pos n)⟩, ?_⟩
        · intro j hj
          have := hu.bits (j + 1) (by omega)
          rw [show p + 1 + j = p + (j + 1) by omega, this, Nat.testBit_mod_two_pow]
          have e : n + 1 - 1 - (j + 1) = n - 1 - j := by omega
          rw [e]
          simp [show n - 1 - j < n by omega]
        · have hb0 := hu.bits 0 (by omega)
          rw [Nat.add_zero, hb, Nat.add_sub_cancel, Nat.sub_zero] at hb0
          have hbv : b = u.testBit n := by simpa using hb0
          have hdiv : u / 2 ^ n = b.toNat := by
            have h2 : u / 2 ^ n < 2 := by
              rw [Nat.div_lt_iff_lt_mul (Nat.two_pow_pos n)]
              rw [Nat.pow_succ] at hlt
              omega
            rw [hbv, Nat.testBit_eq_decide_div_mod_eq]
            generalize u / 2 ^ n = d at h2 ⊢
            rcases (by omega : d = 0 ∨ d = 1) with h | h <;> subst h <;> rfl
          have hdm := Nat.div_add_mod u (2 ^ n)
          rw [hdiv] at hdm
          rw [Nat.pow_succ, Nat.add_mul, Nat.mul_comm 2 r, Nat.mul_assoc r 2,
            Nat.mul_comm 2 (2 ^ n), Nat.mul_comm b.toNat]
          omega

/-- MemRead answers u exactly where the bits of the field are those of u (40_word_buffer.md R101). -/
theorem memRead_eq_ok {s : State} {p n u : Nat} : memRead s p n = .ok u ↔ FieldAt s p n u := by
  unfold memRead
  rw [readFrom_eq_ok]
  constructor
  · rintro ⟨u', hu, rfl⟩
    simpa using hu
  · intro h
    exact ⟨u, h, by simp⟩

/-- MemRead of readable bits answers a value. -/
theorem memRead_ok {s : State} {p n : Nat}
    (h : ∀ j, j < n → ∃ b, readBit s (p + j) = .ok b) : ∃ u, memRead s p n = .ok u := by
  have key : ∀ n r p, (∀ j, j < n → ∃ b, readBit s (p + j) = .ok b) →
      ∃ u, readFrom s r p n = .ok u := by
    intro n
    induction n with
    | zero => intro r p _; exact ⟨r, rfl⟩
    | succ n ih =>
      intro r p h
      obtain ⟨b, hb⟩ := h 0 (by omega)
      simp only [readFrom]
      rw [Nat.add_zero] at hb
      rw [hb]
      apply ih
      intro j hj
      obtain ⟨c, hc⟩ := h (j + 1) (by omega)
      exact ⟨c, by rw [show p + 1 + j = p + (j + 1) by omega]; exact hc⟩
  exact key n 0 p h

/-- A field is read the same in two states whose bits there read the same. -/
theorem FieldAt.congr {s t : State} {p n u : Nat} (h : FieldAt s p n u)
    (hb : ∀ j, j < n → readBit t (p + j) = readBit s (p + j)) : FieldAt t p n u :=
  ⟨fun j hj => by rw [hb j hj]; exact h.bits j hj, h.small⟩

/-- The value of a field is one. -/
theorem FieldAt.unique {s : State} {p n u v : Nat} (hu : FieldAt s p n u) (hv : FieldAt s p n v) :
    u = v := by
  have h1 := memRead_eq_ok.2 hu
  rw [memRead_eq_ok.2 hv] at h1
  simpa using h1.symm

/-! ### Allocating words -/

theorem allocate_frame (s : State) (j : Nat) : allocate s j =
    { s with words := (allocate s j).words, lenWords := s.lenWords + BitVec.ofNat 64 j } := by
  induction j generalizing s with
  | zero => simp [allocate]
  | succ j ih =>
    simp only [allocate]
    rw [ih]
    dsimp only
    congr 1
    rw [BitVec.add_assoc]
    congr 1
    apply BitVec.eq_of_toNat_eq
    simp [Nat.add_comm]

@[simp] theorem allocate_params (s : State) (j : Nat) : (allocate s j).params = s.params := by
  rw [allocate_frame]

@[simp] theorem allocate_lenWords (s : State) (j : Nat) :
    (allocate s j).lenWords = s.lenWords + BitVec.ofNat 64 j := by
  rw [allocate_frame]

/-- The words an allocation adds hold 0; no other cell changes (40_word_buffer.md R100). -/
theorem allocate_get (s : State) (j : Nat) (h : s.lenWords.toNat + j < 2 ^ 64) (q : Nat) :
    Memory.get (allocate s j).words q =
      if s.lenWords.toNat ≤ q ∧ q < s.lenWords.toNat + j then some 0#64 else Memory.get s.words q := by
  induction j generalizing s with
  | zero =>
    rw [if_neg (by omega)]
    rfl
  | succ j ih =>
    have hlen : (s.lenWords + 1#64).toNat = s.lenWords.toNat + 1 := by
      rw [BitVec.toNat_add]
      exact Nat.mod_eq_of_lt (by simp; omega)
    simp only [allocate]
    rw [ih _ (by dsimp only; omega)]
    dsimp only
    rw [hlen, Memory.get_set]
    by_cases h1 : q = s.lenWords.toNat
    · subst h1
      simp
    · simp only [h1, if_false]
      have : (s.lenWords.toNat + 1 ≤ q ∧ q < s.lenWords.toNat + 1 + j) ↔
          (s.lenWords.toNat ≤ q ∧ q < s.lenWords.toNat + (j + 1)) := by omega
      simp only [this]

theorem allocate_wf (s : State) (j : Nat) (h : Memory.wf s.words = true) :
    Memory.wf (allocate s j).words = true := by
  induction j generalizing s with
  | zero => exact h
  | succ j ih => exact ih _ (Memory.wf_set _ _ h)

theorem allocate_within {size width : Nat} (s : State) (j : Nat)
    (hlen : s.lenWords.toNat + j ≤ size) (hsize : size < 2 ^ 64)
    (h : Memory.within size width s.words = true) :
    Memory.within size width (allocate s j).words = true := by
  induction j generalizing s with
  | zero => exact h
  | succ j ih =>
    have h1 : (s.lenWords + 1#64).toNat = s.lenWords.toNat + 1 := by
      rw [BitVec.toNat_add]
      exact Nat.mod_eq_of_lt (by simp; omega)
    apply ih
    · dsimp only; omega
    · exact Memory.within_set _ _ (by omega) (by simp) h

/-! ### Writing a bit -/

/-- The number of words is below 2^64, the width at least 1 and at most 64. -/
theorem ParamsLegal.bounds {p : Params} (h : ParamsLegal p) :
    1 ≤ p.w ∧ p.w ≤ 64 ∧ p.maxWords < 2 ^ 64 := by
  obtain ⟨h1, h2, -, -, h5, -⟩ := h
  refine ⟨h1, h2, ?_⟩
  calc p.maxWords = p.maxWords * 1 := by omega
    _ ≤ p.maxWords * p.w := Nat.mul_le_mul_left _ h1
    _ < 2 ^ 64 := h5

/-- What writing one bit does, in one place: the frame, LEN_WORDS, every cell. -/
theorem writeBit_spec {s t : State} {p : Nat} {v : Bool} (hp : ParamsLegal s.params)
    (h : writeBit s p v = .ok t) :
    t = { s with words := t.words, lenWords := t.lenWords } ∧
    t.lenWords.toNat = max s.lenWords.toNat (wordOf s.params p + 1) ∧
    wordOf s.params p < s.params.maxWords ∧
    ∃ x, (x = if s.lenWords.toNat ≤ wordOf s.params p then 0#64
            else (Memory.get s.words (wordOf s.params p)).getD 0#64) ∧
      (wordOf s.params p < s.lenWords.toNat → Memory.get s.words (wordOf s.params p) = some x) ∧
      ∀ q, Memory.get t.words q =
        if q = wordOf s.params p then some (setWordBit x (bitOf s.params p) v)
        else if s.lenWords.toNat ≤ q ∧ q < wordOf s.params p then some 0#64
        else Memory.get s.words q := by
  obtain ⟨hw1, hw2, hmax⟩ := hp.bounds
  unfold writeBit at h
  dsimp only at h
  generalize hq : wordOf s.params p = q at h ⊢
  generalize hj : q + 1 - s.lenWords.toNat = j at h
  cases hr : readWord (allocate s j) q with
  | error f => rw [hr] at h; cases h
  | ok x =>
    rw [hr] at h
    cases h
    obtain ⟨hqm, hx⟩ := readWord_eq_ok.1 hr
    rw [allocate_params] at hqm
    have hlen := s.lenWords.isLt
    have hsum : s.lenWords.toNat + j < 2 ^ 64 := by omega
    have hget := allocate_get s j hsum
    rw [hget] at hx
    refine ⟨?_, ?_, hqm, x, ?_, ?_, ?_⟩
    · conv_lhs => rw [allocate_frame]
      dsimp only
      rw [allocate_lenWords]
    · dsimp only
      rw [allocate_lenWords, BitVec.toNat_add, BitVec.toNat_ofNat,
        Nat.mod_eq_of_lt (a := j) (by omega), Nat.mod_eq_of_lt hsum]
      omega
    · by_cases hc : s.lenWords.toNat ≤ q
      · rw [if_pos ⟨hc, by omega⟩] at hx
        rw [if_pos hc]
        exact (Option.some.inj hx).symm
      · rw [if_neg (by omega)] at hx
        rw [if_neg hc, hx]
        rfl
    · intro hc
      rw [if_neg (by omega)] at hx
      exact hx
    · intro r
      dsimp only
      rw [Memory.get_set, hget]
      by_cases hrq : r = q
      · simp [hrq]
      · simp only [hrq, if_false]
        have e : (s.lenWords.toNat ≤ r ∧ r < s.lenWords.toNat + j) ↔
            (s.lenWords.toNat ≤ r ∧ r < q) := by omega
        simp only [e]

/-- Writing a bit completes where its word exists and the allocated words hold values. -/
theorem writeBit_ok {s : State} {p : Nat} (v : Bool) (hp : ParamsLegal s.params)
    (hq : wordOf s.params p < s.params.maxWords)
    (hl : ∀ q, q < s.lenWords.toNat → (Memory.get s.words q).isSome = true) :
    ∃ t, writeBit s p v = .ok t := by
  obtain ⟨hw1, hw2, hmax⟩ := hp.bounds
  unfold writeBit
  dsimp only
  generalize wordOf s.params p = q at hq ⊢
  have hlen := s.lenWords.isLt
  have hget := allocate_get s (q + 1 - s.lenWords.toNat) (by omega) q
  have : ∃ x, readWord (allocate s (q + 1 - s.lenWords.toNat)) q = .ok x := by
    by_cases hc : s.lenWords.toNat ≤ q
    · rw [if_pos ⟨hc, by omega⟩] at hget
      exact ⟨_, readWord_eq_ok.2 ⟨by rw [allocate_params]; exact hq, hget⟩⟩
    · rw [if_neg (by omega)] at hget
      obtain ⟨x, hx⟩ := Option.isSome_iff_exists.1 (hl q (by omega))
      rw [hx] at hget
      exact ⟨x, readWord_eq_ok.2 ⟨by rw [allocate_params]; exact hq, hget⟩⟩
  obtain ⟨x, hx⟩ := this
  rw [hx]
  exact ⟨_, rfl⟩

theorem writeBit_params {s t : State} {p : Nat} {v : Bool} (hp : ParamsLegal s.params)
    (h : writeBit s p v = .ok t) : t.params = s.params := by
  rw [(writeBit_spec hp h).1]

/-- Every bit after one is written: the bit itself, zero in newly allocated words, the rest as it was. -/
theorem writeBit_readBit {s t : State} {p : Nat} {v : Bool} (hp : ParamsLegal s.params)
    (h : writeBit s p v = .ok t) (r : Nat) :
    readBit t r = if r = p then .ok v
      else if s.lenWords.toNat ≤ wordOf s.params r ∧ wordOf s.params r < t.lenWords.toNat then .ok false
      else readBit s r := by
  obtain ⟨hw1, hw2, hmax⟩ := hp.bounds
  have hpt := writeBit_params hp h
  obtain ⟨-, hlen, hqm, x, hx0, hx1, hget⟩ := writeBit_spec hp h
  have hb := bitOf_lt hw1 p
  by_cases hr : r = p
  · subst hr
    rw [if_pos rfl]
    have := hget (wordOf s.params r)
    rw [if_pos rfl] at this
    rw [readBit_of_get (by rw [hpt]; exact hqm) (by rw [hpt]; exact this), hpt,
      setWordBit_getLsbD _ _ _ (by omega), if_pos rfl]
  · rw [if_neg hr]
    by_cases hq : wordOf s.params r = wordOf s.params p
    · have hg := hget (wordOf s.params r)
      rw [if_pos hq] at hg
      have hne : ¬ bitOf s.params r = bitOf s.params p := fun hc => hr (bitOf_inj hw1 hq hc)
      rw [readBit_of_get (by rw [hpt, hq]; exact hqm) (by rw [hpt]; exact hg), hpt,
        setWordBit_getLsbD _ _ _ (by omega), if_neg hne]
      by_cases hc : s.lenWords.toNat ≤ wordOf s.params r
      · rw [if_pos ⟨hc, by omega⟩]
        rw [if_pos (by omega)] at hx0
        rw [hx0]
        simp
      · rw [if_neg (by omega)]
        have := hx1 (by omega)
        rw [← hq] at this
        rw [readBit_of_get (by rw [hq]; exact hqm) this]
    · have hg := hget (wordOf s.params r)
      rw [if_neg hq] at hg
      by_cases hc : s.lenWords.toNat ≤ wordOf s.params r ∧ wordOf s.params r < t.lenWords.toNat
      · rw [if_pos hc]
        rw [if_pos (by omega)] at hg
        rw [readBit_of_get (by rw [hpt]; omega) (by rw [hpt]; exact hg)]
        simp
      · rw [if_neg hc]
        rw [if_neg (by omega)] at hg
        exact readBit_congr hpt hg

/-! ### MemWrite -/

/-- MemWrite changes the words and LEN_WORDS alone. -/
theorem memWrite_frame {s t : State} {p n v : Nat} (hp : ParamsLegal s.params)
    (h : memWrite s p n v = .ok t) :
    t = { s with words := t.words, lenWords := t.lenWords } := by
  induction n generalizing s p with
  | zero => cases h; rfl
  | succ n ih =>
    simp only [memWrite] at h
    cases hb : writeBit s p (v.testBit n) with
    | error f => rw [hb] at h; cases h
    | ok s1 =>
      rw [hb] at h
      have h1 := (writeBit_spec hp hb).1
      have h2 := ih (by rw [h1]; exact hp) h
      rw [h1] at h2
      exact h2

theorem memWrite_params {s t : State} {p n v : Nat} (hp : ParamsLegal s.params)
    (h : memWrite s p n v = .ok t) : t.params = s.params := by
  rw [memWrite_frame hp h]

/-- LEN_WORDS after MemWrite: the word of the last bit written is allocated. -/
theorem memWrite_lenWords {s t : State} {p n v : Nat} (hp : ParamsLegal s.params)
    (h : memWrite s p n v = .ok t) :
    t.lenWords.toNat =
      if n = 0 then s.lenWords.toNat else max s.lenWords.toNat (wordOf s.params (p + n - 1) + 1) := by
  induction n generalizing s p with
  | zero => cases h; rfl
  | succ n ih =>
    simp only [memWrite] at h
    cases hb : writeBit s p (v.testBit n) with
    | error f => rw [hb] at h; cases h
    | ok s1 =>
      rw [hb] at h
      have hp1 := writeBit_params hp hb
      have h1 := (writeBit_spec hp hb).2.1
      have h2 := ih (by rw [hp1]; exact hp) h
      rw [hp1] at h2
      rw [if_neg (by omega)]
      by_cases hn : n = 0
      · subst hn
        rw [if_pos rfl] at h2
        rw [h2, h1]
        simp
      · rw [if_neg hn] at h2
        rw [h2, h1, show p + 1 + n - 1 = p + (n + 1) - 1 by omega]
        have : wordOf s.params p ≤ wordOf s.params (p + (n + 1) - 1) :=
          Nat.div_le_div_right (by omega)
        omega

theorem memWrite_lenWords_le {s t : State} {p n v : Nat} (hp : ParamsLegal s.params)
    (h : memWrite s p n v = .ok t) : s.lenWords.toNat ≤ t.lenWords.toNat := by
  rw [memWrite_lenWords hp h]
  split <;> omega

/-- Every bit after MemWrite: the field's bits, zero in newly allocated words, the rest as it was
(40_word_buffer.md R100). -/
theorem memWrite_readBit {s t : State} {p n v : Nat} (hp : ParamsLegal s.params)
    (h : memWrite s p n v = .ok t) (r : Nat) :
    readBit t r = if p ≤ r ∧ r < p + n then .ok (v.testBit (n - 1 - (r - p)))
      else if s.lenWords.toNat ≤ wordOf s.params r ∧ wordOf s.params r < t.lenWords.toNat then .ok false
      else readBit s r := by
  induction n generalizing s p with
  | zero =>
    cases h
    rw [if_neg (by omega), if_neg (by omega)]
  | succ n ih =>
    simp only [memWrite] at h
    cases hb : writeBit s p (v.testBit n) with
    | error f => rw [hb] at h; cases h
    | ok s1 =>
      rw [hb] at h
      have hp1 := writeBit_params hp hb
      have hp1' : ParamsLegal s1.params := by rw [hp1]; exact hp
      have h2 := ih hp1' h
      have hr1 := writeBit_readBit hp hb r
      have hlen := (writeBit_spec hp hb).2.1
      have hle := memWrite_lenWords_le hp1' h
      rw [hp1] at h2
      rw [h2]
      by_cases hr : r = p
      · subst hr
        rw [if_neg (by omega), if_neg (by omega), hr1, if_pos rfl, if_pos (by omega)]
        congr 2
        omega
      · rw [if_neg hr] at hr1
        by_cases hin : p + 1 ≤ r ∧ r < p + 1 + n
        · rw [if_pos hin, if_pos (by omega)]
          congr 2
          omega
        · have hout : ¬ (p ≤ r ∧ r < p + (n + 1)) := by omega
          rw [if_neg hin, if_neg hout]
          by_cases hc : s1.lenWords.toNat ≤ wordOf s.params r ∧ wordOf s.params r < t.lenWords.toNat
          · rw [if_pos hc, if_pos (by omega)]
          · rw [if_neg hc, hr1]
            by_cases hd : s.lenWords.toNat ≤ wordOf s.params r ∧ wordOf s.params r < s1.lenWords.toNat
            · rw [if_pos hd, if_pos (by omega)]
            · rw [if_neg hd, if_neg (by omega)]

/-- A cell outside the field's words that MemWrite does not allocate is untouched. -/
theorem memWrite_get {s t : State} {p n v : Nat} (hp : ParamsLegal s.params)
    (h : memWrite s p n v = .ok t) {q : Nat}
    (hq : q < wordOf s.params p ∨ wordOf s.params (p + n - 1) < q)
    (hl : q < s.lenWords.toNat ∨ t.lenWords.toNat ≤ q) :
    Memory.get t.words q = Memory.get s.words q := by
  induction n generalizing s p with
  | zero => cases h; rfl
  | succ n ih =>
    simp only [memWrite] at h
    cases hb : writeBit s p (v.testBit n) with
    | error f => rw [hb] at h; cases h
    | ok s1 =>
      rw [hb] at h
      have hp1 := writeBit_params hp hb
      have hp1' : ParamsLegal s1.params := by rw [hp1]; exact hp
      obtain ⟨-, hlen, -, x, -, -, hget⟩ := writeBit_spec hp hb
      have hle := memWrite_lenWords_le hp1' h
      have hmono : wordOf s.params p ≤ wordOf s.params (p + 1) := Nat.div_le_div_right (by omega)
      have hmono2 : wordOf s.params p ≤ wordOf s.params (p + (n + 1) - 1) :=
        Nat.div_le_div_right (by omega)
      have hg := hget q
      rw [if_neg (by omega), if_neg (by omega)] at hg
      rw [← hg]
      apply ih hp1' h
      · rw [hp1, show p + 1 + n - 1 = p + (n + 1) - 1 by omega]
        omega
      · omega

/-- The cells MemWrite allocates hold a value, and no cell loses one. -/
theorem memWrite_listed {s t : State} {p n v : Nat} (hp : ParamsLegal s.params)
    (h : memWrite s p n v = .ok t)
    (hl : ∀ q, q < s.lenWords.toNat → (Memory.get s.words q).isSome = true) :
    ∀ q, q < t.lenWords.toNat → (Memory.get t.words q).isSome = true := by
  induction n generalizing s p with
  | zero => cases h; exact hl
  | succ n ih =>
    simp only [memWrite] at h
    cases hb : writeBit s p (v.testBit n) with
    | error f => rw [hb] at h; cases h
    | ok s1 =>
      rw [hb] at h
      have hp1 := writeBit_params hp hb
      obtain ⟨-, hlen, -, x, -, -, hget⟩ := writeBit_spec hp hb
      refine ih (by rw [hp1]; exact hp) h ?_
      intro q hq
      rw [hget q]
      split
      · rfl
      · split
        · rfl
        · exact hl q (by omega)

theorem memWrite_wf {s t : State} {p n v : Nat} (h : memWrite s p n v = .ok t)
    (hw : Memory.wf s.words = true) : Memory.wf t.words = true := by
  induction n generalizing s p with
  | zero => cases h; exact hw
  | succ n ih =>
    simp only [memWrite] at h
    cases hb : writeBit s p (v.testBit n) with
    | error f => rw [hb] at h; cases h
    | ok s1 =>
      rw [hb] at h
      refine ih h ?_
      unfold writeBit at hb
      dsimp only at hb
      split at hb
      · cases hb
        exact Memory.wf_set _ _ (allocate_wf _ _ hw)
      · cases hb

theorem writeBit_within {s t : State} {p : Nat} {v : Bool} (hp : ParamsLegal s.params)
    (hb : writeBit s p v = .ok t) (hl : s.lenWords.toNat ≤ s.params.maxWords)
    (hw : Memory.within s.params.maxWords s.params.w s.words = true) :
    Memory.within s.params.maxWords s.params.w t.words = true := by
  obtain ⟨hw1, hw2, hmax⟩ := hp.bounds
  have hqm := (writeBit_spec hp hb).2.2.1
  unfold writeBit at hb
  dsimp only at hb
  split at hb
  · rename_i x hx
    cases hb
    have hall := allocate_within (width := s.params.w) s
      (wordOf s.params p + 1 - s.lenWords.toNat) (by omega) hmax hw
    refine Memory.within_set _ _ hqm ?_ hall
    exact setWordBit_lt _ (bitOf_lt hw1 p) hw2
      (Memory.within_get _ hall (readWord_eq_ok.1 hx).2).2
  · cases hb

theorem memWrite_within {s t : State} {p n v : Nat} (hp : ParamsLegal s.params)
    (h : memWrite s p n v = .ok t) (hl : s.lenWords.toNat ≤ s.params.maxWords)
    (hw : Memory.within s.params.maxWords s.params.w s.words = true) :
    Memory.within s.params.maxWords s.params.w t.words = true := by
  induction n generalizing s p with
  | zero => cases h; exact hw
  | succ n ih =>
    simp only [memWrite] at h
    cases hb : writeBit s p (v.testBit n) with
    | error f => rw [hb] at h; cases h
    | ok s1 =>
      rw [hb] at h
      have hp1 := writeBit_params hp hb
      have hs := writeBit_spec hp hb
      have := ih (by rw [hp1]; exact hp) h (by rw [hp1]; omega)
        (by rw [hp1]; exact writeBit_within hp hb hl hw)
      rw [hp1] at this
      exact this

/-- MemWrite completes where the field lies in the words that exist and the allocated words hold
values. -/
theorem memWrite_ok {s : State} {p n : Nat} (v : Nat) (hp : ParamsLegal s.params)
    (hc : p + n ≤ capacityBits s.params)
    (hl : ∀ q, q < s.lenWords.toNat → (Memory.get s.words q).isSome = true) :
    ∃ t, memWrite s p n v = .ok t := by
  induction n generalizing s p with
  | zero => exact ⟨s, rfl⟩
  | succ n ih =>
    have hq : wordOf s.params p < s.params.maxWords :=
      div_lt_of_lt_mul (by unfold capacityBits at hc; omega)
    obtain ⟨s1, hb⟩ := writeBit_ok (v.testBit n) hp hq hl
    have hp1 := writeBit_params hp hb
    obtain ⟨-, hlen, -, x, -, -, hget⟩ := writeBit_spec hp hb
    simp only [memWrite]
    rw [hb]
    refine ih (by rw [hp1]; exact hp) (by rw [hp1]; omega) ?_
    intro q hq'
    rw [hget q]
    split
    · rfl
    · split
      · rfl
      · exact hl q (by omega)

/-! ### The written field -/

theorem ceilDiv_eq {a b : Nat} (hb : 1 ≤ b) (ha : 1 ≤ a) : ceilDiv a b = (a - 1) / b + 1 := by
  unfold ceilDiv
  rw [show a + b - 1 = a - 1 + b by omega, Nat.add_div_right _ hb]

/-- MemWrite stores its field: the whole effect on the buffer (40_word_buffer.md R100). -/
theorem memWrite_stored {s t : State} {p n v : Nat} (hp : ParamsLegal s.params) (hn : 1 ≤ n)
    (hv : v < 2 ^ n) (hs : p ≤ s.lenWords.toNat * s.params.w) (h : memWrite s p n v = .ok t) :
    FieldStored s t p n v := by
  obtain ⟨hw1, hw2, hmax⟩ := hp.bounds
  have hb := memWrite_readBit hp h
  have hlen := memWrite_lenWords hp h
  rw [if_neg (by omega)] at hlen
  have hpq : wordOf s.params p ≤ s.lenWords.toNat := by
    unfold wordOf
    calc p / s.params.w ≤ s.lenWords.toNat * s.params.w / s.params.w := Nat.div_le_div_right hs
      _ = s.lenWords.toNat := Nat.mul_div_cancel _ hw1
  refine ⟨⟨?_, hv⟩, ?_, ?_, ?_, ?_⟩
  · intro j hj
    rw [hb, if_pos (by omega)]
    congr 2
    omega
  · intro r hr ho
    have : wordOf s.params r < s.lenWords.toNat := div_lt_of_lt_mul hr
    rw [hb, if_neg (by omega), if_neg (by omega)]
  · intro r hr1 hr2 ho
    have h1 : s.lenWords.toNat ≤ wordOf s.params r := (Nat.le_div_iff_mul_le hw1).2 hr1
    have h2 : wordOf s.params r < t.lenWords.toNat := div_lt_of_lt_mul hr2
    rw [hb, if_neg (by omega), if_pos ⟨h1, h2⟩]
  · intro q hq
    refine memWrite_get hp h hq ?_
    rcases hq with hq | hq
    · exact .inl (Nat.lt_of_lt_of_le hq hpq)
    · have : wordOf s.params (p + n - 1) < q := hq
      omega
  · rw [hlen, ceilDiv_eq hw1 (by omega)]
    rfl

end Sys2Proof.Machine
end

