-- ==== Sys2Proof/Laws/State.lean ====
section
/-! SUPPORT. One lemma per field per update of the state: each is true by unfolding the update once, so
that no later proof unfolds a record update. -/

namespace Sys2Proof.Machine

/-! ### respond -/

@[simp] theorem respond_params (d : Word) (s : State) :
    (respond d s).params = s.params := rfl
@[simp] theorem respond_state (d : Word) (s : State) :
    (respond d s).state = s.state := rfl
@[simp] theorem respond_config (d : Word) (s : State) :
    (respond d s).config = s.config := rfl
@[simp] theorem respond_cursor (d : Word) (s : State) :
    (respond d s).cursor = s.cursor := rfl
@[simp] theorem respond_lenWords (d : Word) (s : State) :
    (respond d s).lenWords = s.lenWords := rfl
@[simp] theorem respond_count (d : Word) (s : State) :
    (respond d s).count = s.count := rfl
@[simp] theorem respond_ovfCount (d : Word) (s : State) :
    (respond d s).ovfCount = s.ovfCount := rfl
@[simp] theorem respond_lastCause (d : Word) (s : State) :
    (respond d s).lastCause = .noError := rfl
@[simp] theorem respond_errSticky (d : Word) (s : State) :
    (respond d s).errSticky = s.errSticky := rfl
@[simp] theorem respond_words (d : Word) (s : State) :
    (respond d s).words = s.words := rfl
@[simp] theorem respond_ovf (d : Word) (s : State) :
    (respond d s).ovf = s.ovf := rfl
@[simp] theorem respond_pending (d : Word) (s : State) :
    (respond d s).pending = s.pending := rfl
@[simp] theorem respond_responses (d : Word) (s : State) :
    (respond d s).responses = { cause := .noError, data := d } :: s.responses := rfl

/-! ### raise -/

@[simp] theorem raise_params (c : Cause) (s : State) :
    (raise c s).params = s.params := rfl
@[simp] theorem raise_state (c : Cause) (s : State) :
    (raise c s).state = stateAfter c s.state := rfl
@[simp] theorem raise_config (c : Cause) (s : State) :
    (raise c s).config = s.config := rfl
@[simp] theorem raise_cursor (c : Cause) (s : State) :
    (raise c s).cursor = s.cursor := rfl
@[simp] theorem raise_lenWords (c : Cause) (s : State) :
    (raise c s).lenWords = s.lenWords := rfl
@[simp] theorem raise_count (c : Cause) (s : State) :
    (raise c s).count = s.count := rfl
@[simp] theorem raise_ovfCount (c : Cause) (s : State) :
    (raise c s).ovfCount = s.ovfCount := rfl
@[simp] theorem raise_lastCause (c : Cause) (s : State) :
    (raise c s).lastCause = c := rfl
@[simp] theorem raise_errSticky (c : Cause) (s : State) :
    (raise c s).errSticky = stickyAfter c s.errSticky := rfl
@[simp] theorem raise_words (c : Cause) (s : State) :
    (raise c s).words = s.words := rfl
@[simp] theorem raise_ovf (c : Cause) (s : State) :
    (raise c s).ovf = s.ovf := rfl
@[simp] theorem raise_pending (c : Cause) (s : State) :
    (raise c s).pending = s.pending := rfl
@[simp] theorem raise_responses (c : Cause) (s : State) :
    (raise c s).responses = { cause := c, data := 0#64 } :: s.responses := rfl

/-! ### ovfAppend -/

@[simp] theorem ovfAppend_params (s : State) (e : Word) :
    (ovfAppend s e).params = s.params := rfl
@[simp] theorem ovfAppend_state (s : State) (e : Word) :
    (ovfAppend s e).state = s.state := rfl
@[simp] theorem ovfAppend_config (s : State) (e : Word) :
    (ovfAppend s e).config = s.config := rfl
@[simp] theorem ovfAppend_cursor (s : State) (e : Word) :
    (ovfAppend s e).cursor = s.cursor := rfl
@[simp] theorem ovfAppend_lenWords (s : State) (e : Word) :
    (ovfAppend s e).lenWords = s.lenWords := rfl
@[simp] theorem ovfAppend_count (s : State) (e : Word) :
    (ovfAppend s e).count = s.count := rfl
@[simp] theorem ovfAppend_ovfCount (s : State) (e : Word) :
    (ovfAppend s e).ovfCount = s.ovfCount + 1#64 := rfl
@[simp] theorem ovfAppend_lastCause (s : State) (e : Word) :
    (ovfAppend s e).lastCause = s.lastCause := rfl
@[simp] theorem ovfAppend_errSticky (s : State) (e : Word) :
    (ovfAppend s e).errSticky = s.errSticky := rfl
@[simp] theorem ovfAppend_words (s : State) (e : Word) :
    (ovfAppend s e).words = s.words := rfl
@[simp] theorem ovfAppend_ovf (s : State) (e : Word) :
    (ovfAppend s e).ovf = Memory.set s.ovf s.ovfCount.toNat e := rfl
@[simp] theorem ovfAppend_pending (s : State) (e : Word) :
    (ovfAppend s e).pending = s.pending := rfl
@[simp] theorem ovfAppend_responses (s : State) (e : Word) :
    (ovfAppend s e).responses = s.responses := rfl

/-! ### openSession -/

@[simp] theorem openSession_params (c : ConfigReg) (s : State) :
    (openSession c s).params = s.params := rfl
@[simp] theorem openSession_state (c : ConfigReg) (s : State) :
    (openSession c s).state = .packing := rfl
@[simp] theorem openSession_config (c : ConfigReg) (s : State) :
    (openSession c s).config = c := rfl
@[simp] theorem openSession_cursor (c : ConfigReg) (s : State) :
    (openSession c s).cursor = 0#64 := rfl
@[simp] theorem openSession_lenWords (c : ConfigReg) (s : State) :
    (openSession c s).lenWords = 0#64 := rfl
@[simp] theorem openSession_count (c : ConfigReg) (s : State) :
    (openSession c s).count = 0#64 := rfl
@[simp] theorem openSession_ovfCount (c : ConfigReg) (s : State) :
    (openSession c s).ovfCount = 0#64 := rfl
@[simp] theorem openSession_lastCause (c : ConfigReg) (s : State) :
    (openSession c s).lastCause = s.lastCause := rfl
@[simp] theorem openSession_errSticky (c : ConfigReg) (s : State) :
    (openSession c s).errSticky = s.errSticky := rfl
@[simp] theorem openSession_words (c : ConfigReg) (s : State) :
    (openSession c s).words = s.words := rfl
@[simp] theorem openSession_ovf (c : ConfigReg) (s : State) :
    (openSession c s).ovf = s.ovf := rfl
@[simp] theorem openSession_pending (c : ConfigReg) (s : State) :
    (openSession c s).pending = s.pending := rfl
@[simp] theorem openSession_responses (c : ConfigReg) (s : State) :
    (openSession c s).responses = s.responses := rfl

/-! ### resetBlock -/

@[simp] theorem resetBlock_params (s : State) :
    (resetBlock s).params = s.params := rfl
@[simp] theorem resetBlock_state (s : State) :
    (resetBlock s).state = .empty := rfl
@[simp] theorem resetBlock_config (s : State) :
    (resetBlock s).config = ConfigReg.zero := rfl
@[simp] theorem resetBlock_cursor (s : State) :
    (resetBlock s).cursor = 0#64 := rfl
@[simp] theorem resetBlock_lenWords (s : State) :
    (resetBlock s).lenWords = 0#64 := rfl
@[simp] theorem resetBlock_count (s : State) :
    (resetBlock s).count = 0#64 := rfl
@[simp] theorem resetBlock_ovfCount (s : State) :
    (resetBlock s).ovfCount = 0#64 := rfl
@[simp] theorem resetBlock_lastCause (s : State) :
    (resetBlock s).lastCause = .noError := rfl
@[simp] theorem resetBlock_errSticky (s : State) :
    (resetBlock s).errSticky = 0#8 := rfl
@[simp] theorem resetBlock_words (s : State) :
    (resetBlock s).words = [] := rfl
@[simp] theorem resetBlock_ovf (s : State) :
    (resetBlock s).ovf = [] := rfl
@[simp] theorem resetBlock_pending (s : State) :
    (resetBlock s).pending = s.pending := rfl
@[simp] theorem resetBlock_responses (s : State) :
    (resetBlock s).responses = s.responses := rfl

/-! ### State.withFetchWord -/

@[simp] theorem State.withFetchWord_params (s : State) (nbits w : Nat) :
    (s.withFetchWord nbits w).params = s.params := rfl
@[simp] theorem State.withFetchWord_state (s : State) (nbits w : Nat) :
    (s.withFetchWord nbits w).state = s.state := rfl
@[simp] theorem State.withFetchWord_config (s : State) (nbits w : Nat) :
    (s.withFetchWord nbits w).config = s.config := rfl
@[simp] theorem State.withFetchWord_cursor (s : State) (nbits w : Nat) :
    (s.withFetchWord nbits w).cursor = s.cursor := rfl
@[simp] theorem State.withFetchWord_lenWords (s : State) (nbits w : Nat) :
    (s.withFetchWord nbits w).lenWords = s.lenWords := rfl
@[simp] theorem State.withFetchWord_count (s : State) (nbits w : Nat) :
    (s.withFetchWord nbits w).count = s.count := rfl
@[simp] theorem State.withFetchWord_ovfCount (s : State) (nbits w : Nat) :
    (s.withFetchWord nbits w).ovfCount = s.ovfCount := rfl
@[simp] theorem State.withFetchWord_lastCause (s : State) (nbits w : Nat) :
    (s.withFetchWord nbits w).lastCause = s.lastCause := rfl
@[simp] theorem State.withFetchWord_errSticky (s : State) (nbits w : Nat) :
    (s.withFetchWord nbits w).errSticky = s.errSticky := rfl
@[simp] theorem State.withFetchWord_words (s : State) (nbits w : Nat) :
    (s.withFetchWord nbits w).words = s.words := rfl
@[simp] theorem State.withFetchWord_ovf (s : State) (nbits w : Nat) :
    (s.withFetchWord nbits w).ovf = s.ovf := rfl
@[simp] theorem State.withFetchWord_pending (s : State) (nbits w : Nat) :
    (s.withFetchWord nbits w).pending = .command (tableHeader nbits w) (tableArg nbits w) :: s.pending := rfl
@[simp] theorem State.withFetchWord_responses (s : State) (nbits w : Nat) :
    (s.withFetchWord nbits w).responses = s.responses := rfl

end Sys2Proof.Machine
end

