-- ==== Sys2Proof/Laws/Exec.lean ====
section
/-! SUPPORT. What each shared operation and each meaning can do, said once: if it answers a next state,
then one of the listed cases holds. Proofs cite these and never unfold a meaning. -/

namespace Sys2Proof.Machine

/-! ### The end of a command -/

theorem stickyAfter_getLsbD (c : Cause) (e : BitVec 8) {b : Nat} (hb : b < 8) :
    (stickyAfter c e).getLsbD b =
      (decide (b ≠ 0) && (e.getLsbD b || decide (b = (causeCode c).toNat))) := by
  have hmask : stickyMask.getLsbD b = decide (b ≠ 0) := by
    interval_cases b <;> decide
  have hbit : (1#8 <<< (causeCode c).toNat).getLsbD b = decide (b = (causeCode c).toNat) := by
    interval_cases b <;> cases c <;> decide
  unfold stickyAfter
  rw [BitVec.getLsbD_and, BitVec.getLsbD_or, hmask, hbit, Bool.and_comm]

/-- The hardwired bit 0 of ERR_STICKY reads 0 after every raise (10_state.md R33). -/
theorem stickyAfter_zero (c : Cause) (e : BitVec 8) : (stickyAfter c e).getLsbD 0 = false := by
  rw [stickyAfter_getLsbD c e (by omega)]
  rfl

theorem stateAfter_eq (c : Cause) (st : SessionState) : stateAfter c st = abortedBy c st := by
  cases c <;> rfl

/-- `raise c` has exactly the effects of 60_exceptions.md R253 and R255 to R257. -/
theorem raise_raised (c : Cause) (s : State) : Raised c s (raise c s) :=
  ⟨by unfold raise; rw [stateAfter_eq], fun _ hb => stickyAfter_getLsbD c s.errSticky hb⟩

/-- An instruction whose meaning answers `raise c s` raises c. -/
theorem Raises.of_eq {i : Instr} {s : State} {c : Cause} (h : exec i s = .next (raise c s)) :
    Raises i s c := ⟨_, h, raise_raised c s⟩

/-- Two states that `s` goes to by raising c are one. -/
theorem Raised.unique {c : Cause} {s t u : State} (ht : Raised c s t) (hu : Raised c s u) : t = u := by
  have he : t.errSticky = u.errSticky := by
    apply BitVec.eq_of_getLsbD_eq
    intro b hb
    rw [ht.sticky b hb, hu.sticky b hb]
  rw [ht.frame, hu.frame, he]

/-! ### Writing a field -/

theorem putField_cases {s t : State} {p n v : Nat} (h : putField s p n v = .ok t) :
    ∃ s1, memWrite s p n v = .ok s1 ∧ t = { s1 with cursor := BitVec.ofNat 64 (p + n) } := by
  unfold putField at h
  split at h
  · rename_i s1 h1
    cases h
    exact ⟨s1, h1, rfl⟩
  · cases h

/-- Writing a field changes the words, LEN_WORDS and CURSOR alone. -/
theorem putField_frame {s t : State} {p n v : Nat} (hp : ParamsLegal s.params)
    (h : putField s p n v = .ok t) :
    t = { s with words := t.words, lenWords := t.lenWords, cursor := BitVec.ofNat 64 (p + n) } := by
  obtain ⟨s1, h1, rfl⟩ := putField_cases h
  have := memWrite_frame hp h1
  conv_lhs => rw [this]

theorem putField_ok {s : State} {p n : Nat} (v : Nat) (hp : ParamsLegal s.params)
    (hc : p + n ≤ capacityBits s.params)
    (hl : ∀ q, q < s.lenWords.toNat → (Memory.get s.words q).isSome = true) :
    ∃ t, putField s p n v = .ok t := by
  obtain ⟨s1, h1⟩ := memWrite_ok v hp hc hl
  exact ⟨_, by unfold putField; rw [h1]⟩

/-- A bit reads the same in a state that differs from another outside the parameters and the words. -/
theorem readBit_eq_of {s t : State} (hp : t.params = s.params) (hw : t.words = s.words) (p : Nat) :
    readBit t p = readBit s p :=
  readBit_congr hp (by rw [hw])

/-- Storing a field is a matter of the parameters, the words and LEN_WORDS of the two states. -/
theorem FieldStored.congr {s s' t t' : State} {p n v : Nat} (h : FieldStored s t p n v)
    (hs : s'.params = s.params ∧ s'.words = s.words ∧ s'.lenWords = s.lenWords)
    (ht : t'.params = t.params ∧ t'.words = t.words ∧ t'.lenWords = t.lenWords) :
    FieldStored s' t' p n v := by
  obtain ⟨hs1, hs2, hs3⟩ := hs
  obtain ⟨ht1, ht2, ht3⟩ := ht
  have rs := readBit_eq_of hs1 hs2
  have rt := readBit_eq_of ht1 ht2
  refine ⟨h.field.congr (fun j _ => rt _), ?_, ?_, ?_, ?_⟩
  · intro p hp ho
    rw [rs, rt]
    exact h.kept p (by rw [← hs1, ← hs3]; exact hp) ho
  · intro p hp1 hp2 ho
    rw [rt]
    exact h.fill p (by rw [← hs1, ← hs3]; exact hp1) (by rw [← hs1, ← ht3]; exact hp2) ho
  · intro q hq
    rw [hs2, ht2]
    exact h.others q (by rw [← hs1]; exact hq)
  · rw [hs3, ht3, hs1]
    exact h.length

/-- Writing a field stores it. -/
theorem putField_stored {s t : State} {p n v : Nat} (hp : ParamsLegal s.params) (hn : 1 ≤ n)
    (hv : v < 2 ^ n) (hs : p ≤ s.lenWords.toNat * s.params.w) (h : putField s p n v = .ok t) :
    FieldStored s t p n v := by
  obtain ⟨s1, h1, rfl⟩ := putField_cases h
  exact (memWrite_stored hp hn hv hs h1).congr ⟨rfl, rfl, rfl⟩ ⟨rfl, rfl, rfl⟩

/-! ### Legality -/

theorem legal_beginSession {width ksmall : BitVec 7} {variant : BitVec 2}
    {signed ovfEn ovfMode : Bool} {s : State} :
    legal (.beginSession width ksmall variant signed ovfEn ovfMode) s = true ↔
      s.state ≠ .faulted := by
  simp [legal]

theorem legal_writeBits {width : BitVec 7} {a : Word} {s : State} :
    legal (.writeBits width a) s = true ↔ s.state = .packing ∧ s.config.variant = .raw := by
  simp [legal]

theorem legal_readBits {width : BitVec 7} {a : Word} {s : State} :
    legal (.readBits width a) s = true ↔
      s.state = .empty ∨ s.state = .packing ∨ s.state = .sealed := by
  simp [legal, or_assoc]

theorem legal_packCons {a : Word} {s : State} :
    legal (.packCons a) s = true ↔
      s.state = .packing ∧ s.config.variant = .cons ∧ s.config.ovfEn = false := by
  simp [legal, and_assoc]

theorem legal_packNcons {a : Word} {s : State} :
    legal (.packNcons a) s = true ↔
      s.state = .packing ∧ s.config.variant = .ncons ∧ s.config.ovfEn = false := by
  simp [legal, and_assoc]

theorem legal_packOvf {a : Word} {s : State} :
    legal (.packOvf a) s = true ↔
      s.state = .packing ∧ s.config.variant ≠ .raw ∧ s.config.ovfEn = true := by
  simp [legal, and_assoc]

theorem legal_endSession {s : State} : legal .endSession s = true ↔ s.state = .packing := by
  simp [legal]

theorem legal_unpackCons {a : Word} {s : State} :
    legal (.unpackCons a) s = true ↔
      s.state = .sealed ∧ s.config.variant = .cons ∧ s.config.ovfEn = false := by
  simp [legal, and_assoc]

theorem legal_unpackNcons {a : Word} {s : State} :
    legal (.unpackNcons a) s = true ↔
      s.state = .sealed ∧ s.config.variant = .ncons ∧ s.config.ovfEn = false := by
  simp [legal, and_assoc]

theorem legal_unpackOvf {a : Word} {s : State} :
    legal (.unpackOvf a) s = true ↔
      s.state = .sealed ∧ s.config.variant ≠ .raw ∧ s.config.ovfEn = true := by
  simp [legal, and_assoc]

theorem legal_rdreg {r : BitVec 4} {s : State} : legal (.rdreg r) s = true := rfl

/-! ### The meanings -/

theorem execBegin_cases {width ksmall : BitVec 7} {variant : BitVec 2} {signed ovfEn ovfMode : Bool}
    {s t : State} (h : execBegin width ksmall variant signed ovfEn ovfMode s = .next t) :
    (s.state = .faulted ∧ t = raise .stateError s) ∨
    (s.state ≠ .faulted ∧ configOf s.params width ksmall variant signed ovfEn ovfMode = none ∧
      t = raise .configurationError s) ∨
    (∃ c, s.state ≠ .faulted ∧
      configOf s.params width ksmall variant signed ovfEn ovfMode = some c ∧
      t = respond 0#64 (openSession c s)) := by
  unfold execBegin at h
  split at h
  · rename_i hl
    cases h
    refine .inl ⟨?_, rfl⟩
    by_contra hf
    simp [legal_beginSession.2 hf] at hl
  · rename_i hl
    have hl : s.state ≠ .faulted := legal_beginSession.1 (by simpa using hl)
    split at h <;> rename_i hc <;> cases h
    · exact .inr (.inl ⟨hl, hc, rfl⟩)
    · exact .inr (.inr ⟨_, hl, hc, rfl⟩)

theorem execWriteBits_cases {width : BitVec 7} {a : Word} {s t : State}
    (h : execWriteBits width a s = .next t) :
    (legal (.writeBits width a) s = false ∧ t = raise .stateError s) ∨
    (legal (.writeBits width a) s = true ∧ widthLegal s width = false ∧
      t = raise .configurationError s) ∨
    (legal (.writeBits width a) s = true ∧ widthLegal s width = true ∧
      s.cursor.toNat + width.toNat > capacityBits s.params ∧ t = raise .capacityError s) ∨
    (∃ s1, legal (.writeBits width a) s = true ∧ widthLegal s width = true ∧
      s.cursor.toNat + width.toNat ≤ capacityBits s.params ∧
      putField s s.cursor.toNat width.toNat (valueOperand width a) = .ok s1 ∧
      t = respond 0#64 s1) := by
  unfold execWriteBits at h
  split at h
  · rename_i hl
    cases h
    exact .inl ⟨by simpa using hl, rfl⟩
  · rename_i hl
    have hl : legal (.writeBits width a) s = true := by simpa using hl
    split at h
    · rename_i hw
      cases h
      exact .inr (.inl ⟨hl, by simpa using hw, rfl⟩)
    · rename_i hw
      have hw : widthLegal s width = true := by simpa using hw
      split at h
      · rename_i hc
        cases h
        exact .inr (.inr (.inl ⟨hl, hw, hc, rfl⟩))
      · rename_i hc
        split at h <;> rename_i hm <;> cases h
        exact .inr (.inr (.inr ⟨_, hl, hw, Nat.le_of_not_lt hc, hm, rfl⟩))

theorem execReadBits_cases {width : BitVec 7} {a : Word} {s t : State}
    (h : execReadBits width a s = .next t) :
    (legal (.readBits width a) s = false ∧ t = raise .stateError s) ∨
    (legal (.readBits width a) s = true ∧ widthLegal s width = false ∧
      t = raise .configurationError s) ∨
    (legal (.readBits width a) s = true ∧ widthLegal s width = true ∧
      offsetOperand a + width.toNat > s.cursor.toNat ∧ t = raise .indexError s) ∨
    (∃ u, legal (.readBits width a) s = true ∧ widthLegal s width = true ∧
      offsetOperand a + width.toNat ≤ s.cursor.toNat ∧
      memRead s (offsetOperand a) width.toNat = .ok u ∧ t = respond (fieldData u) s) := by
  unfold execReadBits at h
  split at h
  · rename_i hl
    cases h
    exact .inl ⟨by simpa using hl, rfl⟩
  · rename_i hl
    have hl : legal (.readBits width a) s = true := by simpa using hl
    split at h
    · rename_i hw
      cases h
      exact .inr (.inl ⟨hl, by simpa using hw, rfl⟩)
    · rename_i hw
      have hw : widthLegal s width = true := by simpa using hw
      split at h
      · rename_i hc
        cases h
        exact .inr (.inr (.inl ⟨hl, hw, hc, rfl⟩))
      · rename_i hc
        split at h <;> rename_i hm <;> cases h
        exact .inr (.inr (.inr ⟨_, hl, hw, Nat.le_of_not_lt hc, hm, rfl⟩))

/-- What appending an element as a K-bit field can do. -/
theorem packAt_cases {s t : State} {start : Nat} {x : Int} (h : packAt s start x = .next t) :
    (fits s.config.signed x s.config.k.toNat = false ∧ t = raise .rangeError s) ∨
    (fits s.config.signed x s.config.k.toNat = true ∧
      start + s.config.k.toNat > capacityBits s.params ∧ t = raise .capacityError s) ∨
    (∃ s1, fits s.config.signed x s.config.k.toNat = true ∧
      start + s.config.k.toNat ≤ capacityBits s.params ∧
      putField s start s.config.k.toNat (fieldOf s.config.signed x s.config.k.toNat) = .ok s1 ∧
      t = respond 0#64 { s1 with count := s1.count + 1#64 }) := by
  unfold packAt at h
  split at h
  · rename_i hf
    cases h
    exact .inl ⟨by simpa using hf, rfl⟩
  · rename_i hf
    have hf : fits s.config.signed x s.config.k.toNat = true := by simpa using hf
    split at h
    · rename_i hc
      cases h
      exact .inr (.inl ⟨hf, hc, rfl⟩)
    · rename_i hc
      split at h <;> rename_i hm <;> cases h
      exact .inr (.inr ⟨_, hf, Nat.le_of_not_lt hc, hm, rfl⟩)

/-- What reading element i as a K-bit field can do. -/
theorem unpackAt_cases {s t : State} {i start : Nat} (h : unpackAt s i start = .next t) :
    (i ≥ s.count.toNat ∧ t = raise .indexError s) ∨
    (i < s.count.toNat ∧ start + s.config.k.toNat > s.cursor.toNat ∧
      t = raise .consistencyError s) ∨
    (∃ u, i < s.count.toNat ∧ start + s.config.k.toNat ≤ s.cursor.toNat ∧
      memRead s start s.config.k.toNat = .ok u ∧
      t = respond (elementData (elementOf s.config.signed u s.config.k.toNat)) s) := by
  unfold unpackAt at h
  split at h
  · rename_i hi
    cases h
    exact .inl ⟨hi, rfl⟩
  · rename_i hi
    split at h
    · rename_i hc
      cases h
      exact .inr (.inl ⟨Nat.lt_of_not_le hi, hc, rfl⟩)
    · rename_i hc
      split at h <;> rename_i hm <;> cases h
      exact .inr (.inr ⟨_, Nat.lt_of_not_le hi, Nat.le_of_not_lt hc, hm, rfl⟩)

theorem execPackCons_cases {a : Word} {s t : State} (h : execPackCons a s = .next t) :
    (legal (.packCons a) s = false ∧ t = raise .stateError s) ∨
    (legal (.packCons a) s = true ∧
      packAt s s.cursor.toNat (elementOperand s.params a) = .next t) := by
  unfold execPackCons at h
  split at h <;> rename_i hl
  · cases h
    exact .inl ⟨by simpa using hl, rfl⟩
  · exact .inr ⟨by simpa using hl, h⟩

theorem execPackNcons_cases {a : Word} {s t : State} (h : execPackNcons a s = .next t) :
    (legal (.packNcons a) s = false ∧ t = raise .stateError s) ∨
    (legal (.packNcons a) s = true ∧
      packAt s (nextStart s s.config.k.toNat) (elementOperand s.params a) = .next t) := by
  unfold execPackNcons at h
  split at h <;> rename_i hl
  · cases h
    exact .inl ⟨by simpa using hl, rfl⟩
  · exact .inr ⟨by simpa using hl, h⟩

theorem execUnpackCons_cases {a : Word} {s t : State} (h : execUnpackCons a s = .next t) :
    (legal (.unpackCons a) s = false ∧ t = raise .stateError s) ∨
    (legal (.unpackCons a) s = true ∧
      unpackAt s (indexOperand a) (indexOperand a * s.config.k.toNat) = .next t) := by
  unfold execUnpackCons at h
  split at h <;> rename_i hl
  · cases h
    exact .inl ⟨by simpa using hl, rfl⟩
  · exact .inr ⟨by simpa using hl, h⟩

theorem execUnpackNcons_cases {a : Word} {s t : State} (h : execUnpackNcons a s = .next t) :
    (legal (.unpackNcons a) s = false ∧ t = raise .stateError s) ∨
    (legal (.unpackNcons a) s = true ∧
      unpackAt s (indexOperand a) (fieldAddrNC s.params.w (indexOperand a) s.config.k.toNat)
        = .next t) := by
  unfold execUnpackNcons at h
  split at h <;> rename_i hl
  · cases h
    exact .inl ⟨by simpa using hl, rfl⟩
  · exact .inr ⟨by simpa using hl, h⟩

theorem packFitting_cases {s t : State} {x : Int} (h : packFitting s x = .next t) :
    ∃ s1, putField s (primStart s) (kpOf s) (fieldOf s.config.signed x (ksOf s)) = .ok s1 ∧
      t = respond 0#64 { s1 with count := s1.count + 1#64 } := by
  unfold packFitting at h
  split at h <;> rename_i hm <;> cases h
  exact ⟨_, hm, rfl⟩

theorem packOverflowing_cases {s t : State} {x : Int} (h : packOverflowing s x = .next t) :
    (s.ovfCount.toNat ≥ s.params.maxOvf ∧ t = raise .capacityError s) ∨
    (s.ovfCount.toNat < s.params.maxOvf ∧ overflowPayload s > 2 ^ ksOf s - 1 ∧
      t = raise .capacityError s) ∨
    (∃ s1, s.ovfCount.toNat < s.params.maxOvf ∧ overflowPayload s ≤ 2 ^ ksOf s - 1 ∧
      putField s (primStart s) (kpOf s) (2 ^ ksOf s + overflowPayload s) = .ok s1 ∧
      t = respond 0#64
        { ovfAppend s1 (BitVec.ofNat 64 (pat s.params.nativeW x)) with
          count := s1.count + 1#64 }) := by
  unfold packOverflowing at h
  split at h
  · rename_i hc
    cases h
    exact .inl ⟨hc, rfl⟩
  · rename_i hc
    split at h
    · rename_i hp
      cases h
      exact .inr (.inl ⟨Nat.lt_of_not_le hc, hp, rfl⟩)
    · rename_i hp
      split at h <;> rename_i hm <;> cases h
      exact .inr (.inr ⟨_, Nat.lt_of_not_le hc, Nat.le_of_not_lt hp, hm, rfl⟩)

theorem execPackOvf_cases {a : Word} {s t : State} (h : execPackOvf a s = .next t) :
    (legal (.packOvf a) s = false ∧ t = raise .stateError s) ∨
    (legal (.packOvf a) s = true ∧ primStart s + kpOf s > capacityBits s.params ∧
      t = raise .capacityError s) ∨
    (legal (.packOvf a) s = true ∧ primStart s + kpOf s ≤ capacityBits s.params ∧
      fits s.config.signed (elementOperand s.params a) (ksOf s) = true ∧
      packFitting s (elementOperand s.params a) = .next t) ∨
    (legal (.packOvf a) s = true ∧ primStart s + kpOf s ≤ capacityBits s.params ∧
      fits s.config.signed (elementOperand s.params a) (ksOf s) = false ∧
      packOverflowing s (elementOperand s.params a) = .next t) := by
  unfold execPackOvf at h
  split at h
  · rename_i hl
    cases h
    exact .inl ⟨by simpa using hl, rfl⟩
  · rename_i hl
    have hl : legal (.packOvf a) s = true := by simpa using hl
    split at h
    · rename_i hc
      cases h
      exact .inr (.inl ⟨hl, hc, rfl⟩)
    · rename_i hc
      split at h <;> rename_i hf
      · exact .inr (.inr (.inl ⟨hl, Nat.le_of_not_lt hc, hf, h⟩))
      · exact .inr (.inr (.inr ⟨hl, Nat.le_of_not_lt hc, by simpa using hf, h⟩))

theorem unpackEntry_cases {s t : State} {j : Nat} (h : unpackEntry s j = .next t) :
    (j ≥ s.ovfCount.toNat ∧ t = raise .consistencyError s) ∨
    (∃ e, j < s.ovfCount.toNat ∧ ovfRead s j = .ok e ∧
      t = respond (elementData (sext s.params.nativeW e.toNat)) s) := by
  unfold unpackEntry at h
  split at h
  · rename_i hj
    cases h
    exact .inl ⟨hj, rfl⟩
  · rename_i hj
    split at h <;> rename_i he <;> cases h
    exact .inr ⟨_, Nat.lt_of_not_le hj, he, rfl⟩

theorem unpackPrimary_cases {s t : State} {i f : Nat} (h : unpackPrimary s i f = .next t) :
    (f.testBit (ksOf s) = false ∧
      t = respond (elementData (elementOf s.config.signed (f % 2 ^ ksOf s) (ksOf s))) s) ∨
    (∃ j, f.testBit (ksOf s) = true ∧ overflowPosition s i (f % 2 ^ ksOf s) = .ok j ∧
      unpackEntry s j = .next t) := by
  unfold unpackPrimary at h
  split at h
  · rename_i hf
    split at h
    · rename_i j hj
      exact .inr ⟨j, hf, hj, h⟩
    · cases h
  · rename_i hf
    cases h
    exact .inl ⟨by simpa using hf, rfl⟩

theorem execUnpackOvf_cases {a : Word} {s t : State} (h : execUnpackOvf a s = .next t) :
    (legal (.unpackOvf a) s = false ∧ t = raise .stateError s) ∨
    (legal (.unpackOvf a) s = true ∧ indexOperand a ≥ s.count.toNat ∧ t = raise .indexError s) ∨
    (legal (.unpackOvf a) s = true ∧ indexOperand a < s.count.toNat ∧
      primAddr s (indexOperand a) + kpOf s > s.cursor.toNat ∧ t = raise .consistencyError s) ∨
    (∃ f, legal (.unpackOvf a) s = true ∧ indexOperand a < s.count.toNat ∧
      primAddr s (indexOperand a) + kpOf s ≤ s.cursor.toNat ∧
      memRead s (primAddr s (indexOperand a)) (kpOf s) = .ok f ∧
      unpackPrimary s (indexOperand a) f = .next t) := by
  unfold execUnpackOvf at h
  split at h
  · rename_i hl
    cases h
    exact .inl ⟨by simpa using hl, rfl⟩
  · rename_i hl
    have hl : legal (.unpackOvf a) s = true := by simpa using hl
    split at h
    · rename_i hi
      cases h
      exact .inr (.inl ⟨hl, hi, rfl⟩)
    · rename_i hi
      split at h
      · rename_i hc
        cases h
        exact .inr (.inr (.inl ⟨hl, Nat.lt_of_not_le hi, hc, rfl⟩))
      · rename_i hc
        split at h
        · rename_i f hf
          exact .inr (.inr (.inr ⟨f, hl, Nat.lt_of_not_le hi, Nat.le_of_not_lt hc, hf, h⟩))
        · cases h

theorem execEnd_cases {s t : State} (h : execEnd s = .next t) :
    (s.state ≠ .packing ∧ t = raise .stateError s) ∨
    (s.state = .packing ∧ t = respond 0#64 { s with state := .sealed }) := by
  unfold execEnd at h
  split at h <;> rename_i hl <;> cases h
  · refine .inl ⟨fun hf => ?_, rfl⟩
    simp [legal_endSession.2 hf] at hl
  · exact .inr ⟨legal_endSession.1 (by simpa using hl), rfl⟩

theorem execRdreg_cases {r : BitVec 4} {s t : State} (h : execRdreg r s = .next t) :
    (readReg s r = none ∧ t = raise .illegalCommand s) ∨
    (∃ d, readReg s r = some d ∧ t = respond d s) := by
  unfold execRdreg at h
  split at h <;> rename_i hd <;> cases h
  · exact .inr ⟨_, hd, rfl⟩
  · exact .inl ⟨hd, rfl⟩

/-! ### One step -/

/-- What one step can do. -/
theorem step_cases {s t : State} (h : step s = .next t) :
    ParamsLegal s.params ∧
    ((s.pending = [] ∧ t = s) ∨
     (∃ rest, s.pending = .reset :: rest ∧ t = resetBlock { s with pending := rest }) ∨
     (∃ c a e rest, s.pending = .command c a :: rest ∧ decode c a = .error e ∧
        t = raise .illegalCommand { s with pending := rest }) ∨
     (∃ c a i rest, s.pending = .command c a :: rest ∧ decode c a = .ok i ∧
        exec i { s with pending := rest } = .next t)) := by
  unfold step at h
  split at h
  · rename_i hp
    refine ⟨hp, ?_⟩
    unfold takeAction at h
    cases hpend : s.pending with
    | nil =>
      rw [hpend] at h
      cases h
      exact .inl ⟨rfl, rfl⟩
    | cons act rest =>
      rw [hpend] at h
      cases act with
      | reset =>
        cases h
        exact .inr (.inl ⟨rest, rfl, rfl⟩)
      | command c a =>
        dsimp only at h
        unfold runCommand at h
        cases hd : decode c a with
        | error e =>
          rw [hd] at h
          cases h
          exact .inr (.inr (.inl ⟨c, a, e, rest, rfl, hd, rfl⟩))
        | ok i =>
          rw [hd] at h
          exact .inr (.inr (.inr ⟨c, a, i, rest, rfl, hd, h⟩))
  · cases h

end Sys2Proof.Machine
end

