-- ==== Sys2Proof/Laws/PerInstr.lean ====
section
/-! SUPPORT. Facts about every instruction as syntax, one lemma per constructor: the header an instruction
is encoded to carries its own opcode and sets none of the bits its opcode fixes otherwise
(30_encoding.md R73, R74). -/

namespace Sys2Proof

/-- The opcode of an instruction. -/
def opcodeOfInstr : Instr → Opcode
  | .beginSession _ _ _ _ _ _ => .begin_
  | .writeBits _ _ => .writeBits
  | .readBits _ _ => .readBits
  | .packCons _ => .packCons
  | .packNcons _ => .packNcons
  | .packOvf _ => .packOvf
  | .endSession => .end_
  | .unpackCons _ => .unpackCons
  | .unpackNcons _ => .unpackNcons
  | .unpackOvf _ => .unpackOvf
  | .rdreg _ => .rdreg

namespace Laws

theorem width_disjoint (w : BitVec 7) :
    (w.zeroExtend 32 <<< 21) &&& Opcode.begin_.mask = 0#32 ∧
    (w.zeroExtend 32 <<< 21) &&& Opcode.writeBits.mask = 0#32 ∧
    (w.zeroExtend 32 <<< 21) &&& Opcode.readBits.mask = 0#32 := by
  revert w; decide

theorem ksmall_disjoint (w : BitVec 7) :
    (w.zeroExtend 32 <<< 14) &&& Opcode.begin_.mask = 0#32 := by
  revert w; decide

theorem variant_disjoint (v : BitVec 2) :
    (v.zeroExtend 32 <<< 12) &&& Opcode.begin_.mask = 0#32 := by
  revert v; decide

theorem flags_disjoint (a b c : Bool) :
    bitAt 11 a &&& Opcode.begin_.mask = 0#32 ∧ bitAt 10 b &&& Opcode.begin_.mask = 0#32 ∧
    bitAt 9 c &&& Opcode.begin_.mask = 0#32 := by
  revert a b c; decide

theorem reg_disjoint (r : BitVec 4) :
    (r.zeroExtend 32 <<< 5) &&& Opcode.rdreg.mask = 0#32 := by
  revert r; decide

theorem fixed_and_mask (o : Opcode) : o.fixed &&& o.mask = o.fixed := by
  cases o <;> decide

theorem opcodeOf_fixed (o : Opcode) : opcodeOf (opcField o.fixed) = some o := by
  cases o <;> decide

/-- A header's opcode field, read from its four top bits. -/
theorem opcField_of_and {h : Header} {o : Opcode} (hm : h &&& o.mask = o.fixed) :
    opcField h = opcField o.fixed := by
  have e : opcField (h &&& o.mask) = opcField h &&& opcField o.mask := by
    unfold opcField
    apply BitVec.eq_of_getLsbD_eq
    intro i hi
    simp [hi]
  rw [← hm, e]
  have all : opcField o.mask = 0xF#4 := by cases o <;> decide
  rw [all]
  exact (BitVec.and_allOnes).symm

namespace EncodeMatchesTable

/-- The encoded header has the fixed bits of its own opcode (30_encoding.md R74) and its opcode field
(R73). -/
def Statement (i : Instr) : Prop :=
  encodeHeader i &&& (opcodeOfInstr i).mask = (opcodeOfInstr i).fixed ∧
  opcodeOf (opcField (encodeHeader i)) = some (opcodeOfInstr i)

theorem of_and {i : Instr} (h : encodeHeader i &&& (opcodeOfInstr i).mask = (opcodeOfInstr i).fixed) :
    Statement i := by
  refine ⟨h, ?_⟩
  rw [opcField_of_and h]
  exact opcodeOf_fixed _

theorem beginSession (width ksmall : BitVec 7) (variant : BitVec 2) (signed ovfEn ovfMode : Bool) :
    Statement (.beginSession width ksmall variant signed ovfEn ovfMode) := by
  apply of_and
  obtain ⟨h1, h2, h3⟩ := flags_disjoint signed ovfEn ovfMode
  simp only [encodeHeader, opcodeOfInstr, BitVec.and_comm _ Opcode.begin_.mask,
    BitVec.and_or_distrib_left]
  simp only [BitVec.and_comm Opcode.begin_.mask, (width_disjoint width).1, ksmall_disjoint,
    variant_disjoint, h1, h2, h3]
  decide

theorem writeBits (width : BitVec 7) (value : Word) : Statement (.writeBits width value) := by
  apply of_and
  simp only [encodeHeader, opcodeOfInstr, BitVec.and_comm _ Opcode.writeBits.mask,
    BitVec.and_or_distrib_left]
  simp only [BitVec.and_comm Opcode.writeBits.mask, (width_disjoint width).2.1]
  decide

theorem readBits (width : BitVec 7) (offset : Word) : Statement (.readBits width offset) := by
  apply of_and
  simp only [encodeHeader, opcodeOfInstr, BitVec.and_comm _ Opcode.readBits.mask,
    BitVec.and_or_distrib_left]
  simp only [BitVec.and_comm Opcode.readBits.mask, (width_disjoint width).2.2]
  decide

theorem packCons (element : Word) : Statement (.packCons element) := of_and (fixed_and_mask _)

theorem packNcons (element : Word) : Statement (.packNcons element) := of_and (fixed_and_mask _)

theorem packOvf (element : Word) : Statement (.packOvf element) := of_and (fixed_and_mask _)

theorem endSession : Statement .endSession := of_and (fixed_and_mask _)

theorem unpackCons (index : Word) : Statement (.unpackCons index) := of_and (fixed_and_mask _)

theorem unpackNcons (index : Word) : Statement (.unpackNcons index) := of_and (fixed_and_mask _)

theorem unpackOvf (index : Word) : Statement (.unpackOvf index) := of_and (fixed_and_mask _)

theorem rdreg (reg : BitVec 4) : Statement (.rdreg reg) := by
  apply of_and
  simp only [encodeHeader, opcodeOfInstr, BitVec.and_comm _ Opcode.rdreg.mask,
    BitVec.and_or_distrib_left]
  simp only [BitVec.and_comm Opcode.rdreg.mask, reg_disjoint]
  decide

end EncodeMatchesTable

end Laws

end Sys2Proof
end

