-- ==== Sys2Proof/Machine/Assembler.lean ====
section
/-! DEFINITION. The assembly syntax of 30_encoding.md R82: a line of text to the command it encodes. It
is the host's notation; the block never sees it. DESIGN CHOICE, safe for the block: the spacing of tokens
and the bounds of numbers (assumption log 8). -/

namespace Sys2Proof.Machine

/-- ASCII lower case, so that mnemonics are case-insensitive (30_encoding.md R82). -/
def lowerChar (c : Char) : Char :=
  if 65 ≤ c.toNat ∧ c.toNat ≤ 90 then Char.ofNat (c.toNat + 32) else c

/-- The line without its comment: `;` starts one (30_encoding.md R82). -/
def dropComment : List Char → List Char
  | [] => []
  | c :: cs => if c = ';' then [] else lowerChar c :: dropComment cs

/-- Ends the token read so far (`acc`, reversed) and puts it before the others. -/
def flushToken (acc : List Char) (rest : List (List Char)) : List (List Char) :=
  if acc.isEmpty then rest else acc.reverse :: rest

/-- The tokens of a line: runs of characters between blanks; a comma is a token of its own. -/
def tokensFrom (acc : List Char) : List Char → List (List Char)
  | [] => flushToken acc []
  | c :: cs =>
    if c = ' ' ∨ c = '\t' then flushToken acc (tokensFrom [] cs)
    else if c = ',' then flushToken acc ([','] :: tokensFrom [] cs)
    else tokensFrom (c :: acc) cs

/-- The value of a digit in the given base, if it is one. -/
def digitValue (base : Nat) (c : Char) : Option Nat :=
  let n := c.toNat
  let v := if 48 ≤ n ∧ n ≤ 57 then n - 48 else if 97 ≤ n ∧ n ≤ 102 then n - 87 else base
  if v < base then some v else none

/-- The number the digits write after the value read so far. -/
def digitsFrom (base : Nat) (acc : Nat) : List Char → Option Nat
  | [] => some acc
  | c :: cs =>
    match digitValue base c with
    | some d => digitsFrom base (acc * base + d) cs
    | none => none

/-- A number, decimal or `0x` hexadecimal (30_encoding.md R82). -/
def parseNat : List Char → Option Nat
  | [] => none
  | '0' :: 'x' :: [] => none
  | '0' :: 'x' :: ds => digitsFrom 16 0 ds
  | ds => digitsFrom 10 0 ds

/-- A number, or `-` and a number: an element or an index, written as its two's complement
(30_encoding.md R82). -/
def parseInt : List Char → Option Int
  | '-' :: ds => (parseNat ds).map (fun n => -(n : Int))
  | ds => (parseNat ds).map (fun n => (n : Int))

/-- A number that fits a 7-bit header field. -/
def parseField (ds : List Char) : Option (BitVec 7) :=
  match parseNat ds with
  | some n => if n < 128 then some (BitVec.ofNat 7 n) else none
  | none => none

/-- A number that fits the 64-bit argument, or a negative one written as its two's complement. -/
def parseWord (ds : List Char) : Option Word :=
  match parseInt ds with
  | some x => if -(2 ^ 63) ≤ x ∧ x < 2 ^ 64 then some (operandWord x) else none
  | none => none

/-- `key=` and a value: the value, if the token starts with the key. -/
def afterKey : List Char → List Char → Option (List Char)
  | [], rest => some rest
  | _ :: _, [] => none
  | k :: ks, c :: cs => if k = c then afterKey ks cs else none

/-- The register named in 10_state.md section 1, by its number. -/
def registerNumber (name : List Char) : Option (BitVec 4) :=
  if name = ['s', 't', 'a', 't', 'u', 's'] then some 0#4
  else if name = ['c', 'o', 'n', 'f', 'i', 'g'] then some 1#4
  else if name = ['c', 'u', 'r', 's', 'o', 'r'] then some 2#4
  else if name = ['l', 'e', 'n', '_', 'w', 'o', 'r', 'd', 's'] then some 3#4
  else if name = ['n'] then some 4#4
  else if name = ['o', 'v', 'f', '_', 'c', 'o', 'u', 'n', 't'] then some 5#4
  else if name = ['l', 'a', 's', 't', '_', 'c', 'a', 'u', 's', 'e'] then some 6#4
  else if name = ['e', 'r', 'r', '_', 's', 't', 'i', 'c', 'k', 'y'] then some 7#4
  else match afterKey ['p', 'a', 'r', 'a', 'm', '_'] name with
    | some rest =>
      if rest = ['w'] then some 8#4
      else if rest = ['n', 'a', 't', 'i', 'v', 'e', '_', 'w'] then some 9#4
      else if rest = ['m', 'a', 'x', '_', 'w', 'o', 'r', 'd', 's'] then some 10#4
      else if rest = ['m', 'a', 'x', '_', 'o', 'v', 'f'] then some 11#4
      else none
    | none => none

/-- The optional `, signed` at the end of a BEGIN. -/
def parseSigned : List (List Char) → Option Bool
  | [] => some false
  | [[','], ['s', 'i', 'g', 'n', 'e', 'd']] => some true
  | _ => none

/-- The overflow mode of a BEGIN: `ovf=index` or `ovf=compact`. -/
def parseMode (t : List Char) : Option Bool :=
  match afterKey ['o', 'v', 'f', '='] t with
  | some m =>
    if m = ['i', 'n', 'd', 'e', 'x'] then some false
    else if m = ['c', 'o', 'm', 'p', 'a', 'c', 't'] then some true
    else none
  | none => none

/-- The options of BEGIN.CONS and BEGIN.NCONS (30_encoding.md R82). -/
def parseArray (ncons : Bool) : List (List Char) → Option ArrayForm
  | opt :: rest =>
    match afterKey ['k', '='] opt with
    | some ds =>
      match parseField ds, parseSigned rest with
      | some k, some signed => some (.plain ncons k signed)
      | _, _ => none
    | none =>
      match parseMode opt, rest with
      | some compact, [','] :: ksTok :: rest2 =>
        match afterKey ['k', 's', '='] ksTok with
        | some ds =>
          match parseField ds, parseSigned rest2 with
          | some ks, some signed => some (.overflow ncons compact ks signed)
          | _, _ => none
        | none => none
      | _, _ => none
  | [] => none

/-- The command a mnemonic with one integer operand writes. -/
def parseOne (mk : Word → Instr) : List (List Char) → Option Instr
  | [t] => (parseWord t).map mk
  | _ => none

/-- The command a mnemonic with a width and an integer operand writes. -/
def parseTwo (mk : BitVec 7 → Word → Instr) : List (List Char) → Option Instr
  | [w, [','], t] =>
    match parseField w, parseWord t with
    | some width, some a => some (mk width a)
    | _, _ => none
  | _ => none

/-- The instruction a line's tokens write (30_encoding.md R82); none for a line outside the syntax. -/
def parseTokens : List (List Char) → Option Instr
  | [] => none
  | mn :: args =>
    if mn = ['b', 'e', 'g', 'i', 'n', '.', 'r', 'a', 'w'] then
      if args.isEmpty then some beginRaw else none
    else if mn = ['b', 'e', 'g', 'i', 'n', '.', 'c', 'o', 'n', 's'] then
      (parseArray false args).map beginArray
    else if mn = ['b', 'e', 'g', 'i', 'n', '.', 'n', 'c', 'o', 'n', 's'] then
      (parseArray true args).map beginArray
    else if mn = ['w', 'r', 'i', 't', 'e', '_', 'b', 'i', 't', 's'] then parseTwo .writeBits args
    else if mn = ['r', 'e', 'a', 'd', '_', 'b', 'i', 't', 's'] then parseTwo .readBits args
    else if mn = ['e', 'n', 'd'] then if args.isEmpty then some .endSession else none
    else if mn = ['r', 'd', 'r', 'e', 'g'] then
      match args with
      | [name] => (registerNumber name).map .rdreg
      | _ => none
    else match afterKey ['p', 'a', 'c', 'k', '_'] mn with
      | some v =>
        if v = ['c', 'o', 'n', 's'] then parseOne .packCons args
        else if v = ['n', 'c', 'o', 'n', 's'] then parseOne .packNcons args
        else if v = ['o', 'v', 'f'] then parseOne .packOvf args
        else none
      | none =>
        match afterKey ['u', 'n', 'p', 'a', 'c', 'k', '_'] mn with
        | some v =>
          if v = ['c', 'o', 'n', 's'] then parseOne .unpackCons args
          else if v = ['n', 'c', 'o', 'n', 's'] then parseOne .unpackNcons args
          else if v = ['o', 'v', 'f'] then parseOne .unpackOvf args
          else none
        | none => none

/-- The command a line of assembly encodes (30_encoding.md R82): every unused field and argument is 0. -/
def assembleLine (line : List Char) : Option (Header × Word) :=
  (parseTokens (tokensFrom [] (dropComment line))).map encode

end Sys2Proof.Machine
end

