-- ==== Sys2Proof/Tests/Slice0.lean ====
section
/-! SUPPORT. The model's own tests: words written out from the spec's encodings, single steps with the
expected results of 95_test_vectors.md, and for every statement with hypotheses a concrete case that
meets them. -/

namespace Sys2Proof.Tests

open Sys2Proof.Machine Sys2Proof.Claims

/-! ### Well-formedness and decoding -/

theorem test_wellFormed_refuses_reserved_register : ¬ WellFormed (.rdreg 12#4) := by decide
theorem test_wellFormed_accepts_last_register : WellFormed (.rdreg 11#4) := by decide

/-- 95_test_vectors.md NC-2 row 7: `BEGIN.NCONS k=5, signed`. -/
theorem test_decode_begin_plain : decode 0x10A01800#32 0#64 =
    .ok (.beginSession 5#7 0#7 1#2 true false false) := by decide
/-- 95_test_vectors.md P2 row 0: `BEGIN.NCONS ovf=compact, ks=4, signed`. -/
theorem test_decode_begin_overflow : decode 0x10011E00#32 0#64 =
    .ok (.beginSession 0#7 4#7 1#2 true true true) := by decide
/-- 30_encoding.md R72: OPC 2, WIDTH 7 in bits 27..21. -/
theorem test_decode_writeBits : decode 0b00100000111000000000000000000000#32 0x5A#64 =
    .ok (.writeBits 7#7 0x5A#64) := by decide
/-- 30_encoding.md R72: OPC 3, WIDTH 8. -/
theorem test_decode_readBits : decode 0b00110001000000000000000000000000#32 2#64 =
    .ok (.readBits 8#7 2#64) := by decide
theorem test_decode_packCons : decode 0x40000000#32 5#64 = .ok (.packCons 5#64) := by decide
theorem test_decode_packNcons : decode 0x50000000#32 5#64 = .ok (.packNcons 5#64) := by decide
theorem test_decode_packOvf : decode 0x60000000#32 5#64 = .ok (.packOvf 5#64) := by decide
theorem test_decode_end : decode 0x70000000#32 9#64 = .ok .endSession := by decide
theorem test_decode_unpackCons : decode 0x80000000#32 2#64 = .ok (.unpackCons 2#64) := by decide
theorem test_decode_unpackNcons : decode 0x90000000#32 2#64 = .ok (.unpackNcons 2#64) := by decide
theorem test_decode_unpackOvf : decode 0xA0000000#32 2#64 = .ok (.unpackOvf 2#64) := by decide
/-- 30_encoding.md R72: OPC 0xB, REG 6 in bits 8..5. -/
theorem test_decode_rdreg : decode 0b10110000000000000000000011000000#32 0#64 =
    .ok (.rdreg 6#4) := by decide
/-- 95_test_vectors.md SC-3 row 2. -/
theorem test_decode_reserved_opcode : decode 0xFFFFFFFF#32 0#64 = .error .reservedOpcode := by decide
/-- 95_test_vectors.md SC-3 row 5. -/
theorem test_decode_reserved_bits : decode 0x20204000#32 0#64 = .error .reservedBits := by decide
/-- The argument of a table word stands in bits 95..32. -/
theorem test_decodeTableWord : decodeTableWord 96 0x230E00000 = some (.readBits 7#7 2#64) := by decide

/-- 30_encoding.md R82, 95_test_vectors.md OV-4 row 0. -/
theorem test_assemble_begin : parseTokens
    [['b', 'e', 'g', 'i', 'n', '.', 'n', 'c', 'o', 'n', 's'], ['o', 'v', 'f', '=', 'i', 'n', 'd', 'e', 'x'],
     [','], ['k', 's', '=', '2'], [','], ['s', 'i', 'g', 'n', 'e', 'd']] =
    some (.beginSession 0#7 2#7 1#2 true true false) := by decide
/-- 30_encoding.md R82: mnemonics are case-insensitive, numbers may be hexadecimal, `;` starts a
comment. -/
theorem test_assemble_line : assembleLine
    ['P', 'a', 'c', 'k', '_', 'O', 'V', 'F', ' ', '0', 'x', '4', '0', '0', ';', ' ', '1'] =
    some (0x60000000#32, 0x400#64) := by decide

/-! ### States of the test vectors (W = 8, NATIVE_W = 32, MAX_WORDS = 16, MAX_OVF = 8) -/

/-- The parameters most vectors use. -/
def p8 : Params := { w := 8, nativeW := 32, maxWords := 16, maxOvf := 8 }

/-- A plain configuration. -/
def plain (v : Variant) (signed : Bool) (k : BitVec 7) : ConfigReg :=
  { variant := v, signed := signed, ovfEn := false, ovfMode := false, k := k, ksmall := 0#7 }

/-- An overflow configuration. -/
def overflow (v : Variant) (signed mode : Bool) (ks : BitVec 7) : ConfigReg :=
  { variant := v, signed := signed, ovfEn := true, ovfMode := mode, k := 0#7, ksmall := ks }

/-- A session with parameters p8 in the given state. -/
def session (st : SessionState) (c : ConfigReg) (cursor len n : Nat) (words : Memory) : State :=
  { State.resetOf p8 with
    state := st, config := c, cursor := BitVec.ofNat 64 cursor, lenWords := BitVec.ofNat 64 len,
    count := BitVec.ofNat 64 n, words := words }

/-- WB-1 after row 2: a RAW session with 3 bits written. -/
def rawOpen : State :=
  session .packing { ConfigReg.zero with variant := .raw } 3 1 0 [(0, 0xA0#64)]

/-- WB-1's buffer filled to the last bit of MAX_WORDS * W (here 16 words of zeros). -/
def rawFull : State :=
  session .packing { ConfigReg.zero with variant := .raw } 128 16 0
    [(0, 0#64), (1, 0#64), (2, 0#64), (3, 0#64), (4, 0#64), (5, 0#64), (6, 0#64), (7, 0#64), (8, 0#64),
     (9, 0#64), (10, 0#64), (11, 0#64), (12, 0#64), (13, 0#64), (14, 0#64), (15, 0#64)]

/-- CO-2 after row 2: elements 5 and 3 packed. -/
def consOpen : State := session .packing (plain .cons false 3#7) 6 1 2 [(0, 0xAC#64)]

/-- CO-2 after row 6: sealed. -/
def consSealed : State := session .sealed (plain .cons false 3#7) 15 2 5 [(0, 0xAF#64), (1, 0x8C#64)]

/-- CO-3 after row 6: sealed, signed, k = 4. -/
def signedSealed : State :=
  session .sealed (plain .cons true 4#7) 20 3 5 [(0, 0xF7#64), (1, 0x09#64), (2, 0x30#64)]

/-- NC-1 after row 2. -/
def nconsOpen : State := session .packing (plain .ncons false 3#7) 6 1 2 [(0, 0xAC#64)]

/-- NC-1 after row 6. -/
def nconsSealed : State :=
  session .sealed (plain .ncons false 3#7) 19 3 5 [(0, 0xAC#64), (1, 0xE0#64), (2, 0xC0#64)]

/-- OV-4 after row 4: NCONS, INDEX, signed, ks = 2, one overflowed element. -/
def ovfOpen : State :=
  { session .packing (overflow .ncons true false 2#7) 14 2 4 [(0, 0x2C#64), (1, 0x10#64)] with
    ovfCount := 1#64, ovf := [(0, 2#64)] }

/-- OV-4 after row 6: sealed. -/
def indexSealed : State :=
  { session .sealed (overflow .ncons true false 2#7) 19 3 5
      [(0, 0x2C#64), (1, 0x10#64), (2, 0xA0#64)] with
    ovfCount := 2#64, ovf := [(0, 2#64), (1, 0xFFFFFFFB#64)] }

/-- OV-3 after row 8: NCONS, COMPACT, ks = 3, sealed. -/
def compactSealed : State :=
  { session .sealed (overflow .ncons false true 3#7) 28 4 7
      [(0, 0x12#64), (1, 0x38#64), (2, 0x45#64), (3, 0x80#64)] with
    ovfCount := 2#64, ovf := [(0, 0x400#64), (1, 0x800#64)] }

/-- OV-5 after row 4: CONS, INDEX, ks = 1, no further index fits. -/
def indexFull : State :=
  { session .packing (overflow .cons false false 1#7) 8 1 4 [(0, 0x8D#64)] with
    ovfCount := 2#64, ovf := [(0, 5#64), (1, 6#64)] }

/-- The next state of an outcome. -/
def after : Host.Outcome State Fault Refusal → Option State
  | .next s => some s
  | _ => none

/-- The cause code and the data word of an outcome's response. -/
def response (o : Host.Outcome State Fault Refusal) : Option (Nat × Nat) :=
  match after o with
  | some s => match s.responses with
    | r :: _ => some ((causeCode r.cause).toNat, r.data.toNat)
    | [] => none
  | none => none

/-- CURSOR, LEN_WORDS, N and OVF_COUNT of an outcome's state. -/
def counters (o : Host.Outcome State Fault Refusal) : Option (List Nat) :=
  (after o).map fun s => [s.cursor.toNat, s.lenWords.toNat, s.count.toNat, s.ovfCount.toNat]

/-! ### One step of each command -/

/-- SC-2 row 2: CONFIG reads 0x1F008 after `BEGIN.CONS ovf=index, ks=31`. -/
theorem test_config_word :
    configWord (overflow .cons false false 31#7) = 0x1F008#64 := by decide
/-- CO-2 row 0 in the state after an abort: BEGIN is legal and empties the counters. -/
theorem test_begin_discards : counters (exec (.beginSession 3#7 0#7 0#2 false false false)
    { consOpen with state := .aborted }) = some [0, 0, 0, 0] := by decide
/-- SC-1 row 6: `ks=8` at W = 8 is no legal form. -/
theorem test_begin_rejects_wide_small : response (exec
    (.beginSession 0#7 8#7 0#2 false true false) (State.resetOf p8)) = some (1, 0) := by decide
/-- WB-1 row 3: the write straddles, WORDS = [B6 80]. -/
theorem test_writeBits_straddles : (after (exec (.writeBits 7#7 0x5A#64) rawOpen)).map (·.words) =
    some [(0, 0xB6#64), (1, 0x80#64)] := by decide
/-- WB-1 row 17: no room for one more bit. -/
theorem test_writeBits_full : response (exec (.writeBits 1#7 1#64) rawFull) = some (6, 0) := by decide
/-- 40_word_buffer.md R105's example: bits 2..9 of [B6 80]. -/
theorem test_readBits_straddles : response (exec (.readBits 8#7 2#64)
    (session .packing { ConfigReg.zero with variant := .raw } 10 2 0 [(0, 0xB6#64), (1, 0x80#64)])) =
    some (0, 0xDA) := by decide
/-- WB-1 row 11: an offset near 2^64 does not wrap. -/
theorem test_readBits_no_wrap : response (exec (.readBits 1#7 0xFFFFFFFFFFFFFFFF#64) rawOpen) =
    some (3, 0) := by decide
/-- CO-2 row 3: 7 straddles words 0 and 1. -/
theorem test_packCons_straddles : (after (exec (.packCons 7#64) consOpen)).map (·.words) =
    some [(0, 0xAF#64), (1, 0x80#64)] := by decide
/-- CO-6: a negative element of an unsigned session raises RangeError. -/
theorem test_packCons_negative : response (exec (.packCons 0xFFFFFFFFFFFFFFFF#64) consOpen) =
    some (2, 0) := by decide
/-- NC-1 row 3: the field starts the next word. -/
theorem test_packNcons_pads : (after (exec (.packNcons 7#64) nconsOpen)).map (·.words) =
    some [(0, 0xAC#64), (1, 0xE0#64)] := by decide
theorem test_packNcons_counters : counters (exec (.packNcons 7#64) nconsOpen) =
    some [11, 2, 3, 0] := by decide
/-- OV-4 row 5: -5 overflows with index 1. -/
theorem test_packOvf_overflows : (after (exec (.packOvf 0xFFFFFFFFFFFFFFFB#64) ovfOpen)).map
    (fun s => (s.words, s.ovf)) =
    some ([(0, 0x2C#64), (1, 0x10#64), (2, 0xA0#64)], [(0, 2#64), (1, 0xFFFFFFFB#64)]) := by decide
/-- OV-5 row 5: index 2 does not fit one bit. -/
theorem test_packOvf_index_full : response (exec (.packOvf 7#64) indexFull) = some (6, 0) := by decide
/-- CO-2 row 6 and SC-4 row 16. -/
theorem test_end_seals : (after (exec .endSession consOpen)).map (·.state) = some .sealed := by decide
theorem test_end_twice : response (exec .endSession consSealed) = some (5, 0) := by decide
/-- CO-2 row 9 and CO-3 row 7. -/
theorem test_unpackCons_straddles : response (exec (.unpackCons 2#64) consSealed) = some (0, 7) := by
  decide
theorem test_unpackCons_negative : response (exec (.unpackCons 0#64) signedSealed) =
    some (0, 0xFFFFFFFFFFFFFFF9) := by decide
/-- NC-1 rows 11 and 12. -/
theorem test_unpackNcons_last : response (exec (.unpackNcons 4#64) nconsSealed) = some (0, 6) := by
  decide
theorem test_unpackNcons_past : response (exec (.unpackNcons 5#64) nconsSealed) = some (3, 0) := by
  decide
/-- OV-4 row 11: the entry is sign-extended. -/
theorem test_unpackOvf_index : response (exec (.unpackOvf 4#64) indexSealed) =
    some (0, 0xFFFFFFFFFFFFFFFB) := by decide
/-- OV-3 row 15: the position is counted. -/
theorem test_unpackOvf_compact : response (exec (.unpackOvf 6#64) compactSealed) =
    some (0, 0x800) := by decide
/-- SC-3 row 9: LAST_CAUSE reads the cause before. -/
theorem test_rdreg_last_cause : response (exec (.rdreg 6#4)
    { State.resetOf p8 with lastCause := .illegalCommand }) = some (0, 7) := by decide
/-- SC-3 row 11: PARAM_W. -/
theorem test_rdreg_param_w : response (exec (.rdreg 8#4) (State.resetOf p8)) = some (0, 8) := by decide

/-- A placed command is the first a step runs: `BEGIN.CONS k=3` from reset. -/
theorem test_step_runs_placed_command : (after (step (State.reset.withFetchWord 32 0x10600000))).map
    (fun s => (s.state, s.config.k, s.pending)) = some (.packing, 3#7, []) := by decide

/-- 44_signed_codec.md R208. -/
theorem test_codec_examples : encodeS (-1) 4 = 9 ∧ encodeS (-7) 4 = 15 ∧ decodeS 8 4 = 0 ∧
    decodeS 15 4 = -7 ∧ fitsS 8 4 = false ∧ fitsS (-8) 4 = false := by decide
/-- CO-10: NATIVE_W = 8, the high argument bits are ignored. -/
theorem test_element_operand : sext 8 0x181 = -127 ∧ sext 8 0x17F = 127 ∧ sext 8 0x80 = -128 := by
  decide
/-- 95_test_vectors.md 2.6. -/
theorem test_autoWidth : autoWidth [1, 2, 3, 1024, 4, 5, 2048] false = 12 ∧
    autoWidth [-7, 7, 0, -1, 3] true = 4 ∧ autoWidth [] false = 1 ∧ autoWidth [0, 0] true = 1 := by
  decide

/-! ### The hypotheses of the statements are met

One theorem for each statement that has hypotheses: a concrete case that meets them all, for each clause
one at a boundary of its range. -/

/-- A state with one command issued. -/
def issued (h : Header) (a : Word) (s : State) : State := { s with pending := [.command h a] }

/-- A state with reset asserted. -/
def resetIssued (s : State) : State := { s with pending := [.reset] }

theorem hyps_DecodeOfEncodeIsIdentity : WellFormed (.rdreg 11#4) := by decide

theorem hyps_EncodeOfDecodeIsHeader : decode 0x10011E00#32 1#64 =
    .ok (.beginSession 0#7 4#7 1#2 true true true) := by decide

theorem hyps_DecoderChecksInOrder :
    ReservedOpcode 0x0FFFFFFF#32 ∧ ReservedOpcode 0xC0000000#32 ∧
    (¬ ReservedOpcode 0x40200000#32 ∧ ReservedBitSet 0x40200000#32) ∧
    (¬ ReservedOpcode 0xB0000180#32 ∧ ¬ ReservedBitSet 0xB0000180#32 ∧
      ReservedRegister 0xB0000180#32) ∧
    (¬ ReservedOpcode 0xB0000160#32 ∧ ¬ ReservedBitSet 0xB0000160#32 ∧
      ¬ ReservedRegister 0xB0000160#32) ∧
    (decode 0x70000001#32 0#64 = .error .reservedBits ∧
      ParamsLegal (issued 0x70000001#32 0#64 consOpen).params ∧
      (issued 0x70000001#32 0#64 consOpen).pending = .command 0x70000001#32 0#64 :: []) := by decide

theorem hyps_StepRunsDecodedInstruction :
    ParamsLegal (issued 0x40000000#32 7#64 consOpen).params ∧
    (issued 0x40000000#32 7#64 consOpen).pending = .command 0x40000000#32 7#64 :: [] ∧
    decode 0x40000000#32 7#64 = .ok (.packCons 7#64) := by decide

theorem hyps_IllegalHeaderRaisesIllegalCommand :
    ParamsLegal (issued 0x70000001#32 0#64 consOpen).params ∧
    (issued 0x70000001#32 0#64 consOpen).pending = .command 0x70000001#32 0#64 :: [] ∧
    ReservedBitSet 0x70000001#32 ∧ ReservedOpcode 0x00000000#32 ∧ ReservedRegister 0xB00001E0#32 := by
  decide

theorem hyps_StepWithoutActionHoldsState :
    ParamsLegal consOpen.params ∧ consOpen.pending = [] := by decide

theorem hyps_HostResetGivesResetValues :
    ParamsLegal (resetIssued indexSealed).params ∧
    (resetIssued indexSealed).pending = .reset :: [] := by decide

theorem hyps_IllegalParametersAreRefused :
    (State.resetOf { p8 with w := 65 }).params.w > 64 ∧
    step (State.resetOf { p8 with w := 65 }) = .refused .illegalParameters := ⟨by decide, rfl⟩

theorem hyps_EveryCommandGetsOneResponse :
    ∃ t, (issued 0x40000000#32 7#64 consOpen).pending = .command 0x40000000#32 7#64 :: [] ∧
      step (issued 0x40000000#32 7#64 consOpen) = .next t ∧
      decode 0x40000000#32 7#64 = .ok (.packCons 7#64) ∧ returnsNothing (.packCons 7#64) = true :=
  ⟨_, by decide, rfl, by decide, by decide⟩

theorem hyps_NoStepChangesParameters : ∃ t, step (issued 0x40000000#32 7#64 consOpen) = .next t :=
  ⟨_, rfl⟩

theorem hyps_ErrorHasOnlyItsEffects :
    ∃ t, exec (.packCons 8#64) consOpen = .next t ∧ t.lastCause ≠ .noError :=
  ⟨_, rfl, by decide⟩

theorem hyps_CommandsEndWithTheirCauses : ∃ t, exec (.unpackOvf 4#64) indexSealed = .next t :=
  ⟨_, rfl⟩

theorem hyps_ErrStickyAccumulatesUntilReset :
    (∃ t, (issued 0x40000000#32 8#64 consOpen).errSticky.getLsbD 0 = false ∧
      step (issued 0x40000000#32 8#64 consOpen) = .next t ∧ t.lastCause ≠ .noError) ∧
    (∃ t, step (issued 0x40000000#32 7#64 consOpen) = .next t ∧ t.lastCause = .noError) ∧
    (∃ t, (resetIssued consOpen).pending = .reset :: [] ∧ step (resetIssued consOpen) = .next t) :=
  ⟨⟨_, by decide, rfl, by decide⟩, ⟨_, rfl, by decide⟩, ⟨_, by decide, rfl⟩⟩

theorem hyps_LegalityTableDecidesStateError :
    ¬ AllowedIn (.packNcons 1#64) consOpen ∧ AllowedIn (.packCons 1#64) consOpen ∧
    ∃ t, exec (.packCons 1#64) consOpen = .next t :=
  ⟨nofun, ⟨rfl, rfl⟩, ⟨_, rfl⟩⟩

theorem hyps_AbortOnlyFromPacking :
    (∃ t, exec (.packCons 8#64) consOpen = .next t ∧ t.lastCause = .rangeError) ∧
    (∃ t, exec (.writeBits 1#7 1#64) rawFull = .next t ∧ t.lastCause = .capacityError) ∧
    ({ consOpen with state := .aborted } : State).state = .aborted ∧ isBegin .endSession = false ∧
      isRdreg .endSession = false :=
  ⟨⟨_, rfl, by decide⟩, ⟨_, rfl, by decide⟩, by decide⟩

/-- A sealed array with one element too few bits: unreachable from reset. -/
def shortSealed : State := { consSealed with cursor := 14#64 }

theorem hyps_FaultedOnlyFromSealedUntilReset :
    (∃ t, exec (.unpackCons 4#64) shortSealed = .next t ∧ t.lastCause = .consistencyError) ∧
    (∃ t, (issued 0x10600000#32 0#64 { consSealed with state := .faulted }).state = .faulted ∧
      step (issued 0x10600000#32 0#64 { consSealed with state := .faulted }) = .next t) ∧
    (∃ t, step (resetIssued { consSealed with state := .faulted }) = .next t) :=
  ⟨⟨_, rfl, by decide⟩, ⟨_, by decide, rfl⟩, ⟨_, rfl⟩⟩

theorem test_decode_packCons_one : decode 0x40000000#32 1#64 = .ok (.packCons 1#64) := by decide

theorem hyps_SealedArrayIsImmutable :
    ∃ t, (issued 0x40000000#32 1#64 consSealed).state = .sealed ∧
      (∀ i, decode 0x40000000#32 1#64 = .ok i → isBegin i = false) ∧
      step (issued 0x40000000#32 1#64 consSealed) = .next t :=
  ⟨_, by decide, fun i h => by
    rw [test_decode_packCons_one] at h
    cases h
    rfl, rfl⟩

theorem hyps_ReadsHaveNoSideEffect :
    (∃ t, isRead (.unpackOvf 6#64) = true ∧ exec (.unpackOvf 6#64) compactSealed = .next t ∧
      t.lastCause = .noError ∧ SameArray compactSealed { compactSealed with errSticky := 8#8 }) ∧
    (∃ t, isRead (.unpackCons 4#64) = true ∧ exec (.unpackCons 4#64) shortSealed = .next t ∧
      t.lastCause = .consistencyError) :=
  ⟨⟨_, by decide, rfl, by decide, by decide⟩, ⟨_, by decide, rfl, by decide⟩⟩

theorem hyps_BeginOpensEmptySession :
    consOpen.state ≠ .faulted ∧
    LegalBegin p8 8#7 0#7 1#2 true false false ∧ LegalBegin p8 1#7 0#7 0#2 false false false ∧
    LegalBegin p8 0#7 7#7 0#2 false true true ∧ LegalBegin p8 0#7 0#7 2#2 false false false := by
  refine ⟨?_, ?_, ?_, ?_, ?_⟩ <;> decide

theorem hyps_BeginRejectsIllegalForms :
    consOpen.state ≠ .faulted ∧
    ¬ LegalBegin p8 9#7 0#7 1#2 true false false ∧ ¬ LegalBegin p8 0#7 0#7 0#2 false false false ∧
    ¬ LegalBegin p8 0#7 8#7 0#2 false true true ∧ ¬ LegalBegin p8 0#7 0#7 2#2 true false false ∧
    ¬ LegalBegin p8 3#7 0#7 3#2 false false false := by
  refine ⟨?_, ?_, ?_, ?_, ?_, ?_⟩ <;> decide

theorem hyps_EndSealsOpenSession : consOpen.state = .packing ∧ consSealed.state ≠ .packing := by
  decide

theorem hyps_RdregReturnsRegister : (11#4).toNat < 12 ∧ 12 ≤ (12#4).toNat := by decide

theorem bufferOk_rawOpen : BufferOk rawOpen := ⟨by decide, by decide, by decide, by decide⟩

theorem bufferOk_consOpen : BufferOk consOpen := ⟨by decide, by decide, by decide, by decide⟩

theorem bufferOk_nconsOpen : BufferOk nconsOpen := ⟨by decide, by decide, by decide, by decide⟩

theorem bufferOk_ovfOpen : BufferOk ovfOpen := ⟨by decide, by decide, by decide, by decide⟩

theorem hyps_WriteBitsStoresField :
    BufferOk rawOpen ∧ rawOpen.state = .packing ∧ rawOpen.config.variant = .raw ∧
    1 ≤ (8#7).toNat ∧ (8#7).toNat ≤ rawOpen.params.w ∧
    rawOpen.cursor.toNat + (8#7).toNat ≤ rawOpen.params.maxWords * rawOpen.params.w :=
  ⟨bufferOk_rawOpen, by decide⟩

theorem hyps_ReadBitsReturnsField :
    consSealed.state = .sealed ∧ 1 ≤ (7#7).toNat ∧ (7#7).toNat ≤ consSealed.params.w ∧
    (8#64).toNat + (7#7).toNat ≤ consSealed.cursor.toNat ∧
    FieldAt consSealed (8#64).toNat (7#7).toNat 0x46 :=
  ⟨by decide, by decide, by decide, by decide, ⟨by decide, by decide⟩⟩

theorem hyps_IllegalWidthRaisesConfigurationError :
    (0#7).toNat = 0 ∧ rawOpen.params.w < (9#7).toNat ∧
    AllowedIn (.writeBits 9#7 1#64) rawOpen ∧ AllowedIn (.readBits 0#7 1#64) rawOpen :=
  ⟨by decide, by decide, rfl, trivial⟩

theorem hyps_ReadPastCursorRaisesIndexError :
    AllowedIn (.readBits 1#7 3#64) rawOpen ∧ 1 ≤ (1#7).toNat ∧ (1#7).toNat ≤ rawOpen.params.w ∧
    rawOpen.cursor.toNat < (3#64).toNat + (1#7).toNat :=
  ⟨trivial, by decide, by decide, by decide⟩

/-- A CONS, an NCONS and an overflow session whose buffer is full. -/
def fullWith (c : ConfigReg) : State := { rawFull with config := c }

theorem hyps_WritePastCapacityRaises :
    (rawFull.state = .packing ∧ rawFull.config.variant = .raw ∧ 1 ≤ (1#7).toNat ∧
      (1#7).toNat ≤ rawFull.params.w ∧
      rawFull.params.maxWords * rawFull.params.w < rawFull.cursor.toNat + (1#7).toNat) ∧
    (OpenPlain .cons (fullWith (plain .cons false 1#7)) ∧
      InRange false 1 (elementArg (fullWith (plain .cons false 1#7)) 1#64) ∧
      (fullWith (plain .cons false 1#7)).params.maxWords * 8 < 128 + 1) ∧
    (OpenPlain .ncons (fullWith (plain .ncons true 8#7)) ∧
      InRange true 8 (elementArg (fullWith (plain .ncons true 8#7)) 0xFFFFFFFFFFFFFF81#64) ∧
      16 * 8 < nextStart (fullWith (plain .ncons true 8#7)) 8 + 8) ∧
    (OpenOverflow (fullWith (overflow .ncons false false 7#7)) ∧
      16 * 8 < primStart (fullWith (overflow .ncons false false 7#7)) + (7 + 1)) := by
  decide

theorem hyps_PackConsAppendsField :
    BufferOk consOpen ∧ OpenPlain .cons consOpen ∧ 1 ≤ consOpen.config.k.toNat ∧
    consOpen.config.k.toNat ≤ consOpen.params.w ∧
    InRange consOpen.config.signed consOpen.config.k.toNat (elementArg consOpen 7#64) ∧
    consOpen.cursor.toNat + consOpen.config.k.toNat ≤
      consOpen.params.maxWords * consOpen.params.w :=
  ⟨bufferOk_consOpen, by decide⟩

theorem hyps_PackNconsAppendsField :
    BufferOk nconsOpen ∧ OpenPlain .ncons nconsOpen ∧ 1 ≤ nconsOpen.config.k.toNat ∧
    nconsOpen.config.k.toNat ≤ nconsOpen.params.w ∧
    InRange nconsOpen.config.signed nconsOpen.config.k.toNat (elementArg nconsOpen 7#64) ∧
    nextStart nconsOpen nconsOpen.config.k.toNat + nconsOpen.config.k.toNat ≤
      nconsOpen.params.maxWords * nconsOpen.params.w :=
  ⟨bufferOk_nconsOpen, by decide⟩

theorem hyps_PackOutOfRangeRaisesRangeError :
    (OpenPlain .cons consOpen ∧ ¬ InRange consOpen.config.signed consOpen.config.k.toNat
      (elementArg consOpen 8#64)) ∧
    (OpenPlain .ncons nconsOpen ∧ ¬ InRange nconsOpen.config.signed nconsOpen.config.k.toNat
      (elementArg nconsOpen 0xFFFFFFFFFFFFFFFF#64)) := by decide

theorem hyps_PackOvfStoresFittingElement :
    BufferOk ovfOpen ∧ OpenOverflow ovfOpen ∧ 1 ≤ ovfOpen.config.ksmall.toNat ∧
    ovfOpen.config.ksmall.toNat + 1 ≤ ovfOpen.params.w ∧
    InRange ovfOpen.config.signed ovfOpen.config.ksmall.toNat
      (elementArg ovfOpen 0xFFFFFFFFFFFFFFFF#64) ∧
    primStart ovfOpen + (ovfOpen.config.ksmall.toNat + 1) ≤
      ovfOpen.params.maxWords * ovfOpen.params.w :=
  ⟨bufferOk_ovfOpen, by decide⟩

theorem hyps_PackOvfRoutesOverflowingElement :
    BufferOk ovfOpen ∧ OpenOverflow ovfOpen ∧ 1 ≤ ovfOpen.config.ksmall.toNat ∧
    ovfOpen.config.ksmall.toNat + 1 ≤ ovfOpen.params.w ∧
    ¬ InRange ovfOpen.config.signed ovfOpen.config.ksmall.toNat (elementArg ovfOpen 2#64) ∧
    primStart ovfOpen + (ovfOpen.config.ksmall.toNat + 1) ≤
      ovfOpen.params.maxWords * ovfOpen.params.w ∧
    ovfOpen.ovfCount.toNat < ovfOpen.params.maxOvf ∧
    (ovfOpen.config.ovfMode = false →
      ovfOpen.ovfCount.toNat ≤ 2 ^ ovfOpen.config.ksmall.toNat - 1) :=
  ⟨bufferOk_ovfOpen, by decide⟩

theorem hyps_OverflowStoreExhaustionRaises :
    (OpenOverflow indexFull ∧
      ¬ InRange indexFull.config.signed indexFull.config.ksmall.toNat (elementArg indexFull 2#64) ∧
      primStart indexFull + (indexFull.config.ksmall.toNat + 1) ≤
        indexFull.params.maxWords * indexFull.params.w ∧
      indexFull.config.ovfMode = false ∧
      2 ^ indexFull.config.ksmall.toNat - 1 < indexFull.ovfCount.toNat) ∧
    ({ indexFull with params := { p8 with maxOvf := 2 } } : State).params.maxOvf ≤
      indexFull.ovfCount.toNat := by decide

theorem hyps_UnpackConsReturnsElement :
    SealedPlain .cons consSealed ∧ 1 ≤ consSealed.config.k.toNat ∧
    (4#64).toNat < consSealed.count.toNat ∧
    (4#64).toNat * consSealed.config.k.toNat + consSealed.config.k.toNat ≤
      consSealed.cursor.toNat ∧
    FieldAt consSealed ((4#64).toNat * consSealed.config.k.toNat) consSealed.config.k.toNat 6 :=
  ⟨by decide, by decide, by decide, by decide, ⟨by decide, by decide⟩⟩

theorem hyps_UnpackNconsReturnsElement :
    SealedPlain .ncons nconsSealed ∧ 1 ≤ nconsSealed.config.k.toNat ∧
    (4#64).toNat < nconsSealed.count.toNat ∧
    16 = (4#64).toNat / (nconsSealed.params.w / nconsSealed.config.k.toNat) * nconsSealed.params.w +
      (4#64).toNat % (nconsSealed.params.w / nconsSealed.config.k.toNat) *
        nconsSealed.config.k.toNat ∧
    16 + nconsSealed.config.k.toNat ≤ nconsSealed.cursor.toNat ∧
    FieldAt nconsSealed 16 nconsSealed.config.k.toNat 6 :=
  ⟨by decide, by decide, by decide, by decide, by decide, ⟨by decide, by decide⟩⟩

theorem hyps_UnpackOvfReturnsPrimaryElement :
    SealedOverflow indexSealed ∧ 1 ≤ indexSealed.config.ksmall.toNat ∧
    (1#64).toNat < indexSealed.count.toNat ∧
    primAddr indexSealed (1#64).toNat + (indexSealed.config.ksmall.toNat + 1) ≤
      indexSealed.cursor.toNat ∧
    FieldAt indexSealed (primAddr indexSealed (1#64).toNat) (indexSealed.config.ksmall.toNat + 1) 3 ∧
    3 < 2 ^ indexSealed.config.ksmall.toNat :=
  ⟨by decide, by decide, by decide, by decide, ⟨by decide, by decide⟩, by decide⟩

theorem hyps_UnpackOvfReturnsIndexedEntry :
    SealedOverflow indexSealed ∧ indexSealed.config.ovfMode = false ∧
    1 ≤ indexSealed.params.nativeW ∧ (4#64).toNat < indexSealed.count.toNat ∧
    primAddr indexSealed (4#64).toNat + (indexSealed.config.ksmall.toNat + 1) ≤
      indexSealed.cursor.toNat ∧
    1 < 2 ^ indexSealed.config.ksmall.toNat ∧
    FieldAt indexSealed (primAddr indexSealed (4#64).toNat) (indexSealed.config.ksmall.toNat + 1)
      (2 ^ indexSealed.config.ksmall.toNat + 1) ∧
    1 < indexSealed.ovfCount.toNat ∧ 1 < indexSealed.params.maxOvf ∧
    Memory.get indexSealed.ovf 1 = some 0xFFFFFFFB#64 :=
  ⟨by decide, by decide, by decide, by decide, by decide, by decide, ⟨by decide, by decide⟩,
    by decide⟩

theorem hyps_UnpackOvfReturnsCountedEntry :
    SealedOverflow compactSealed ∧ compactSealed.config.ovfMode = true ∧
    1 ≤ compactSealed.params.nativeW ∧ (6#64).toNat < compactSealed.count.toNat ∧
    primAddr compactSealed (6#64).toNat + (compactSealed.config.ksmall.toNat + 1) ≤
      compactSealed.cursor.toNat ∧
    0 < 2 ^ compactSealed.config.ksmall.toNat ∧
    FieldAt compactSealed (primAddr compactSealed (6#64).toNat)
      (compactSealed.config.ksmall.toNat + 1) (2 ^ compactSealed.config.ksmall.toNat + 0) ∧
    (∀ m, m < (6#64).toNat → ∃ b, readBit compactSealed (primAddr compactSealed m) = .ok b) ∧
    flagsBelow compactSealed (6#64).toNat < compactSealed.ovfCount.toNat ∧
    flagsBelow compactSealed (6#64).toNat < compactSealed.params.maxOvf ∧
    Memory.get compactSealed.ovf (flagsBelow compactSealed (6#64).toNat) = some 0x800#64 :=
  ⟨by decide, by decide, by decide, by decide, by decide, by decide, ⟨by decide, by decide⟩,
    by decide, by decide, by decide, by decide⟩

theorem hyps_IndexPastCountRaisesIndexError :
    (consSealed.count.toNat ≤ (5#64).toNat ∧ SealedPlain .cons consSealed) ∧
    (nconsSealed.count.toNat ≤ (0xFFFFFFFFFFFFFFFF#64).toNat ∧ SealedPlain .ncons nconsSealed) ∧
    (indexSealed.count.toNat ≤ (5#64).toNat ∧ SealedOverflow indexSealed) := by decide

/-- Overflow arrays with one entry too few, and packed arrays with one bit too few: unreachable from
reset. -/
def shortStore (s : State) : State := { s with ovfCount := 1#64 }

theorem hyps_InconsistentArrayRaisesConsistencyError :
    ((4#64).toNat < shortSealed.count.toNat ∧ SealedPlain .cons shortSealed ∧
      shortSealed.cursor.toNat < 4 * shortSealed.config.k.toNat + shortSealed.config.k.toNat) ∧
    (SealedPlain .ncons { nconsSealed with cursor := 18#64 } ∧ 18 < fieldAddrNC 8 4 3 + 3) ∧
    (SealedOverflow { indexSealed with cursor := 18#64 } ∧ 18 < primAddr indexSealed 4 + (2 + 1)) ∧
    (SealedOverflow (shortStore indexSealed) ∧ (shortStore indexSealed).config.ovfMode = false ∧
      primAddr (shortStore indexSealed) 4 + (2 + 1) ≤ (shortStore indexSealed).cursor.toNat ∧
      FieldAt (shortStore indexSealed) (primAddr (shortStore indexSealed) 4) (2 + 1) (2 ^ 2 + 1) ∧
      (shortStore indexSealed).ovfCount.toNat ≤ 1) ∧
    (SealedOverflow (shortStore compactSealed) ∧ (shortStore compactSealed).config.ovfMode = true ∧
      primAddr (shortStore compactSealed) 6 + (3 + 1) ≤ (shortStore compactSealed).cursor.toNat ∧
      FieldAt (shortStore compactSealed) (primAddr (shortStore compactSealed) 6) (3 + 1) (2 ^ 3 + 0) ∧
      (∀ m, m < 6 → ∃ b, readBit (shortStore compactSealed)
        (primAddr (shortStore compactSealed) m) = .ok b) ∧
      (shortStore compactSealed).ovfCount.toNat ≤ flagsBelow (shortStore compactSealed) 6) :=
  ⟨by decide, by decide, by decide,
    ⟨by decide, by decide, by decide, ⟨by decide, by decide⟩, by decide⟩,
    ⟨by decide, by decide, by decide, ⟨by decide, by decide⟩, by decide, by decide⟩⟩

theorem hyps_CodecRoundTrips :
    1 ≤ 4 ∧ InRange true 4 (-7) ∧ InRange true 4 7 ∧ InRange false 4 15 ∧ InRange false 4 0 := by
  decide

theorem hyps_EncodeIsBijectionWithoutHalfCode :
    1 ≤ 4 ∧ InRange true 4 (-7) ∧ 15 < 2 ^ 4 ∧ 15 ≠ 2 ^ (4 - 1) := by decide

theorem hyps_MemReadIsWordSlices :
    ParamsLegal consSealed.params ∧ 1 ≤ 3 ∧ 3 ≤ consSealed.params.w ∧
    readWord consSealed (6 / consSealed.params.w) = .ok 0xAF#64 ∧
    consSealed.params.w < 6 % consSealed.params.w + 3 ∧
    readWord consSealed (6 / consSealed.params.w + 1) = .ok 0x8C#64 ∧
    readWord consSealed (5 / consSealed.params.w) = .ok 0xAF#64 ∧
    5 % consSealed.params.w + 3 ≤ consSealed.params.w := by decide

theorem hyps_MemWriteIsWordSlices :
    ∃ t u, ParamsLegal consOpen.params ∧ 1 ≤ 3 ∧ 3 ≤ consOpen.params.w ∧ 7 < 2 ^ 3 ∧
      6 ≤ consOpen.lenWords.toNat * consOpen.params.w ∧ 0 = 6 / consOpen.params.w ∧
      6 = 6 % consOpen.params.w ∧ memWrite consOpen 6 3 7 = .ok t ∧
      consOpen.params.w < 6 + 3 ∧ memWrite consOpen 8 8 255 = .ok u :=
  ⟨_, _, by decide, by decide, by decide, by decide, by decide, by decide, by decide, rfl, by decide,
    rfl⟩

theorem hyps_WriteThenReadAgrees :
    ∃ t u, ParamsLegal consOpen.params ∧ 7 < 2 ^ 3 ∧ memWrite consOpen 6 3 7 = .ok t ∧
      (∀ f ∈ [((9, 8, 255) : Nat × Nat × Nat), (0, 6, 1)], f.1 + f.2.1 ≤ 6 ∨ 6 + 3 ≤ f.1) ∧
      writeAll t [(9, 8, 255), (0, 6, 1)] = .ok u :=
  ⟨_, _, by decide, by decide, rfl, by decide, rfl⟩

theorem hyps_AccessesTouchAtMostTwoWords :
    ∃ t, ParamsLegal consOpen.params ∧ 1 ≤ 3 ∧ 3 ≤ consOpen.params.w ∧
      6 ≤ consOpen.lenWords.toNat * consOpen.params.w ∧ memWrite consOpen 6 3 7 = .ok t ∧
      2 ≠ 6 / consOpen.params.w ∧ 2 ≠ 6 / consOpen.params.w + 1 ∧
      ({ consOpen with count := 0#64 } : State).params = consOpen.params :=
  ⟨_, by decide, by decide, by decide, by decide, rfl, by decide, by decide, by decide⟩

theorem hyps_PaddingRuleGivesFieldAddress :
    1 ≤ 3 ∧ 3 ≤ nconsOpen.params.w ∧ nconsOpen.cursor.toNat =
      (if nconsOpen.count.toNat = 0 then 0
        else fieldAddrNC nconsOpen.params.w (nconsOpen.count.toNat - 1) 3 + 3) := by decide

theorem blockInv_indexSealed : BlockInv indexSealed :=
  ⟨by decide, by decide, by decide, by decide, by decide, by decide, by decide, by decide, by decide,
    by decide, by decide, by decide, by decide, by decide⟩

theorem arrayInv_indexSealed : ArrayInv indexSealed :=
  ⟨by decide, by decide, by decide, by decide, by decide, by decide, by decide⟩

theorem inv_indexSealed : Inv indexSealed := ⟨blockInv_indexSealed, arrayInv_indexSealed⟩

theorem inv_consSealed : Inv consSealed :=
  ⟨⟨by decide, by decide, by decide, by decide, by decide, by decide, by decide, by decide,
    by decide, by decide, by decide, by decide, by decide, by decide⟩,
   ⟨by decide, by decide, by decide, by decide, by decide, by decide, by decide⟩⟩

theorem inv_ovfOpen_issued : Inv (issued 0x60000000#32 2#64 ovfOpen) :=
  ⟨⟨by decide, by decide, by decide, by decide, by decide, by decide, by decide, by decide,
    by decide, by decide, by decide, by decide, by decide, by decide⟩,
   ⟨by decide, by decide, by decide, by decide, by decide, by decide, by decide⟩⟩

theorem hyps_PackedArrayDensity :
    (Inv indexSealed ∧ indexSealed.state ≠ .empty ∧ indexSealed.config.variant = .ncons ∧
      1 ≤ indexSealed.count.toNat) ∧
    (Inv consSealed ∧ consSealed.state ≠ .empty ∧ consSealed.config.variant = .cons) :=
  ⟨⟨inv_indexSealed, by decide⟩, ⟨inv_consSealed, by decide⟩⟩

theorem hyps_InvariantHoldsAtReset : ParamsLegal p8 := by decide

theorem hyps_StepKeepsBlockInvariant :
    ∃ t, BlockInv (issued 0x60000000#32 2#64 ovfOpen) ∧
      step (issued 0x60000000#32 2#64 ovfOpen) = .next t :=
  ⟨_, inv_ovfOpen_issued.block, rfl⟩

theorem hyps_StepKeepsInvariant :
    ∃ t, Inv (issued 0x60000000#32 2#64 ovfOpen) ∧
      step (issued 0x60000000#32 2#64 ovfOpen) = .next t :=
  ⟨_, inv_ovfOpen_issued, rfl⟩

theorem hyps_InvariantExcludesConsistencyError : Inv indexSealed := inv_indexSealed

theorem hyps_EveryStepCompletes : Inv (issued 0x60000000#32 2#64 ovfOpen) := inv_ovfOpen_issued

/-- A stale word and a stale entry beside an open session. -/
def staleBeside (s : State) : State :=
  { s with words := Memory.set s.words 9 0xFF#64, ovf := Memory.set s.ovf 5 0xFF#64 }

theorem hyps_StaleContentsAreUnobservable :
    ∃ t, Inv (issued 0x60000000#32 2#64 ovfOpen) ∧
      SameObservable (issued 0x60000000#32 2#64 ovfOpen)
        (staleBeside (issued 0x60000000#32 2#64 ovfOpen)) ∧
      step (issued 0x60000000#32 2#64 ovfOpen) = .next t :=
  ⟨_, inv_ovfOpen_issued, ⟨rfl, by decide, by decide⟩, rfl⟩

theorem hyps_CompressOfFittingValuesSeals :
    ParamsLegal (State.resetOf p8).params ∧ (State.resetOf p8).state ≠ .faulted ∧
    1 ≤ (3#7).toNat ∧ (3#7).toNat ≤ (State.resetOf p8).params.w ∧
    (∀ x ∈ [7, 0], InRange false (3#7).toNat x ∧
      -((2 ^ ((State.resetOf p8).params.nativeW - 1) : Nat) : Int) ≤ x ∧
      x < ((2 ^ ((State.resetOf p8).params.nativeW - 1) : Nat) : Int)) ∧
    ([7, 0] : List Int).length * (3#7).toNat ≤
      (State.resetOf p8).params.maxWords * (State.resetOf p8).params.w ∧
    ceilDiv ([7, 0] : List Int).length ((State.resetOf p8).params.w / (3#7).toNat) ≤
      (State.resetOf p8).params.maxWords := by decide

theorem hyps_CompressThenDecompressReturnsValues :
    ∃ t, ParamsLegal (State.resetOf p8).params ∧ (State.resetOf p8).state ≠ .faulted ∧
      (∀ x ∈ [1, -5], -((2 ^ ((State.resetOf p8).params.nativeW - 1) : Nat) : Int) ≤ x ∧
        x < ((2 ^ ((State.resetOf p8).params.nativeW - 1) : Nat) : Int)) ∧
      runSeq (compressSeq (.overflow true false 2#7 true) [1, -5]) (State.resetOf p8) = .next t ∧
      (∀ r ∈ t.responses.take (([1, -5] : List Int).length + 2), r.cause = .noError) :=
  ⟨_, by decide, by decide, by decide, rfl, by decide⟩

theorem hyps_AutoWidthFitsEveryValue :
    (∀ x ∈ [1, -5], (true = true ∨ 0 ≤ x)) ∧ (∀ x ∈ [1, 5], (false = true ∨ (0 : Int) ≤ x)) := by
  decide

end Sys2Proof.Tests
end

section
/-! PROOFS. How a command can end, whatever the command and the state: it raises, it responds, or it
stops with a fault; it is never refused, and it leaves the parameters, ERR_STICKY (unless it raises) and
the port (but for its one response) as they were. -/

namespace Sys2Proof.Machine

/-! ### What a command keeps until it ends -/

/-- `t` has the parameters, ERR_STICKY, the pending actions and the responses of `s`: no write of a
command touches them before the command responds. -/
def KeepsPort (s t : State) : Prop :=
  t.params = s.params ∧ t.errSticky = s.errSticky ∧ t.pending = s.pending ∧
    t.responses = s.responses

theorem KeepsPort.refl (s : State) : KeepsPort s s := ⟨rfl, rfl, rfl, rfl⟩

theorem KeepsPort.trans {s t u : State} (hst : KeepsPort s t) (htu : KeepsPort t u) :
    KeepsPort s u := by
  obtain ⟨hp, he, ha, hr⟩ := hst
  obtain ⟨hp', he', ha', hr'⟩ := htu
  exact ⟨hp'.trans hp, he'.trans he, ha'.trans ha, hr'.trans hr⟩

theorem allocate_keepsPort (s : State) (j : Nat) : KeepsPort s (allocate s j) := by
  rw [allocate_frame]
  exact .refl s

theorem writeBit_keepsPort {s t : State} {p : Nat} {v : Bool} (h : writeBit s p v = .ok t) :
    KeepsPort s t := by
  unfold writeBit at h
  dsimp only at h
  split at h <;> cases h
  exact allocate_keepsPort s _

theorem memWrite_keepsPort {s t : State} {p n v : Nat} (h : memWrite s p n v = .ok t) :
    KeepsPort s t := by
  induction n generalizing s p with
  | zero => cases h; exact .refl _
  | succ n ih =>
    simp only [memWrite] at h
    split at h
    · rename_i hb
      exact (writeBit_keepsPort hb).trans (ih h)
    · cases h

theorem putField_keepsPort {s t : State} {p n v : Nat} (h : putField s p n v = .ok t) :
    KeepsPort s t := by
  obtain ⟨s1, h1, rfl⟩ := putField_cases h
  exact (memWrite_keepsPort h1).trans ⟨rfl, rfl, rfl, rfl⟩

/-! ### The ends of a command -/

/-- How a command run in the state `s` can end (30_encoding.md R71): a raise of the state before its
writes (00_scope.md R10), a response after writes that keep the port, or a fault. -/
inductive Ends (s : State) : Host.Outcome State Fault Refusal → Prop where
  | raised {c : Cause} (hc : c ≠ .noError) : Ends s (.next (raise c s))
  | responded {d : Word} {s1 : State} (hs : KeepsPort s s1) : Ends s (.next (respond d s1))
  | faulted (f : Fault) : Ends s (.fault f)

/-- A meaning is a chain of checks, each raising its cause, before the rest (60_exceptions.md R252). -/
theorem Ends.check {s : State} {o : Host.Outcome State Fault Refusal} {b : Prop} [Decidable b]
    {c : Cause} (hc : c ≠ .noError) (ho : Ends s o) :
    Ends s (if b then .next (raise c s) else o) := by
  split
  · exact .raised hc
  · exact ho

theorem Ends.params {s t : State} (h : Ends s (.next t)) : t.params = s.params := by
  cases h with
  | raised => rfl
  | responded hs => exact hs.1

theorem Ends.not_refused {s : State} {r : Refusal} : ¬ Ends s (.refused r) := nofun

theorem execBegin_ends (width ksmall : BitVec 7) (variant : BitVec 2) (signed ovfEn ovfMode : Bool)
    (s : State) : Ends s (execBegin width ksmall variant signed ovfEn ovfMode s) := by
  unfold execBegin
  refine .check (by decide) ?_
  split
  · exact .raised (by decide)
  · exact .responded (.refl s)

theorem execWriteBits_ends (width : BitVec 7) (a : Word) (s : State) :
    Ends s (execWriteBits width a s) := by
  unfold execWriteBits
  refine .check (by decide) (.check (by decide) (.check (by decide) ?_))
  split
  · rename_i hm
    exact .responded (putField_keepsPort hm)
  · exact .faulted _

theorem execReadBits_ends (width : BitVec 7) (a : Word) (s : State) :
    Ends s (execReadBits width a s) := by
  unfold execReadBits
  refine .check (by decide) (.check (by decide) (.check (by decide) ?_))
  split
  · exact .responded (.refl s)
  · exact .faulted _

theorem packAt_ends (s : State) (start : Nat) (x : Int) : Ends s (packAt s start x) := by
  unfold packAt
  refine .check (by decide) (.check (by decide) ?_)
  split
  · rename_i hm
    exact .responded ((putField_keepsPort hm).trans ⟨rfl, rfl, rfl, rfl⟩)
  · exact .faulted _

theorem unpackAt_ends (s : State) (i start : Nat) : Ends s (unpackAt s i start) := by
  unfold unpackAt
  refine .check (by decide) (.check (by decide) ?_)
  split
  · exact .responded (.refl s)
  · exact .faulted _

theorem packFitting_ends (s : State) (x : Int) : Ends s (packFitting s x) := by
  unfold packFitting
  split
  · rename_i hm
    exact .responded ((putField_keepsPort hm).trans ⟨rfl, rfl, rfl, rfl⟩)
  · exact .faulted _

theorem packOverflowing_ends (s : State) (x : Int) : Ends s (packOverflowing s x) := by
  unfold packOverflowing
  refine .check (by decide) (.check (by decide) ?_)
  split
  · rename_i hm
    exact .responded ((putField_keepsPort hm).trans ⟨rfl, rfl, rfl, rfl⟩)
  · exact .faulted _

theorem execPackOvf_ends (a : Word) (s : State) : Ends s (execPackOvf a s) := by
  unfold execPackOvf
  refine .check (by decide) (.check (by decide) ?_)
  split
  · exact packFitting_ends s _
  · exact packOverflowing_ends s _

theorem unpackEntry_ends (s : State) (j : Nat) : Ends s (unpackEntry s j) := by
  unfold unpackEntry
  refine .check (by decide) ?_
  split
  · exact .responded (.refl s)
  · exact .faulted _

theorem unpackPrimary_ends (s : State) (i f : Nat) : Ends s (unpackPrimary s i f) := by
  unfold unpackPrimary
  split
  · split
    · exact unpackEntry_ends s _
    · exact .faulted _
  · exact .responded (.refl s)

theorem execUnpackOvf_ends (a : Word) (s : State) : Ends s (execUnpackOvf a s) := by
  unfold execUnpackOvf
  refine .check (by decide) (.check (by decide) (.check (by decide) ?_))
  split
  · exact unpackPrimary_ends s _ _
  · exact .faulted _

theorem execEnd_ends (s : State) : Ends s (execEnd s) := .check (by decide) (.responded (.refl s))

theorem execRdreg_ends (r : BitVec 4) (s : State) : Ends s (execRdreg r s) := by
  unfold execRdreg
  split
  · exact .responded (.refl s)
  · exact .raised (by decide)

/-- Every instruction ends in one of the three ways, in every state. -/
theorem exec_ends (i : Instr) (s : State) : Ends s (exec i s) := by
  cases i with
  | beginSession width ksmall variant signed ovfEn ovfMode =>
    exact execBegin_ends width ksmall variant signed ovfEn ovfMode s
  | writeBits width value => exact execWriteBits_ends width value s
  | readBits width offset => exact execReadBits_ends width offset s
  | packCons element => exact .check (by decide) (packAt_ends s _ _)
  | packNcons element => exact .check (by decide) (packAt_ends s _ _)
  | packOvf element => exact execPackOvf_ends element s
  | endSession => exact execEnd_ends s
  | unpackCons index => exact .check (by decide) (unpackAt_ends s _ _)
  | unpackNcons index => exact .check (by decide) (unpackAt_ends s _ _)
  | unpackOvf index => exact execUnpackOvf_ends index s
  | rdreg reg => exact execRdreg_ends reg s

/-! ### The equations of a command taken from the port and of a step -/

theorem runCommand_of_ok {h : Header} {a : Word} {i : Instr} (hd : decode h a = .ok i) (s : State) :
    runCommand h a s = exec i s := by
  unfold runCommand
  rw [hd]

theorem runCommand_of_error {h : Header} {a : Word} {e : Illegal} (hd : decode h a = .error e)
    (s : State) : runCommand h a s = .next (raise .illegalCommand s) := by
  unfold runCommand
  rw [hd]

theorem runCommand_ends (h : Header) (a : Word) (s : State) : Ends s (runCommand h a s) := by
  cases hd : decode h a with
  | ok i =>
    rw [runCommand_of_ok hd]
    exact exec_ends i s
  | error e =>
    rw [runCommand_of_error hd]
    exact .raised (by decide)

theorem step_of_illegal {s : State} (hp : ¬ ParamsLegal s.params) :
    step s = .refused .illegalParameters := if_neg hp

theorem step_of_idle {s : State} (hp : ParamsLegal s.params) (hpend : s.pending = []) :
    step s = .next s := by
  unfold step takeAction
  rw [if_pos hp, hpend]

theorem step_of_reset {s : State} {rest : List HostAction} (hp : ParamsLegal s.params)
    (hpend : s.pending = .reset :: rest) :
    step s = .next (resetBlock { s with pending := rest }) := by
  unfold step takeAction
  rw [if_pos hp, hpend]

theorem step_of_command {s : State} {h : Header} {a : Word} {rest : List HostAction}
    (hp : ParamsLegal s.params) (hpend : s.pending = .command h a :: rest) :
    step s = runCommand h a { s with pending := rest } := by
  unfold step takeAction
  rw [if_pos hp, hpend]

/-- A block with legal parameters is never refused, whatever the host's next action. -/
theorem step_ne_refused {s : State} (hp : ParamsLegal s.params) (r : Refusal) :
    step s ≠ .refused r := by
  intro hr
  match hpend : s.pending with
  | [] => rw [step_of_idle hp hpend] at hr; cases hr
  | .reset :: rest => rw [step_of_reset hp hpend] at hr; cases hr
  | .command h a :: rest =>
    rw [step_of_command hp hpend] at hr
    exact Ends.not_refused (hr ▸ runCommand_ends h a _)

theorem step_eq_refused_iff {s : State} :
    step s = .refused .illegalParameters ↔ ¬ ParamsLegal s.params :=
  ⟨fun hr hp => step_ne_refused hp _ hr, step_of_illegal⟩

theorem not_paramsLegal_iff {p : Params} :
    ¬ ParamsLegal p ↔ p.w < 1 ∨ 64 < p.w ∨ p.nativeW < 1 ∨ 64 < p.nativeW ∨
      2 ^ 64 ≤ p.maxWords * p.w ∨ 2 ^ 64 ≤ p.maxOvf := by
  simp only [ParamsLegal, not_and_or, not_le, not_lt]

end Sys2Proof.Machine
end

section
/-! PROOFS. The statements of 00_scope.md: what a step runs, which tuples it refuses, and that it keeps
the parameters. -/

namespace Sys2Proof.Claims

open Sys2Proof Sys2Proof.Machine

/-- Settles O5, by the two equations of a step with a command pending. -/
theorem stepRunsDecodedInstruction : Obligations.StepRunsDecodedInstruction := by
  intro s h a rest i hp hpend hd
  rw [step_of_command hp hpend, runCommand_of_ok hd]

/-- Settles O9: the six bounds are the negation of `ParamsLegal`, and no other refusal arises since
every command ends in a next state or a fault. -/
theorem illegalParametersAreRefused : Obligations.IllegalParametersAreRefused := by
  intro s
  rw [step_eq_refused_iff, not_paramsLegal_iff]

/-- Settles O11, by the four cases of a step: idle, reset, a header that is no command, a command. -/
theorem noStepChangesParameters : Obligations.NoStepChangesParameters := by
  intro s t h
  obtain ⟨-, ⟨-, rfl⟩ | ⟨rest, -, rfl⟩ | ⟨c, a, e, rest, -, -, rfl⟩ | ⟨c, a, i, rest, -, -, hi⟩⟩ :=
    step_cases h
  · rfl
  · exact resetBlock_params _
  · exact raise_params _ _
  · have hends : Ends { s with pending := rest } (.next t) := hi ▸ exec_ends i _
    exact hends.params

end Sys2Proof.Claims
end

section
/-! PROOFS. ERR_STICKY (10_state.md R33): what a command from the port and a reset leave in it. -/

namespace Sys2Proof.Machine

/-- ERR_STICKY after a command: the cause's bit is added to it, and nothing by a response. -/
theorem Ends.errSticky {s t : State} (h : Ends s (.next t)) :
    (t.lastCause = .noError ∧ t.errSticky = s.errSticky) ∨
    (t.lastCause ≠ .noError ∧ t.errSticky = stickyAfter t.lastCause s.errSticky) := by
  cases h with
  | raised hc => exact .inr ⟨hc, rfl⟩
  | responded hs =>
    obtain ⟨-, hsticky, -, -⟩ := hs
    exact .inl ⟨rfl, hsticky⟩

/-- A raise sets its cause's bit and no other, where bit 0 is 0 as it is wired (10_state.md R33). -/
theorem stickyAfter_getLsbD_of_zero {c : Cause} (hc : c ≠ .noError) {e : BitVec 8}
    (he : e.getLsbD 0 = false) {b : Nat} (hb : b < 8) :
    (stickyAfter c e).getLsbD b = (e.getLsbD b || decide (b = (causeCode c).toNat)) := by
  rw [stickyAfter_getLsbD c e hb]
  by_cases h0 : b = 0
  · subst h0
    have hcode : 0 ≠ (causeCode c).toNat := by
      revert hc
      cases c <;> decide
    rw [he, decide_eq_false hcode]
    rfl
  · simp [h0]

end Sys2Proof.Machine

namespace Sys2Proof.Claims

open Sys2Proof Sys2Proof.Machine

/-- Settles O14: a command's two ends that answer a next state are a response, which leaves ERR_STICKY,
and a raise, which adds its cause's bit. -/
theorem errStickyAccumulatesUntilReset : Obligations.ErrStickyAccumulatesUntilReset := by
  refine ⟨fun s t h a rest hzero hpend hstep => ?_, fun s t rest hpend hstep => ?_⟩
  · obtain ⟨hp, -⟩ := step_cases hstep
    have hends : Ends { s with pending := rest } (.next t) := by
      rw [← hstep, step_of_command hp hpend]
      exact runCommand_ends h a _
    obtain ⟨hc, he⟩ | ⟨hc, he⟩ := hends.errSticky
    · exact ⟨he ▸ hzero, fun _ => he, fun hne => absurd hc hne⟩
    · rw [he]
      exact ⟨stickyAfter_zero _ _, fun h0 => absurd h0 hc,
        fun _ b hb => stickyAfter_getLsbD_of_zero hc hzero hb⟩
  · obtain ⟨hp, -⟩ := step_cases hstep
    rw [step_of_reset hp hpend] at hstep
    cases hstep
    exact resetBlock_errSticky _

end Sys2Proof.Claims
end

section
/-! PROOFS. What a command can do to the block, as one relation: `Effect s t` lists every change of the
registers and memories, so that a property every effect keeps is one every command keeps. -/

namespace Sys2Proof.Machine

/-! ### Field values -/

/-- The field value of an element that fits k bits is a k-bit number (44_signed_codec.md R205). -/
theorem fieldOf_lt {signed : Bool} {x : Int} {k : Nat} (h : fits signed x k = true) :
    fieldOf signed x k < 2 ^ k := by
  have hpow : 0 < 2 ^ k := Nat.two_pow_pos k
  cases signed with
  | false =>
    have hx : 0 ≤ x ∧ x ≤ ((2 ^ k : Nat) - 1 : Int) := by simpa [fits, fitsU] using h
    change x.toNat < 2 ^ k
    omega
  | true =>
    have hx : -((2 ^ (k - 1) : Nat) - 1 : Int) ≤ x ∧ x ≤ ((2 ^ (k - 1) : Nat) - 1 : Int) :=
      of_decide_eq_true h
    have hhalf : k = 0 ∨ 2 ^ k = 2 ^ (k - 1) + 2 ^ (k - 1) := by
      cases k with
      | zero => exact .inl rfl
      | succ k => exact .inr (by rw [Nat.pow_succ, Nat.add_sub_cancel]; omega)
    change encodeS x k < 2 ^ k
    unfold encodeS
    rcases hhalf with rfl | hhalf
    · simp only [Nat.zero_sub, Nat.pow_zero] at hx ⊢
      split <;> omega
    · split <;> omega

theorem overflowPayload_lt {s : State} (h : overflowPayload s ≤ 2 ^ ksOf s - 1) :
    overflowPayload s < 2 ^ ksOf s := by
  have := Nat.two_pow_pos (ksOf s)
  omega

/-! ### The width and the place of the next element's field -/

/-- Where the next element's field starts: NextStart in an NCONS layout, CURSOR otherwise
(41_consecutive.md R131, 42_non_consecutive.md R152, 43_overflow.md R171). -/
def packStart (s : State) : Nat :=
  if s.config.variant = .ncons then nextStart s (elemWidth s) else s.cursor.toNat

theorem elemWidth_of_plain {s : State} (h : s.config.ovfEn = false) :
    elemWidth s = s.config.k.toNat := by
  simp [elemWidth, h]

theorem elemWidth_of_overflow {s : State} (h : s.config.ovfEn = true) : elemWidth s = kpOf s := by
  simp [elemWidth, h]

theorem elemAddr_of_overflow {s : State} (h : s.config.ovfEn = true) (i : Nat) :
    elemAddr s i = primAddr s i := by
  simp [elemAddr, primAddr, elemWidth_of_overflow h]

theorem primStart_eq_packStart {s : State} (h : s.config.ovfEn = true) :
    primStart s = packStart s := by
  simp [primStart, packStart, elemWidth_of_overflow h]

/-! ### The effects -/

/-- Every next state a command run in the state `s` can answer, with what its checks have found. -/
inductive Effect (s : State) : State → Prop where
  /-- A raise that leaves STATE (60_exceptions.md R255). -/
  | rejected {c : Cause} (hc : stateAfter c s.state = s.state) : Effect s (raise c s)
  /-- A raise that ends the open session (60_exceptions.md R256). -/
  | aborted {c : Cause} (hc : c = .rangeError ∨ c = .capacityError) (hst : s.state = .packing) :
      Effect s (raise c s)
  /-- An element's field would end past CURSOR (41_consecutive.md R132, 42_non_consecutive.md R153,
  43_overflow.md R175). -/
  | fieldPastCursor {i : Nat} (hst : s.state = .sealed) (hv : s.config.variant ≠ .raw)
      (hi : i < s.count.toNat) (hc : s.cursor.toNat < elemAddr s i + elemWidth s) :
      Effect s (raise .consistencyError s)
  /-- A flagged element's entry would lie past OVF_COUNT (10_state.md R37). -/
  | entryPastStore {i f j : Nat} (hst : s.state = .sealed) (hen : s.config.ovfEn = true)
      (hi : i < s.count.toNat) (hf : FieldAt s (primAddr s i) (kpOf s) f)
      (hflag : f.testBit (ksOf s) = true)
      (hj : overflowPosition s i (f % 2 ^ ksOf s) = .ok j) (hc : s.ovfCount.toNat ≤ j) :
      Effect s (raise .consistencyError s)
  /-- A read: nothing but the response (20_memory.md R59). -/
  | responded (d : Word) : Effect s (respond d s)
  /-- BEGIN of a legal form (45_session_control.md R222). -/
  | opened {c : ConfigReg} (hc : legalForm s.params c = true) :
      Effect s (respond 0#64 (openSession c s))
  /-- END (45_session_control.md R224). -/
  | ended (hst : s.state = .packing) : Effect s (respond 0#64 { s with state := .sealed })
  /-- WRITE_BITS (40_word_buffer.md R104). -/
  | written {s1 : State} {n v : Nat} (hst : s.state = .packing) (hraw : s.config.variant = .raw)
      (hn : 1 ≤ n) (hv : v < 2 ^ n) (hc : s.cursor.toNat + n ≤ capacityBits s.params)
      (hs : putField s s.cursor.toNat n v = .ok s1) : Effect s (respond 0#64 s1)
  /-- An element is appended as a field, unflagged in an overflow session (41_consecutive.md R131,
  42_non_consecutive.md R152, 43_overflow.md R172). -/
  | packed {s1 : State} {v : Nat} (hst : s.state = .packing) (hvar : s.config.variant ≠ .raw)
      (hv : v < 2 ^ elemWidth s) (hflag : s.config.ovfEn = true → v < 2 ^ ksOf s)
      (hc : packStart s + elemWidth s ≤ capacityBits s.params)
      (hs : putField s (packStart s) (elemWidth s) v = .ok s1) :
      Effect s (respond 0#64 { s1 with count := s1.count + 1#64 })
  /-- An element is appended as a flagged field and an overflow entry (43_overflow.md R173, R174). -/
  | overflowed {s1 : State} {e : Word} (hst : s.state = .packing) (hvar : s.config.variant ≠ .raw)
      (hen : s.config.ovfEn = true) (hroom : s.ovfCount.toNat < s.params.maxOvf)
      (hpay : overflowPayload s < 2 ^ ksOf s) (he : e.toNat < 2 ^ s.params.nativeW)
      (hc : packStart s + elemWidth s ≤ capacityBits s.params)
      (hs : putField s (packStart s) (elemWidth s) (2 ^ ksOf s + overflowPayload s) = .ok s1) :
      Effect s (respond 0#64 { ovfAppend s1 e with count := s1.count + 1#64 })

theorem Effect.stateError (s : State) : Effect s (raise .stateError s) := .rejected rfl

theorem legalForm_of_configOf {p : Params} {width ksmall : BitVec 7} {variant : BitVec 2}
    {signed ovfEn ovfMode : Bool} {c : ConfigReg}
    (h : configOf p width ksmall variant signed ovfEn ovfMode = some c) : legalForm p c = true := by
  unfold configOf at h
  split at h
  · cases h
  · dsimp only at h
    split at h <;> cases h
    assumption

theorem execBegin_effect {width ksmall : BitVec 7} {variant : BitVec 2} {signed ovfEn ovfMode : Bool}
    {s t : State} (h : execBegin width ksmall variant signed ovfEn ovfMode s = .next t) :
    Effect s t := by
  obtain ⟨-, rfl⟩ | ⟨-, -, rfl⟩ | ⟨c, -, hc, rfl⟩ := execBegin_cases h
  · exact .stateError s
  · exact .rejected rfl
  · exact .opened (legalForm_of_configOf hc)

theorem execWriteBits_effect {width : BitVec 7} {a : Word} {s t : State}
    (h : execWriteBits width a s = .next t) : Effect s t := by
  obtain ⟨-, rfl⟩ | ⟨-, -, rfl⟩ | ⟨hl, -, -, rfl⟩ | ⟨s1, hl, hw, hc, hs, rfl⟩ := execWriteBits_cases h
  · exact .stateError s
  · exact .rejected rfl
  · exact .aborted (.inr rfl) (legal_writeBits.1 hl).1
  · obtain ⟨hst, hraw⟩ := legal_writeBits.1 hl
    obtain ⟨hn, -⟩ : 1 ≤ width.toNat ∧ width.toNat ≤ s.params.w := of_decide_eq_true hw
    exact .written hst hraw hn (Nat.mod_lt _ (Nat.two_pow_pos _)) hc hs

theorem execReadBits_effect {width : BitVec 7} {a : Word} {s t : State}
    (h : execReadBits width a s = .next t) : Effect s t := by
  obtain ⟨-, rfl⟩ | ⟨-, -, rfl⟩ | ⟨-, -, -, rfl⟩ | ⟨u, -, -, -, -, rfl⟩ := execReadBits_cases h
  · exact .stateError s
  · exact .rejected rfl
  · exact .rejected rfl
  · exact .responded _

/-- What PACK_CONS and PACK_NCONS share, once their field goes to the next element's place. -/
theorem packAt_effect {s t : State} {x : Int} (hst : s.state = .packing)
    (hvar : s.config.variant ≠ .raw) (hen : s.config.ovfEn = false)
    (h : packAt s (packStart s) x = .next t) : Effect s t := by
  obtain ⟨-, rfl⟩ | ⟨-, -, rfl⟩ | ⟨s1, hf, hc, hs, rfl⟩ := packAt_cases h
  · exact .aborted (.inl rfl) hst
  · exact .aborted (.inr rfl) hst
  · rw [← elemWidth_of_plain hen] at hf hc hs
    exact .packed hst hvar (fieldOf_lt hf) (by simp [hen]) hc hs

theorem execPackCons_effect {a : Word} {s t : State} (h : execPackCons a s = .next t) :
    Effect s t := by
  obtain ⟨-, rfl⟩ | ⟨hl, hpack⟩ := execPackCons_cases h
  · exact .stateError s
  · obtain ⟨hst, hvar, hen⟩ := legal_packCons.1 hl
    have hplace : s.cursor.toNat = packStart s := by simp [packStart, hvar]
    exact packAt_effect hst (by simp [hvar]) hen (hplace ▸ hpack)

theorem execPackNcons_effect {a : Word} {s t : State} (h : execPackNcons a s = .next t) :
    Effect s t := by
  obtain ⟨-, rfl⟩ | ⟨hl, hpack⟩ := execPackNcons_cases h
  · exact .stateError s
  · obtain ⟨hst, hvar, hen⟩ := legal_packNcons.1 hl
    have hplace : nextStart s s.config.k.toNat = packStart s := by
      simp [packStart, hvar, elemWidth_of_plain hen]
    exact packAt_effect hst (by simp [hvar]) hen (hplace ▸ hpack)

/-- A pattern of n bits is an n-bit number, also as a 64-bit cell. -/
theorem pat_cell_lt (n : Nat) (x : Int) : (BitVec.ofNat 64 (pat n x)).toNat < 2 ^ n := by
  have hpow := Nat.two_pow_pos n
  have hpat : pat n x < 2 ^ n := by
    unfold pat
    have hlo := Int.emod_nonneg x (b := (2 ^ n : Nat)) (by omega)
    have hhi := Int.emod_lt_of_pos x (b := (2 ^ n : Nat)) (by omega)
    omega
  rw [BitVec.toNat_ofNat]
  exact Nat.lt_of_le_of_lt (Nat.mod_le _ _) hpat

theorem execPackOvf_effect {a : Word} {s t : State} (h : execPackOvf a s = .next t) :
    Effect s t := by
  obtain ⟨-, rfl⟩ | ⟨hl, -, rfl⟩ | ⟨hl, hc, hf, hpack⟩ | ⟨hl, hc, -, hpack⟩ := execPackOvf_cases h
  · exact .stateError s
  · exact .aborted (.inr rfl) (legal_packOvf.1 hl).1
  · obtain ⟨hst, hvar, hen⟩ := legal_packOvf.1 hl
    obtain ⟨s1, hs, rfl⟩ := packFitting_cases hpack
    rw [primStart_eq_packStart hen, ← elemWidth_of_overflow hen] at hc hs
    have hv := fieldOf_lt hf
    have hle : 2 ^ ksOf s ≤ 2 ^ elemWidth s :=
      Nat.pow_le_pow_right (by omega) (by rw [elemWidth_of_overflow hen]; exact Nat.le_succ _)
    exact .packed hst hvar (Nat.lt_of_lt_of_le hv hle) (fun _ => hv) hc hs
  · obtain ⟨hst, hvar, hen⟩ := legal_packOvf.1 hl
    rw [primStart_eq_packStart hen, ← elemWidth_of_overflow hen] at hc
    obtain ⟨-, rfl⟩ | ⟨-, -, rfl⟩ | ⟨s1, hroom, hpay, hs, rfl⟩ := packOverflowing_cases hpack
    · exact .aborted (.inr rfl) hst
    · exact .aborted (.inr rfl) hst
    · rw [primStart_eq_packStart hen, ← elemWidth_of_overflow hen] at hs
      exact .overflowed hst hvar hen hroom (overflowPayload_lt hpay) (pat_cell_lt _ _) hc hs

/-- What UNPACK_CONS and UNPACK_NCONS share, once their field is element i's. -/
theorem unpackAt_effect {s t : State} {i : Nat} (hst : s.state = .sealed)
    (hvar : s.config.variant ≠ .raw) (hen : s.config.ovfEn = false)
    (h : unpackAt s i (elemAddr s i) = .next t) : Effect s t := by
  obtain ⟨-, rfl⟩ | ⟨hi, hc, rfl⟩ | ⟨u, -, -, -, rfl⟩ := unpackAt_cases h
  · exact .rejected rfl
  · rw [← elemWidth_of_plain hen] at hc
    exact .fieldPastCursor hst hvar hi hc
  · exact .responded _

theorem execUnpackCons_effect {a : Word} {s t : State} (h : execUnpackCons a s = .next t) :
    Effect s t := by
  obtain ⟨-, rfl⟩ | ⟨hl, hread⟩ := execUnpackCons_cases h
  · exact .stateError s
  · obtain ⟨hst, hvar, hen⟩ := legal_unpackCons.1 hl
    have hplace : indexOperand a * s.config.k.toNat = elemAddr s (indexOperand a) := by
      simp [elemAddr, hvar, elemWidth_of_plain hen]
    exact unpackAt_effect hst (by simp [hvar]) hen (hplace ▸ hread)

theorem execUnpackNcons_effect {a : Word} {s t : State} (h : execUnpackNcons a s = .next t) :
    Effect s t := by
  obtain ⟨-, rfl⟩ | ⟨hl, hread⟩ := execUnpackNcons_cases h
  · exact .stateError s
  · obtain ⟨hst, hvar, hen⟩ := legal_unpackNcons.1 hl
    have hplace : fieldAddrNC s.params.w (indexOperand a) s.config.k.toNat =
        elemAddr s (indexOperand a) := by
      simp [elemAddr, hvar, elemWidth_of_plain hen]
    exact unpackAt_effect hst (by simp [hvar]) hen (hplace ▸ hread)

theorem execUnpackOvf_effect {a : Word} {s t : State} (h : execUnpackOvf a s = .next t) :
    Effect s t := by
  obtain ⟨-, rfl⟩ | ⟨-, -, rfl⟩ | ⟨hl, hi, hc, rfl⟩ | ⟨f, hl, hi, -, hf, hread⟩ :=
    execUnpackOvf_cases h
  · exact .stateError s
  · exact .rejected rfl
  · obtain ⟨hst, hvar, hen⟩ := legal_unpackOvf.1 hl
    rw [← elemAddr_of_overflow hen, ← elemWidth_of_overflow hen] at hc
    exact .fieldPastCursor hst hvar hi hc
  · obtain ⟨hst, -, hen⟩ := legal_unpackOvf.1 hl
    obtain ⟨-, rfl⟩ | ⟨j, hflag, hj, hentry⟩ := unpackPrimary_cases hread
    · exact .responded _
    · obtain ⟨hge, rfl⟩ | ⟨e, -, -, rfl⟩ := unpackEntry_cases hentry
      · exact .entryPastStore hst hen hi (memRead_eq_ok.1 hf) hflag hj hge
      · exact .responded _

theorem execEnd_effect {s t : State} (h : execEnd s = .next t) : Effect s t := by
  obtain ⟨-, rfl⟩ | ⟨hst, rfl⟩ := execEnd_cases h
  · exact .stateError s
  · exact .ended hst

theorem execRdreg_effect {r : BitVec 4} {s t : State} (h : execRdreg r s = .next t) :
    Effect s t := by
  obtain ⟨-, rfl⟩ | ⟨d, -, rfl⟩ := execRdreg_cases h
  · exact .rejected rfl
  · exact .responded d

/-- Every next state of a command is one of the listed effects. -/
theorem exec_effect {i : Instr} {s t : State} (h : exec i s = .next t) : Effect s t := by
  cases i with
  | beginSession => exact execBegin_effect h
  | writeBits => exact execWriteBits_effect h
  | readBits => exact execReadBits_effect h
  | packCons => exact execPackCons_effect h
  | packNcons => exact execPackNcons_effect h
  | packOvf => exact execPackOvf_effect h
  | endSession => exact execEnd_effect h
  | unpackCons => exact execUnpackCons_effect h
  | unpackNcons => exact execUnpackNcons_effect h
  | unpackOvf => exact execUnpackOvf_effect h
  | rdreg => exact execRdreg_effect h

/-- What a step can do: hold the state, reset the block, or one effect of the command it takes. -/
theorem step_effect {s t : State} (h : step s = .next t) :
    t = s ∨ ∃ rest, t = resetBlock { s with pending := rest } ∨
      Effect { s with pending := rest } t := by
  obtain ⟨-, ⟨-, rfl⟩ | ⟨rest, -, rfl⟩ | ⟨c, a, e, rest, -, -, rfl⟩ | ⟨c, a, i, rest, -, -, hi⟩⟩ :=
    step_cases h
  · exact .inl rfl
  · exact .inr ⟨rest, .inl rfl⟩
  · exact .inr ⟨rest, .inr (.rejected rfl)⟩
  · exact .inr ⟨rest, .inr (exec_effect hi)⟩

end Sys2Proof.Machine
end

section
/-! PROOFS. Every step keeps the invariant of the registers and memories: one lemma per update a command
makes, then one case per effect. -/

namespace Sys2Proof.Machine

/-! ### Arithmetic of words and bits -/

theorem ceilDiv_zero {b : Nat} (hb : 1 ≤ b) : ceilDiv 0 b = 0 :=
  Nat.div_eq_of_lt (by omega)

theorem le_ceilDiv_mul {b : Nat} (hb : 1 ≤ b) (a : Nat) : a ≤ ceilDiv a b * b := by
  have hdiv := Nat.div_add_mod (a + b - 1) b
  have hmod := Nat.mod_lt (a + b - 1) hb
  rw [Nat.mul_comm] at hdiv
  unfold ceilDiv
  omega

theorem ceilDiv_le {a b n : Nat} (hb : 1 ≤ b) (h : a ≤ n * b) : ceilDiv a b ≤ n := by
  refine Nat.lt_succ_iff.1 ((Nat.div_lt_iff_lt_mul hb).2 ?_)
  rw [Nat.succ_mul]
  omega

theorem ceilDiv_mono {a a' : Nat} (b : Nat) (h : a ≤ a') : ceilDiv a b ≤ ceilDiv a' b :=
  Nat.div_le_div_right (by omega)

/-- A 64-bit counter below a 64-bit bound counts one up without a wrap (assumption log 5). -/
theorem toNat_add_one {x : Word} {m : Nat} (hx : x.toNat < m) (hm : m < 2 ^ 64) :
    (x + 1#64).toNat = x.toNat + 1 := by
  rw [BitVec.toNat_add]
  exact Nat.mod_eq_of_lt (by simp; omega)

/-! ### The room a field needs -/

/-- A field of n bits with the value v may be written at `start`, at or past CURSOR: in the words
allocated or the next one, and within capacity (40_word_buffer.md R100, R103). -/
structure CanAppend (s : State) (start n v : Nat) : Prop where
  width : 1 ≤ n
  value : v < 2 ^ n
  fromCursor : s.cursor.toNat ≤ start
  reach : start ≤ s.lenWords.toNat * s.params.w
  room : start + n ≤ capacityBits s.params

theorem BlockInv.cursor_le {s : State} (h : BlockInv s) :
    s.cursor.toNat ≤ s.lenWords.toNat * s.params.w :=
  h.length ▸ le_ceilDiv_mul h.params.bounds.1 _

theorem BlockInv.lenWords_le {s : State} (h : BlockInv s) :
    s.lenWords.toNat ≤ s.params.maxWords :=
  h.length ▸ ceilDiv_le h.params.bounds.1 h.capacity

/-- The configuration is legal once a session was opened (45_session_control.md R221). -/
theorem BlockInv.legalForm_of_ne_empty {s : State} (h : BlockInv s) (hst : s.state ≠ .empty) :
    legalForm s.params s.config = true := h.form.resolve_left hst

/-- The padding rule of 42_non_consecutive.md R150 stays within the allocated words. -/
theorem BlockInv.nextStart_bounds {s : State} (h : BlockInv s) (k : Nat) :
    s.cursor.toNat ≤ nextStart s k ∧ nextStart s k ≤ s.lenWords.toNat * s.params.w := by
  have hcur := h.cursor_le
  unfold nextStart
  rw [← h.length]
  split
  · exact ⟨hcur, Nat.le_refl _⟩
  · exact ⟨Nat.le_refl _, hcur⟩

/-- An array's fields have at least one bit and fit one word (45_session_control.md R221). -/
theorem elemWidth_bounds {s : State} (hform : legalForm s.params s.config = true)
    (hvar : s.config.variant ≠ .raw) : 1 ≤ elemWidth s ∧ elemWidth s ≤ s.params.w := by
  have hforms : plainForm s.params s.config = true ∨ overflowForm s.params s.config = true := by
    unfold legalForm at hform
    cases hv : s.config.variant with
    | raw => exact absurd hv hvar
    | cons => simpa [hv] using hform
    | ncons => simpa [hv] using hform
  rcases hforms with hplain | hovf
  · simp only [plainForm, Bool.and_eq_true, Bool.not_eq_true', decide_eq_true_eq] at hplain
    obtain ⟨⟨hen, -⟩, hlo, hhi, -⟩ := hplain
    rw [elemWidth_of_plain hen]
    exact ⟨hlo, hhi⟩
  · simp only [overflowForm, Bool.and_eq_true, decide_eq_true_eq] at hovf
    obtain ⟨hen, -, -, -, hhi⟩ := hovf
    rw [elemWidth_of_overflow hen]
    exact ⟨Nat.le_add_left 1 _, hhi⟩

/-- The room the pack commands check for is what appending the next element's field needs. -/
theorem BlockInv.canAppend_element {s : State} {v : Nat} (h : BlockInv s) (hst : s.state = .packing)
    (hvar : s.config.variant ≠ .raw) (hv : v < 2 ^ elemWidth s)
    (hc : packStart s + elemWidth s ≤ capacityBits s.params) :
    CanAppend s (packStart s) (elemWidth s) v := by
  obtain ⟨hlo, -⟩ := elemWidth_bounds (h.legalForm_of_ne_empty (by simp [hst])) hvar
  have hplace : s.cursor.toNat ≤ packStart s ∧ packStart s ≤ s.lenWords.toNat * s.params.w := by
    unfold packStart
    split
    · exact h.nextStart_bounds _
    · exact ⟨Nat.le_refl _, h.cursor_le⟩
  obtain ⟨hfrom, hreach⟩ := hplace
  exact ⟨hlo, hv, hfrom, hreach, hc⟩

/-- A flagged field's value {1, payload} (43_overflow.md R170). -/
theorem flagged_lt {s : State} (hen : s.config.ovfEn = true) (hpay : overflowPayload s < 2 ^ ksOf s) :
    2 ^ ksOf s + overflowPayload s < 2 ^ elemWidth s := by
  rw [elemWidth_of_overflow hen, kpOf, Nat.pow_succ]
  omega

/-! ### What a written field leaves in the registers -/

section putField

variable {s t : State} {p n v : Nat}

theorem putField_params (hp : ParamsLegal s.params) (h : putField s p n v = .ok t) :
    t.params = s.params := by
  rw [putField_frame hp h]

theorem putField_state (hp : ParamsLegal s.params) (h : putField s p n v = .ok t) :
    t.state = s.state := by
  rw [putField_frame hp h]

theorem putField_config (hp : ParamsLegal s.params) (h : putField s p n v = .ok t) :
    t.config = s.config := by
  rw [putField_frame hp h]

theorem putField_count (hp : ParamsLegal s.params) (h : putField s p n v = .ok t) :
    t.count = s.count := by
  rw [putField_frame hp h]

theorem putField_ovfCount (hp : ParamsLegal s.params) (h : putField s p n v = .ok t) :
    t.ovfCount = s.ovfCount := by
  rw [putField_frame hp h]

theorem putField_errSticky (hp : ParamsLegal s.params) (h : putField s p n v = .ok t) :
    t.errSticky = s.errSticky := by
  rw [putField_frame hp h]

theorem putField_ovf (hp : ParamsLegal s.params) (h : putField s p n v = .ok t) :
    t.ovf = s.ovf := by
  rw [putField_frame hp h]

/-- WORDS stays an array of MAX_WORDS words of W bits, with a value in every allocated word. -/
theorem putField_words (hs : BlockInv s) (h : putField s p n v = .ok t) :
    Memory.wf t.words = true ∧ Memory.within s.params.maxWords s.params.w t.words = true ∧
      ∀ q, q < t.lenWords.toNat → (Memory.get t.words q).isSome = true := by
  obtain ⟨s1, hm, rfl⟩ := putField_cases h
  have hwf := memWrite_wf hm hs.wordsWf
  have hin := memWrite_within hs.params hm hs.lenWords_le hs.wordsIn
  have hlisted := memWrite_listed hs.params hm hs.listed
  exact ⟨hwf, hin, hlisted⟩

end putField

/-! ### What a field written past CURSOR leaves -/

theorem CanAppend.stored {s t : State} {start n v : Nat} (h : BlockInv s)
    (ha : CanAppend s start n v) (hs : putField s start n v = .ok t) : FieldStored s t start n v :=
  putField_stored h.params ha.width ha.value ha.reach hs

/-- CURSOR stands past the field: no wrap, since the field lies within capacity. -/
theorem CanAppend.cursor {s t : State} {start n v : Nat} (h : BlockInv s)
    (ha : CanAppend s start n v) (hs : putField s start n v = .ok t) :
    t.cursor.toNat = start + n := by
  obtain ⟨-, -, -, -, hcap, -⟩ := h.params
  have hroom : start + n ≤ s.params.maxWords * s.params.w := ha.room
  obtain ⟨s1, -, rfl⟩ := putField_cases hs
  exact Nat.mod_eq_of_lt (by omega)

/-- The bits before CURSOR stay. -/
theorem CanAppend.kept {s t : State} {start n v : Nat} (h : BlockInv s)
    (ha : CanAppend s start n v) (hs : putField s start n v = .ok t) {p : Nat}
    (hp : p < s.cursor.toNat) : readBit t p = readBit s p :=
  (ha.stored h hs).kept p (Nat.lt_of_lt_of_le hp h.cursor_le)
    (.inl (Nat.lt_of_lt_of_le hp ha.fromCursor))

/-- Every other bit at or past CURSOR of an allocated word reads 0 (40_word_buffer.md R100,
10_state.md R38). -/
theorem CanAppend.blank {s t : State} {start n v : Nat} (h : BlockInv s)
    (ha : CanAppend s start n v) (hs : putField s start n v = .ok t) {p : Nat}
    (hlo : s.cursor.toNat ≤ p) (hhi : p < t.lenWords.toNat * s.params.w)
    (ho : p < start ∨ start + n ≤ p) : readBit t p = .ok false := by
  have hst := ha.stored h hs
  by_cases hp : p < s.lenWords.toNat * s.params.w
  · rw [hst.kept p hp ho]
    exact h.tail p hlo hp
  · exact hst.fill p (Nat.le_of_not_lt hp) hhi ho

/-! ### The updates that keep the invariant -/

/-- A change of the status registers and the port keeps the invariant where it neither enters nor leaves
EMPTY and bit 0 of ERR_STICKY stays 0. -/
theorem BlockInv.withStatus {s : State} (h : BlockInv s) {st : SessionState} {e : BitVec 8}
    (c : Cause) (acts : List HostAction) (rs : List Response)
    (hst : st = s.state ∨ (s.state ≠ .empty ∧ st ≠ .empty)) (he : e.getLsbD 0 = false) :
    BlockInv { s with state := st, lastCause := c, errSticky := e, pending := acts,
                      responses := rs } where
  params := h.params
  wordsWf := h.wordsWf
  wordsIn := h.wordsIn
  ovfWf := h.ovfWf
  ovfIn := h.ovfIn
  sticky := he
  form := by
    rcases hst with rfl | ⟨hne, -⟩
    · exact h.form
    · exact .inr (h.legalForm_of_ne_empty hne)
  fresh := by
    rcases hst with rfl | ⟨-, hne⟩
    · exact h.fresh
    · exact fun hempty => absurd hempty hne
  capacity := h.capacity
  length := h.length
  listed := h.listed
  ovfCapacity := h.ovfCapacity
  ovfListed := h.ovfListed
  tail := h.tail

theorem BlockInv.takePending {s : State} (h : BlockInv s) (rest : List HostAction) :
    BlockInv { s with pending := rest } :=
  h.withStatus s.lastCause rest s.responses (.inl rfl) h.sticky

theorem BlockInv.respond {s : State} (h : BlockInv s) (d : Word) : BlockInv (respond d s) :=
  h.withStatus _ s.pending _ (.inl rfl) h.sticky

theorem BlockInv.raise {s : State} (h : BlockInv s) {c : Cause}
    (hst : stateAfter c s.state = s.state ∨ (s.state ≠ .empty ∧ stateAfter c s.state ≠ .empty)) :
    BlockInv (raise c s) :=
  h.withStatus _ s.pending _ hst (stickyAfter_zero c s.errSticky)

theorem BlockInv.resetBlock {s : State} (h : BlockInv s) : BlockInv (resetBlock s) where
  params := h.params
  wordsWf := rfl
  wordsIn := rfl
  ovfWf := rfl
  ovfIn := rfl
  sticky := by simp
  form := .inl rfl
  fresh := fun _ => ⟨rfl, rfl, rfl, rfl⟩
  capacity := Nat.zero_le _
  length := (ceilDiv_zero h.params.bounds.1).symm
  listed := fun _ hq => absurd hq (Nat.not_lt_zero _)
  ovfCapacity := Nat.zero_le _
  ovfListed := fun _ hj => absurd hj (Nat.not_lt_zero _)
  tail := fun _ _ hp => by simp at hp

theorem BlockInv.openSession {s : State} {c : ConfigReg} (h : BlockInv s)
    (hc : legalForm s.params c = true) : BlockInv (openSession c s) where
  params := h.params
  wordsWf := h.wordsWf
  wordsIn := h.wordsIn
  ovfWf := h.ovfWf
  ovfIn := h.ovfIn
  sticky := h.sticky
  form := .inr hc
  fresh := nofun
  capacity := Nat.zero_le _
  length := (ceilDiv_zero h.params.bounds.1).symm
  listed := fun _ hq => absurd hq (Nat.not_lt_zero _)
  ovfCapacity := Nat.zero_le _
  ovfListed := fun _ hj => absurd hj (Nat.not_lt_zero _)
  tail := fun _ _ hp => by simp at hp

/-- N is bound to the rest of the block in EMPTY alone. -/
theorem BlockInv.withCount {s : State} (h : BlockInv s) (hst : s.state ≠ .empty) (n : Word) :
    BlockInv { s with count := n } :=
  { h with fresh := fun hempty => absurd hempty hst }

/-- Appending a NATIVE_W-bit entry below capacity keeps the invariant (10_state.md R35, R36). -/
theorem BlockInv.ovfAppend {s : State} {e : Word} (h : BlockInv s) (hst : s.state ≠ .empty)
    (hroom : s.ovfCount.toNat < s.params.maxOvf) (he : e.toNat < 2 ^ s.params.nativeW) :
    BlockInv (ovfAppend s e) := by
  obtain ⟨-, -, -, -, -, hovf⟩ := h.params
  have hcount : (s.ovfCount + 1#64).toNat = s.ovfCount.toNat + 1 := toNat_add_one hroom hovf
  exact
    { h with
      ovfWf := Memory.wf_set _ _ h.ovfWf
      ovfIn := Memory.within_set _ _ hroom he h.ovfIn
      fresh := fun hempty => absurd hempty hst
      ovfCapacity := by
        rw [ovfAppend_ovfCount, hcount]
        exact hroom
      ovfListed := by
        intro j hj
        rw [ovfAppend_ovfCount, hcount] at hj
        rw [ovfAppend_ovf, Memory.get_set]
        split
        · rfl
        · exact h.ovfListed j (by omega) }

/-- Writing a field at or past CURSOR within capacity keeps the invariant (40_word_buffer.md R104). -/
theorem BlockInv.putField {s t : State} {start n v : Nat} (h : BlockInv s) (hne : s.state ≠ .empty)
    (ha : CanAppend s start n v) (hs : putField s start n v = .ok t) : BlockInv t := by
  have hcur := ha.cursor h hs
  have hlen : t.lenWords.toNat = ceilDiv (start + n) s.params.w := by
    rw [(ha.stored h hs).length, h.length]
    exact Nat.max_eq_right (ceilDiv_mono _ (Nat.le_add_right_of_le ha.fromCursor))
  have htail : ∀ p, t.cursor.toNat ≤ p → p < t.lenWords.toNat * s.params.w →
      readBit t p = .ok false := by
    intro p hlo hhi
    have hfrom := ha.fromCursor
    exact ha.blank h hs (by omega) hhi (.inr (by omega))
  have hparams := putField_params h.params hs
  have hst := putField_state h.params hs
  obtain ⟨hwf, hin, hlisted⟩ := putField_words h hs
  constructor
  case params => exact hparams ▸ h.params
  case wordsWf => exact hwf
  case wordsIn => rw [hparams]; exact hin
  case ovfWf => rw [putField_ovf h.params hs]; exact h.ovfWf
  case ovfIn => rw [putField_ovf h.params hs, hparams]; exact h.ovfIn
  case sticky => rw [putField_errSticky h.params hs]; exact h.sticky
  case form =>
    rw [hparams, putField_config h.params hs]
    exact .inr (h.legalForm_of_ne_empty hne)
  case fresh => exact fun hempty => absurd (hst ▸ hempty) hne
  case capacity => rw [hparams, hcur]; exact ha.room
  case length => rw [hparams, hcur]; exact hlen
  case listed => exact hlisted
  case ovfCapacity => rw [hparams, putField_ovfCount h.params hs]; exact h.ovfCapacity
  case ovfListed => rw [putField_ovfCount h.params hs, putField_ovf h.params hs]; exact h.ovfListed
  case tail => rw [hparams]; exact htail

/-! ### Every effect and every step -/

theorem Effect.keeps_blockInv {s t : State} (h : BlockInv s) (he : Effect s t) : BlockInv t := by
  cases he with
  | rejected hc => exact h.raise (.inl hc)
  | aborted hc hst => exact h.raise (.inr (by rcases hc with rfl | rfl <;> simp [hst, stateAfter]))
  | fieldPastCursor hst => exact h.raise (.inr (by simp [hst, stateAfter]))
  | entryPastStore hst => exact h.raise (.inr (by simp [hst, stateAfter]))
  | responded d => exact h.respond d
  | opened hc => exact (h.openSession hc).respond _
  | ended hst =>
    exact h.withStatus _ s.pending _ (.inr ⟨by simp [hst], nofun⟩) h.sticky
  | written hst _ hn hv hc hs =>
    have ha : CanAppend s s.cursor.toNat _ _ := ⟨hn, hv, Nat.le_refl _, h.cursor_le, hc⟩
    exact (h.putField (by simp [hst]) ha hs).respond _
  | packed hst hvar hv _ hc hs =>
    have hst1 := putField_state h.params hs
    have h1 := h.putField (by simp [hst]) (h.canAppend_element hst hvar hv hc) hs
    exact (h1.withCount (by simp [hst1, hst]) _).respond _
  | overflowed hst hvar hen hroom hpay he hc hs =>
    have hst1 := putField_state h.params hs
    have hparams := putField_params h.params hs
    have hcount := putField_ovfCount h.params hs
    have h1 := h.putField (by simp [hst])
      (h.canAppend_element hst hvar (flagged_lt hen hpay) hc) hs
    have h2 := h1.ovfAppend (by simp [hst1, hst]) (by rw [hparams, hcount]; exact hroom)
      (by rw [hparams]; exact he)
    exact (h2.withCount (by simp [hst1, hst]) _).respond _

end Sys2Proof.Machine

namespace Sys2Proof.Claims

open Sys2Proof Sys2Proof.Machine

/-- Settles O52, by the effects a step can have. -/
theorem stepKeepsBlockInvariant : Obligations.StepKeepsBlockInvariant := by
  intro s t h hstep
  obtain rfl | ⟨rest, rfl | he⟩ := step_effect hstep
  · exact h
  · exact (h.takePending rest).resetBlock
  · exact he.keeps_blockInv (h.takePending rest)

end Sys2Proof.Claims
end

section
/-! PROOFS. The layout of an array: where the fields of elements stand, in a CONS and in an NCONS array
(41_consecutive.md R130, R133; 42_non_consecutive.md R150 to R154). -/

namespace Sys2Proof.Machine

/-! ### The address of an NCONS field -/

/-- An element that is not the last of its word has its successor right after it. -/
theorem fieldAddrNC_succ_of_lt {w i k : Nat} (h : i % (w / k) + 1 < w / k) :
    fieldAddrNC w (i + 1) k = fieldAddrNC w i k + k := by
  have hdm := Nat.div_add_mod i (w / k)
  obtain ⟨hdiv, hmod⟩ : (i + 1) / (w / k) = i / (w / k) ∧ (i + 1) % (w / k) = i % (w / k) + 1 :=
    (Nat.div_mod_unique (by omega)).2 ⟨by omega, h⟩
  rw [fieldAddrNC, fieldAddrNC, hdiv, hmod, Nat.add_mul, Nat.one_mul, Nat.add_assoc]

/-- The last element of a word has its successor at the start of the next word. -/
theorem fieldAddrNC_succ_of_eq {w i k : Nat} (h : i % (w / k) + 1 = w / k) :
    fieldAddrNC w (i + 1) k = i / (w / k) * w + w := by
  have hdm := Nat.div_add_mod i (w / k)
  obtain ⟨hdiv, hmod⟩ : (i + 1) / (w / k) = i / (w / k) + 1 ∧ (i + 1) % (w / k) = 0 :=
    (Nat.div_mod_unique (by omega)).2 ⟨by rw [Nat.mul_add, Nat.mul_one]; omega, by omega⟩
  rw [fieldAddrNC, hdiv, hmod, Nat.zero_mul, Nat.add_zero, Nat.add_mul, Nat.one_mul]

/-- Where an NCONS field ends, as the end of the (r + 1)-th field of its word. -/
theorem fieldAddrNC_add (w i k : Nat) :
    fieldAddrNC w i k + k = i / (w / k) * w + (i % (w / k) + 1) * k := by
  rw [fieldAddrNC, Nat.add_mul, Nat.one_mul, Nat.add_assoc]

/-- Every element of a word is the last of it or not. -/
theorem mod_fieldsPerWord_cases {w k : Nat} (hk : 1 ≤ k) (hw : k ≤ w) (i : Nat) :
    i % (w / k) + 1 < w / k ∨ i % (w / k) + 1 = w / k := by
  have := Nat.mod_lt i (Nat.div_pos hw hk)
  omega

theorem fieldAddrNC_add_le_succ {w k : Nat} (hk : 1 ≤ k) (hw : k ≤ w) (i : Nat) :
    fieldAddrNC w i k + k ≤ fieldAddrNC w (i + 1) k := by
  rcases mod_fieldsPerWord_cases hk hw i with h | h
  · rw [fieldAddrNC_succ_of_lt h]
  · rw [fieldAddrNC_succ_of_eq h, fieldAddrNC_add, h]
    exact Nat.add_le_add_left (Nat.div_mul_le_self w k) _

/-- No bit of an NCONS field is a padding bit of its word (42_non_consecutive.md R150). -/
theorem fieldAddrNC_add_mod_lt {w i j k : Nat} (hk : 1 ≤ k) (hw : k ≤ w) (hj : j < k) :
    (fieldAddrNC w i k + j) % w < w / k * k := by
  have hr := Nat.mod_lt i (Nat.div_pos hw hk)
  have hlt : i % (w / k) * k + j < w / k * k :=
    calc i % (w / k) * k + j < (i % (w / k) + 1) * k := by rw [Nat.add_mul, Nat.one_mul]; omega
      _ ≤ w / k * k := Nat.mul_le_mul_right k hr
  rw [fieldAddrNC, Nat.add_assoc, Nat.mul_add_mod_self_right,
    Nat.mod_eq_of_lt (Nat.lt_of_lt_of_le hlt (Nat.div_mul_le_self w k))]
  exact hlt

/-! ### The padding rule -/

/-- With CURSOR at bit r of word q, NextStart stays where the field still fits the word
(42_non_consecutive.md R150). -/
theorem nextStart_of_fits {s : State} {q r k : Nat} (hcur : s.cursor.toNat = q * s.params.w + r)
    (hk : 1 ≤ k) (h : r + k ≤ s.params.w) : nextStart s k = s.cursor.toNat := by
  have hmod : s.cursor.toNat % s.params.w = r := by
    rw [hcur, Nat.mul_add_mod_self_right, Nat.mod_eq_of_lt (by omega)]
  unfold nextStart
  rw [hmod, if_neg (by omega)]

/-- With CURSOR at bit r of word q, or at its end, NextStart is the next word's start where the field no
longer fits the word (42_non_consecutive.md R150). -/
theorem nextStart_of_full {s : State} {q r k : Nat} (hcur : s.cursor.toNat = q * s.params.w + r)
    (hr : 1 ≤ r) (hrw : r ≤ s.params.w) (hk : k ≤ s.params.w) (h : s.params.w < r + k) :
    nextStart s k = q * s.params.w + s.params.w := by
  rcases Nat.lt_or_eq_of_le hrw with hlt | heq
  · have hmod : s.cursor.toNat % s.params.w = r := by
      rw [hcur, Nat.mul_add_mod_self_right, Nat.mod_eq_of_lt hlt]
    have hceil : ceilDiv s.cursor.toNat s.params.w = q + 1 := by
      rw [ceilDiv_eq (by omega) (by omega), hcur, Nat.add_sub_assoc hr, Nat.mul_comm,
        Nat.mul_add_div (by omega), Nat.div_eq_of_lt (by omega)]
    unfold nextStart
    rw [hmod, if_pos h, hceil, Nat.add_mul, Nat.one_mul]
  · have hmod : s.cursor.toNat % s.params.w = 0 := by
      rw [hcur, heq, Nat.mul_add_mod_self_right, Nat.mod_self]
    unfold nextStart
    rw [hmod, if_neg (by omega), hcur, heq]

/-- With CURSOR at the end of element N - 1, the padding rule starts element N at its address
(42_non_consecutive.md R150, R151). -/
theorem nextStart_eq_fieldAddrNC {s : State} {n k : Nat} (hk : 1 ≤ k) (hw : k ≤ s.params.w)
    (hcur : s.cursor.toNat = if n = 0 then 0 else fieldAddrNC s.params.w (n - 1) k + k) :
    nextStart s k = fieldAddrNC s.params.w n k := by
  cases n with
  | zero =>
    have hcur : s.cursor.toNat = 0 := hcur
    rw [nextStart_of_fits (q := 0) (r := 0) (by omega) hk (by omega), hcur]
    simp [fieldAddrNC]
  | succ i =>
    have hcur : s.cursor.toNat = fieldAddrNC s.params.w i k + k := hcur
    rw [fieldAddrNC_add] at hcur
    rcases mod_fieldsPerWord_cases hk hw i with h | h
    · have hfits : (i % (s.params.w / k) + 1) * k + k ≤ s.params.w :=
        calc (i % (s.params.w / k) + 1) * k + k = (i % (s.params.w / k) + 1 + 1) * k := by
              rw [Nat.add_mul (_ + 1), Nat.one_mul]
          _ ≤ s.params.w / k * k := Nat.mul_le_mul_right k h
          _ ≤ s.params.w := Nat.div_mul_le_self _ _
      rw [nextStart_of_fits hcur hk hfits, hcur, fieldAddrNC_succ_of_lt h, fieldAddrNC_add]
    · have hfull : s.params.w < s.params.w / k * k + k := by
        have := Nat.lt_div_mul_add (a := s.params.w) hk
        omega
      have hpos : 1 ≤ s.params.w / k * k := Nat.mul_pos (Nat.div_pos hw hk) hk
      rw [h] at hcur
      rw [nextStart_of_full hcur hpos (Nat.div_mul_le_self _ _) hw hfull, fieldAddrNC_succ_of_eq h]

/-! ### The fields of an array, in order -/

section Fields

variable {s : State} (hlo : 1 ≤ elemWidth s) (hhi : elemWidth s ≤ s.params.w)
include hlo hhi

theorem elemAddr_add_le_succ (i : Nat) : elemAddr s i + elemWidth s ≤ elemAddr s (i + 1) := by
  unfold elemAddr
  split
  · exact fieldAddrNC_add_le_succ hlo hhi i
  · rw [Nat.add_mul, Nat.one_mul]

/-- Fields do not overlap and stand in the order of their elements. -/
theorem elemAddr_add_le {i j : Nat} (hij : i < j) : elemAddr s i + elemWidth s ≤ elemAddr s j := by
  induction j, hij using Nat.le_induction with
  | base => exact elemAddr_add_le_succ hlo hhi i
  | succ j _ ih =>
    have := elemAddr_add_le_succ hlo hhi j
    omega

theorem elemAddr_add_le_elemEnd {i n : Nat} (hi : i < n) :
    elemAddr s i + elemWidth s ≤ elemEnd s n := by
  unfold elemEnd
  rw [if_neg (by omega)]
  rcases Nat.lt_or_eq_of_le (Nat.le_sub_one_of_lt hi) with hlt | rfl
  · have := elemAddr_add_le hlo hhi hlt
    omega
  · exact Nat.le_refl _

/-- Every element takes at least one bit, so that N counts within the stream's addresses. -/
theorem le_elemAddr (i : Nat) : i ≤ elemAddr s i := by
  induction i with
  | zero => exact Nat.zero_le _
  | succ i ih =>
    have := elemAddr_add_le_succ hlo hhi i
    omega

/-- The place the pack commands choose is the next element's address. -/
theorem packStart_eq_elemAddr (hcur : s.cursor.toNat = elemEnd s s.count.toNat) :
    packStart s = elemAddr s s.count.toNat := by
  by_cases hv : s.config.variant = .ncons
  · rw [packStart, if_pos hv, elemAddr, if_pos hv]
    apply nextStart_eq_fieldAddrNC hlo hhi
    rw [hcur]
    simp [elemEnd, elemAddr, hv]
  · rw [packStart, if_neg hv, hcur]
    cases hn : s.count.toNat with
    | zero => simp [elemEnd, elemAddr, hv]
    | succ n => simp [elemEnd, elemAddr, hv, Nat.add_mul]

/-- No bit of an NCONS array's field is padding. -/
theorem elemAddr_add_mod_lt (hv : s.config.variant = .ncons) (i : Nat) {j : Nat}
    (hj : j < elemWidth s) :
    (elemAddr s i + j) % s.params.w < s.params.w / elemWidth s * elemWidth s := by
  rw [elemAddr, if_pos hv]
  exact fieldAddrNC_add_mod_lt hlo hhi hj

end Fields

end Sys2Proof.Machine
end

section
/-! PROOFS. Flags and overflow positions: what the flag of a primary field is, how the flags count, and
that a flagged element's entry is the one with as many flags before it (43_overflow.md R170 to R176). -/

namespace Sys2Proof.Machine

/-! ### A primary field: a flag and a payload -/

theorem FieldAt.head {s : State} {p n u : Nat} (h : FieldAt s p (n + 1) u) :
    readBit s p = .ok (u.testBit n) := h.bits 0 (Nat.succ_pos n)

theorem FieldAt.tail {s : State} {p n u : Nat} (h : FieldAt s p (n + 1) u) :
    FieldAt s (p + 1) n (u % 2 ^ n) := by
  refine ⟨fun j hj => ?_, Nat.mod_lt _ (Nat.two_pow_pos n)⟩
  have hbit := h.bits (j + 1) (by omega)
  rw [show p + 1 + j = p + (j + 1) by omega, hbit, Nat.testBit_mod_two_pow,
    decide_eq_true (by omega : n - 1 - j < n), Bool.true_and,
    show n + 1 - 1 - (j + 1) = n - 1 - j by omega]

/-- The value of a one-bit field is its bit. -/
theorem FieldAt.bit {s : State} {p b : Nat} (h : FieldAt s p 1 b) :
    readBit s p = .ok (decide (b = 1)) := by
  have hsmall := h.small
  rw [h.head]
  interval_cases b <;> rfl

theorem flagBit_of_readBit {s : State} {i : Nat} {b : Bool} (h : readBit s (primAddr s i) = .ok b) :
    flagBit s i = b := by
  unfold flagBit
  rw [h]

theorem FieldAt.flagBit {s : State} {i f : Nat} (h : FieldAt s (primAddr s i) (kpOf s) f) :
    flagBit s i = f.testBit (ksOf s) := flagBit_of_readBit h.head

/-! ### Counting flags -/

theorem flagsBelow_mono (s : State) {m n : Nat} (h : m ≤ n) : flagsBelow s m ≤ flagsBelow s n := by
  induction n, h using Nat.le_induction with
  | base => exact Nat.le_refl _
  | succ n _ ih => exact Nat.le_trans ih (Nat.le_add_right _ _)

theorem flagsBelow_succ_of_flag {s : State} {i : Nat} (h : flagBit s i = true) :
    flagsBelow s (i + 1) = flagsBelow s i + 1 := by
  rw [flagsBelow, h, Bool.toNat_true]

/-- There are fewer flags before a flagged field than before any later place. -/
theorem flagsBelow_lt {s : State} {i n : Nat} (hi : i < n) (h : flagBit s i = true) :
    flagsBelow s i < flagsBelow s n := by
  have hstep := flagsBelow_succ_of_flag h
  have hmono := flagsBelow_mono s (show i + 1 ≤ n from hi)
  omega

theorem flagsBelow_congr {s t : State} {n : Nat} (h : ∀ i, i < n → flagBit t i = flagBit s i) :
    flagsBelow t n = flagsBelow s n := by
  induction n with
  | zero => rfl
  | succ n ih =>
    rw [flagsBelow, flagsBelow, ih fun i hi => h i (Nat.lt_succ_of_lt hi), h n (Nat.lt_succ_self n)]

/-- Reading a flag as a one-bit field gives the flag (43_overflow.md R176). -/
theorem memRead_flag {s : State} {i b : Nat} (h : memRead s (primAddr s i) 1 = .ok b) :
    b = (flagBit s i).toNat := by
  have hf := memRead_eq_ok.1 h
  have hsmall := hf.small
  rw [flagBit_of_readBit hf.bit]
  interval_cases b <;> rfl

/-- The sum COMPACT mode computes is the number of flags up to field i (43_overflow.md R176). -/
theorem flagSum_eq {s : State} {i n : Nat} (h : flagSum s i = .ok n) :
    n = flagsBelow s (i + 1) := by
  induction i generalizing n with
  | zero => rw [memRead_flag h, flagsBelow, flagsBelow, Nat.zero_add]
  | succ i ih =>
    unfold flagSum at h
    cases hsum : flagSum s i with
    | error e => rw [hsum] at h; cases h
    | ok m =>
      cases hflag : memRead s (primAddr s (i + 1)) 1 with
      | error e => rw [hsum, hflag] at h; cases h
      | ok b =>
        rw [hsum, hflag] at h
        cases h
        rw [flagsBelow, ← ih hsum, memRead_flag hflag]

/-! ### Overflow positions -/

/-- A flagged element's entry is the one with as many flags before it, in both modes (43_overflow.md
R173, R176). -/
theorem ArrayInv.overflowPosition_eq {s : State} (h : ArrayInv s) (hen : s.config.ovfEn = true)
    {i f j : Nat} (hi : i < s.count.toNat) (hf : FieldAt s (primAddr s i) (kpOf s) f)
    (hflag : f.testBit (ksOf s) = true) (hj : overflowPosition s i (f % 2 ^ ksOf s) = .ok j) :
    j = flagsBelow s i := by
  have hbit : Machine.flagBit s i = true := hf.flagBit.trans hflag
  unfold overflowPosition at hj
  cases hmode : s.config.ovfMode with
  | false =>
    rw [hmode] at hj
    cases hj
    exact hf.tail.unique (memRead_eq_ok.1 (h.payloads hen hmode i hi hbit))
  | true =>
    rw [hmode, if_pos rfl] at hj
    unfold ovfPosCompact at hj
    cases hsum : flagSum s i with
    | error e => rw [hsum] at hj; cases hj
    | ok n =>
      rw [hsum] at hj
      cases hj
      rw [flagSum_eq hsum, flagsBelow_succ_of_flag hbit, Nat.add_sub_cancel]

/-- A flagged element's entry lies in the overflow store (10_state.md R37, R39). -/
theorem ArrayInv.overflowPosition_lt {s : State} (h : ArrayInv s) (hen : s.config.ovfEn = true)
    {i f j : Nat} (hi : i < s.count.toNat) (hf : FieldAt s (primAddr s i) (kpOf s) f)
    (hflag : f.testBit (ksOf s) = true) (hj : overflowPosition s i (f % 2 ^ ksOf s) = .ok j) :
    j < s.ovfCount.toNat := by
  rw [h.overflowPosition_eq hen hi hf hflag hj, ← h.flags hen]
  exact flagsBelow_lt hi (hf.flagBit.trans hflag)

end Sys2Proof.Machine
end

section
/-! PROOFS. Every step keeps the whole invariant: a command changes the array by appending one element
or opening an empty session alone, and no consistency failure arises. -/

namespace Sys2Proof.Machine

/-! ### An element appended -/

/-- `t`'s array is `s`'s with one more element whose field has the value v: the fields before it stay,
the rest of the new words reads 0, and a flagged field comes with an overflow entry, whose number is the
payload in INDEX mode. -/
structure ElementAppended (s t : State) (v : Nat) : Prop where
  params : t.params = s.params
  config : t.config = s.config
  count : t.count.toNat = s.count.toNat + 1
  cursor : t.cursor.toNat = packStart s + elemWidth s
  field : FieldAt t (packStart s) (elemWidth s) v
  kept : ∀ p, p < s.cursor.toNat → readBit t p = readBit s p
  blank : ∀ p, s.cursor.toNat ≤ p → p < t.lenWords.toNat * s.params.w →
    (p < packStart s ∨ packStart s + elemWidth s ≤ p) → readBit t p = .ok false
  noEntry : s.config.ovfEn = false → t.ovfCount = s.ovfCount
  entry : s.config.ovfEn = true →
    t.ovfCount.toNat = s.ovfCount.toNat + (v.testBit (ksOf s)).toNat
  payload : s.config.ovfEn = true → s.config.ovfMode = false → v.testBit (ksOf s) = true →
    v % 2 ^ ksOf s = s.ovfCount.toNat

section ElementAppended

variable {s t : State} {v : Nat}

theorem ElementAppended.ksOf_eq (ha : ElementAppended s t v) : ksOf t = ksOf s := by
  simp only [ksOf, ha.config]

theorem ElementAppended.elemWidth_eq (ha : ElementAppended s t v) : elemWidth t = elemWidth s := by
  simp only [elemWidth, kpOf, ksOf, ha.config]

theorem ElementAppended.elemAddr_eq (ha : ElementAppended s t v) (i : Nat) :
    elemAddr t i = elemAddr s i := by
  simp only [elemAddr, ha.elemWidth_eq, ha.config, ha.params]

theorem ElementAppended.primAddr_eq (ha : ElementAppended s t v) (i : Nat) :
    primAddr t i = primAddr s i := by
  simp only [primAddr, kpOf, ha.ksOf_eq, ha.config, ha.params]

/-- The new element's field is the last one before CURSOR. -/
theorem ElementAppended.ends (ha : ElementAppended s t v)
    (hplace : packStart s = elemAddr s s.count.toNat) :
    t.cursor.toNat = elemEnd t t.count.toNat := by
  rw [ha.cursor, hplace, ha.count, elemEnd, if_neg (Nat.succ_ne_zero _), Nat.add_sub_cancel,
    ha.elemAddr_eq, ha.elemWidth_eq]

/-- The padding bits read 0 still: the new field covers none of them (42_non_consecutive.md R150). -/
theorem ElementAppended.padding (hb : BlockInv s) (h : ArrayInv s) (ha : ElementAppended s t v)
    (hlo : 1 ≤ elemWidth s) (hhi : elemWidth s ≤ s.params.w)
    (hplace : packStart s = elemAddr s s.count.toNat) (hv : s.config.variant = .ncons) {p : Nat}
    (hp : p < t.lenWords.toNat * s.params.w)
    (hpad : s.params.w / elemWidth s * elemWidth s ≤ p % s.params.w) :
    readBit t p = .ok false := by
  rcases Nat.lt_or_ge p s.cursor.toNat with hold | hnew
  · rw [ha.kept p hold]
    exact h.padding hv p (Nat.lt_of_lt_of_le hold hb.cursor_le) hpad
  · refine ha.blank p hnew hp ?_
    by_contra hin
    obtain ⟨j, rfl⟩ := Nat.exists_eq_add_of_le (show packStart s ≤ p by omega)
    have hmod := elemAddr_add_mod_lt hlo hhi hv s.count.toNat (j := j) (by omega)
    rw [hplace] at hpad
    omega

/-- The flags of the elements before the new one stay. -/
theorem ElementAppended.flagBit_of_lt (h : ArrayInv s) (ha : ElementAppended s t v)
    (hlo : 1 ≤ elemWidth s) (hhi : elemWidth s ≤ s.params.w) (hvar : s.config.variant ≠ .raw)
    (hen : s.config.ovfEn = true) {i : Nat} (hi : i < s.count.toNat) :
    flagBit t i = flagBit s i := by
  have hend := elemAddr_add_le_elemEnd hlo hhi hi
  rw [← h.ends hvar, elemAddr_of_overflow hen] at hend
  unfold flagBit
  rw [ha.primAddr_eq, ha.kept _ (by omega)]

/-- The new element's flag is the top bit of its field. -/
theorem ElementAppended.flagBit_new (ha : ElementAppended s t v) (hen : s.config.ovfEn = true)
    (hplace : packStart s = elemAddr s s.count.toNat) :
    flagBit t s.count.toNat = v.testBit (ksOf s) := by
  have hf := ha.field
  rw [elemWidth_of_overflow hen, hplace, elemAddr_of_overflow hen, ← ha.primAddr_eq] at hf
  exact flagBit_of_readBit hf.head

/-- Appending an element keeps the invariant of the array. -/
theorem ElementAppended.keeps_arrayInv (hb : BlockInv s) (h : ArrayInv s)
    (ha : ElementAppended s t v) (hst : s.state ≠ .empty) (hst' : t.state ≠ .faulted)
    (hvar : s.config.variant ≠ .raw) : ArrayInv t := by
  obtain ⟨hlo, hhi⟩ := elemWidth_bounds (hb.legalForm_of_ne_empty hst) hvar
  have hplace := packStart_eq_elemAddr hlo hhi (h.ends hvar)
  have hflags : s.config.ovfEn = true → ∀ i, i ≤ s.count.toNat →
      flagsBelow t i = flagsBelow s i := fun hen i hi =>
    flagsBelow_congr fun j hj => ha.flagBit_of_lt h hlo hhi hvar hen (Nat.lt_of_lt_of_le hj hi)
  constructor
  case notFaulted => exact hst'
  case ends => exact fun _ => ha.ends hplace
  case rawCount => exact fun hraw => absurd (ha.config ▸ hraw) hvar
  case padding =>
    rw [ha.config, ha.params, ha.elemWidth_eq]
    exact fun hv p hp hpad => ha.padding hb h hlo hhi hplace hv hp hpad
  case noStore =>
    rw [ha.config]
    exact fun hen => (ha.noEntry hen).trans (h.noStore hen)
  case flags =>
    rw [ha.config]
    intro hen
    rw [ha.count, flagsBelow, hflags hen _ (Nat.le_refl _), ha.flagBit_new hen hplace, h.flags hen,
      ha.entry hen]
  case payloads =>
    rw [ha.config, ha.count, ha.ksOf_eq]
    intro hen hmode i hi hflag
    rw [ha.primAddr_eq, hflags hen i (Nat.le_of_lt_succ hi), memRead_eq_ok]
    rcases Nat.lt_or_eq_of_le (Nat.le_of_lt_succ hi) with hold | rfl
    · rw [ha.flagBit_of_lt h hlo hhi hvar hen hold] at hflag
      have hend := elemAddr_add_le_elemEnd hlo hhi hold
      rw [← h.ends hvar, elemAddr_of_overflow hen, elemWidth_of_overflow hen, kpOf] at hend
      exact (memRead_eq_ok.1 (h.payloads hen hmode i hold hflag)).congr
        fun j hj => ha.kept _ (by omega)
    · rw [ha.flagBit_new hen hplace] at hflag
      have hf := ha.field
      rw [elemWidth_of_overflow hen, hplace, elemAddr_of_overflow hen] at hf
      rw [h.flags hen, ← ha.payload hen hmode hflag]
      exact hf.tail

end ElementAppended

/-! ### The pack commands append an element -/

/-- N counts one up without a wrap while the next element's field lies within capacity
(assumption log 5). -/
theorem Inv.count_add_one {s : State} (h : Inv s) (hst : s.state ≠ .empty)
    (hvar : s.config.variant ≠ .raw) (hc : packStart s + elemWidth s ≤ capacityBits s.params) :
    (s.count + 1#64).toNat = s.count.toNat + 1 := by
  obtain ⟨hlo, hhi⟩ := elemWidth_bounds (h.block.legalForm_of_ne_empty hst) hvar
  rw [packStart_eq_elemAddr hlo hhi (h.array.ends hvar)] at hc
  have hcount := le_elemAddr hlo hhi s.count.toNat
  obtain ⟨-, -, -, -, hcap, -⟩ := h.block.params
  exact toNat_add_one (m := capacityBits s.params) (by omega) hcap

/-- Writing the next element's field and counting it appends an element, where the overflow store grows
with the flag. -/
theorem CanAppend.elementAppended {s s1 : State} {v : Nat} {n : Word} (entries : Memory) (h : Inv s)
    (hst : s.state ≠ .empty) (hvar : s.config.variant ≠ .raw)
    (ha : CanAppend s (packStart s) (elemWidth s) v)
    (hs : putField s (packStart s) (elemWidth s) v = .ok s1)
    (hno : s.config.ovfEn = false → n = s.ovfCount)
    (hen : s.config.ovfEn = true → n.toNat = s.ovfCount.toNat + (v.testBit (ksOf s)).toNat)
    (hpay : s.config.ovfEn = true → s.config.ovfMode = false → v.testBit (ksOf s) = true →
      v % 2 ^ ksOf s = s.ovfCount.toNat) :
    ElementAppended s
      (respond 0#64 { s1 with ovf := entries, ovfCount := n, count := s1.count + 1#64 }) v := by
  have hparams := putField_params h.block.params hs
  have hconfig := putField_config h.block.params hs
  have hcursor := ha.cursor h.block hs
  have hfield := (ha.stored h.block hs).field
  have hcount : (s1.count + 1#64).toNat = s.count.toNat + 1 := by
    rw [putField_count h.block.params hs]
    exact h.count_add_one hst hvar ha.room
  exact
    { params := hparams
      config := hconfig
      count := hcount
      cursor := hcursor
      field := hfield.congr fun _ _ => rfl
      kept := fun _ hp => ha.kept h.block hs hp
      blank := fun _ hlo hhi ho => ha.blank h.block hs hlo hhi ho
      noEntry := hno
      entry := hen
      payload := hpay }

/-- A plain field, or an unflagged primary field, appends an element. -/
theorem packed_elementAppended {s s1 : State} {v : Nat} (h : Inv s) (hst : s.state ≠ .empty)
    (hvar : s.config.variant ≠ .raw) (ha : CanAppend s (packStart s) (elemWidth s) v)
    (hflag : s.config.ovfEn = true → v < 2 ^ ksOf s)
    (hs : putField s (packStart s) (elemWidth s) v = .ok s1) :
    ElementAppended s (respond 0#64 { s1 with count := s1.count + 1#64 }) v := by
  have hcount := putField_ovfCount h.block.params hs
  have hbit : s.config.ovfEn = true → v.testBit (ksOf s) = false := fun hen =>
    Nat.testBit_lt_two_pow (hflag hen)
  refine ha.elementAppended s1.ovf h hst hvar hs (fun _ => hcount) (fun hen => ?_)
    (fun hen _ htrue => absurd htrue (by simp [hbit hen]))
  rw [hcount, hbit hen, Bool.toNat_false, Nat.add_zero]

/-- A flagged primary field with its overflow entry appends an element. -/
theorem overflowed_elementAppended {s s1 : State} {e : Word} (h : Inv s) (hst : s.state ≠ .empty)
    (hvar : s.config.variant ≠ .raw) (hen : s.config.ovfEn = true)
    (hroom : s.ovfCount.toNat < s.params.maxOvf) (hpay : overflowPayload s < 2 ^ ksOf s)
    (ha : CanAppend s (packStart s) (elemWidth s) (2 ^ ksOf s + overflowPayload s))
    (hs : putField s (packStart s) (elemWidth s) (2 ^ ksOf s + overflowPayload s) = .ok s1) :
    ElementAppended s (respond 0#64 { ovfAppend s1 e with count := s1.count + 1#64 })
      (2 ^ ksOf s + overflowPayload s) := by
  obtain ⟨-, -, -, -, -, hovf⟩ := h.block.params
  have hcount := putField_ovfCount h.block.params hs
  have hbit : (2 ^ ksOf s + overflowPayload s).testBit (ksOf s) = true := by
    rw [Nat.testBit_two_pow_add_eq, Nat.testBit_lt_two_pow hpay]
    rfl
  refine ha.elementAppended (s1 := s1) (n := s1.ovfCount + 1#64) _ h hst hvar hs
    (fun hno => absurd hen (by simp [hno])) (fun _ => ?_) (fun _ hmode _ => ?_)
  · rw [hcount, hbit, Bool.toNat_true, toNat_add_one hroom hovf]
  · rw [Nat.add_mod_left, Nat.mod_eq_of_lt hpay, overflowPayload, hmode]
    rfl

/-! ### The updates that keep the invariant of the array -/

theorem flagsBelow_withStatus (s : State) (st : SessionState) (c : Cause) (e : BitVec 8)
    (acts : List HostAction) (rs : List Response) (n : Nat) :
    flagsBelow { s with state := st, lastCause := c, errSticky := e, pending := acts,
                        responses := rs } n = flagsBelow s n :=
  flagsBelow_congr fun _ _ => rfl

/-- The invariant of the array does not depend on the status registers but for FAULTED, nor on
the port. -/
theorem ArrayInv.withStatus {s : State} (h : ArrayInv s) {st : SessionState} (hst : st ≠ .faulted)
    (c : Cause) (e : BitVec 8) (acts : List HostAction) (rs : List Response) :
    ArrayInv { s with state := st, lastCause := c, errSticky := e, pending := acts,
                      responses := rs } where
  notFaulted := hst
  ends := h.ends
  rawCount := h.rawCount
  padding := h.padding
  noStore := h.noStore
  flags := fun hen => (flagsBelow_withStatus ..).trans (h.flags hen)
  payloads := fun hen hmode i hi hflag => by
    rw [flagsBelow_withStatus, memRead_eq_ok]
    exact (memRead_eq_ok.1 (h.payloads hen hmode i hi hflag)).congr fun _ _ => rfl

theorem ArrayInv.takePending {s : State} (h : ArrayInv s) (rest : List HostAction) :
    ArrayInv { s with pending := rest } :=
  h.withStatus h.notFaulted s.lastCause s.errSticky rest s.responses

theorem ArrayInv.respond {s : State} (h : ArrayInv s) (d : Word) : ArrayInv (respond d s) :=
  h.withStatus h.notFaulted _ s.errSticky s.pending _

theorem ArrayInv.raise {s : State} (h : ArrayInv s) {c : Cause}
    (hst : stateAfter c s.state ≠ .faulted) : ArrayInv (raise c s) :=
  h.withStatus hst _ _ s.pending _

/-- A state with no element, no word and no entry holds the empty array. -/
theorem ArrayInv.of_empty {s : State} (hst : s.state ≠ .faulted) (hcursor : s.cursor = 0#64)
    (hlen : s.lenWords = 0#64) (hcount : s.count = 0#64) (hovf : s.ovfCount = 0#64) :
    ArrayInv s where
  notFaulted := hst
  ends := fun _ => by rw [hcursor, hcount]; rfl
  rawCount := fun _ => hcount
  padding := fun _ p hp => by simp [hlen] at hp
  noStore := fun _ => hovf
  flags := fun _ => by rw [hcount, hovf]; rfl
  payloads := fun _ _ i hi => by simp [hcount] at hi

/-- A RAW buffer holds no array, and no overflow router is enabled (45_session_control.md R221). -/
theorem ArrayInv.of_raw {s : State} (hst : s.state ≠ .faulted) (hraw : s.config.variant = .raw)
    (hen : s.config.ovfEn = false) (hcount : s.count = 0#64) (hovf : s.ovfCount = 0#64) :
    ArrayInv s where
  notFaulted := hst
  ends := fun hvar => absurd hraw hvar
  rawCount := fun _ => hcount
  padding := fun hvar => absurd hvar (by simp [hraw])
  noStore := fun _ => hovf
  flags := fun htrue => absurd htrue (by simp [hen])
  payloads := fun htrue => absurd htrue (by simp [hen])

theorem ovfEn_of_raw {p : Params} {c : ConfigReg} (h : legalForm p c = true)
    (hraw : c.variant = .raw) : c.ovfEn = false := by
  simp only [legalForm, hraw, rawForm, Bool.and_eq_true, Bool.not_eq_true'] at h
  obtain ⟨⟨⟨-, hen⟩, -⟩, -⟩ := h
  exact hen

/-- WRITE_BITS leaves a RAW buffer one (40_word_buffer.md R104). -/
theorem Inv.putField_raw {s t : State} {p n v : Nat} (h : Inv s) (hst : s.state = .packing)
    (hraw : s.config.variant = .raw) (hs : putField s p n v = .ok t) : ArrayInv t := by
  have hp := h.block.params
  have hconfig := putField_config hp hs
  have hen := ovfEn_of_raw (h.block.legalForm_of_ne_empty (by simp [hst])) hraw
  refine .of_raw ?_ (hconfig ▸ hraw) (hconfig ▸ hen) ?_ ?_
  · simp [putField_state hp hs, hst]
  · rw [putField_count hp hs, h.array.rawCount hraw]
  · rw [putField_ovfCount hp hs, h.array.noStore hen]

/-! ### No consistency failure -/

theorem Inv.elemAddr_add_le_cursor {s : State} (h : Inv s) (hst : s.state ≠ .empty)
    (hvar : s.config.variant ≠ .raw) {i : Nat} (hi : i < s.count.toNat) :
    elemAddr s i + elemWidth s ≤ s.cursor.toNat := by
  obtain ⟨hlo, hhi⟩ := elemWidth_bounds (h.block.legalForm_of_ne_empty hst) hvar
  rw [h.array.ends hvar]
  exact elemAddr_add_le_elemEnd hlo hhi hi

/-! ### Every effect and every step -/

theorem Effect.keeps_arrayInv {s t : State} (h : Inv s) (he : Effect s t) : ArrayInv t := by
  have hb := h.block
  have ha := h.array
  cases he with
  | rejected hc => exact ha.raise (by rw [hc]; exact ha.notFaulted)
  | aborted hc => exact ha.raise (by rcases hc with rfl | rfl <;> simp [stateAfter])
  | fieldPastCursor hst hvar hi hc =>
    have hle := h.elemAddr_add_le_cursor (by simp [hst]) hvar hi
    omega
  | entryPastStore hst hen hi hf hflag hj hc =>
    have hlt := ha.overflowPosition_lt hen hi hf hflag hj
    omega
  | responded d => exact ha.respond d
  | opened hc => exact (ArrayInv.of_empty (by simp) rfl rfl rfl rfl).respond _
  | ended hst => exact ha.withStatus (st := .sealed) nofun _ s.errSticky s.pending _
  | written hst hraw _ _ _ hs => exact (h.putField_raw hst hraw hs).respond _
  | packed hst hvar hv hflag hc hs =>
    have hne : s.state ≠ .empty := by simp [hst]
    have happ := packed_elementAppended h hne hvar (hb.canAppend_element hst hvar hv hc) hflag hs
    exact happ.keeps_arrayInv hb ha hne (by simp [putField_state hb.params hs, hst]) hvar
  | overflowed hst hvar hen hroom hpay he hc hs =>
    have hne : s.state ≠ .empty := by simp [hst]
    have hcan := hb.canAppend_element hst hvar (flagged_lt hen hpay) hc
    exact (overflowed_elementAppended h hne hvar hen hroom hpay hcan hs).keeps_arrayInv hb ha hne
      (by simp [putField_state hb.params hs, hst]) hvar

end Sys2Proof.Machine

namespace Sys2Proof.Claims

open Sys2Proof Sys2Proof.Machine

/-- Settles O53, by the effects a step can have: the block's part is O52, the array's part the effects of
a command. -/
theorem stepKeepsInvariant : Obligations.StepKeepsInvariant := by
  intro s t h hstep
  refine ⟨stepKeepsBlockInvariant s t h.block hstep, ?_⟩
  obtain rfl | ⟨rest, rfl | he⟩ := step_effect hstep
  · exact h.array
  · exact .of_empty nofun rfl rfl rfl rfl
  · exact he.keeps_arrayInv ⟨h.block.takePending rest, h.array.takePending rest⟩

end Sys2Proof.Claims
end

section
/-! PROOFS. The reads (20_memory.md R59): READ_BITS and the unpack commands end in the same way in two
states that hold the same array, and a read ends by a raise or a response and writes nothing else. -/

namespace Sys2Proof.Claims

open Sys2Proof Sys2Proof.Machine

/-! ### What two states with the same array share -/

section SameArray

variable {s u : State}

theorem SameArray.refl (s : State) : SameArray s s := rfl

theorem SameArray.params (h : SameArray s u) : u.params = s.params := (congrArg State.params h :)

theorem SameArray.state (h : SameArray s u) : u.state = s.state := (congrArg State.state h :)

theorem SameArray.config (h : SameArray s u) : u.config = s.config := (congrArg State.config h :)

theorem SameArray.cursor (h : SameArray s u) : u.cursor = s.cursor := (congrArg State.cursor h :)

theorem SameArray.count (h : SameArray s u) : u.count = s.count := (congrArg State.count h :)

theorem SameArray.ovfCount (h : SameArray s u) : u.ovfCount = s.ovfCount :=
  (congrArg State.ovfCount h :)

theorem SameArray.words (h : SameArray s u) : u.words = s.words := (congrArg State.words h :)

theorem SameArray.ovf (h : SameArray s u) : u.ovf = s.ovf := (congrArg State.ovf h :)

theorem SameArray.legal (h : SameArray s u) (i : Instr) : legal i u = legal i s := by
  unfold Machine.legal
  rw [h.state, h.config]

theorem SameArray.widthLegal (h : SameArray s u) (width : BitVec 7) :
    widthLegal u width = widthLegal s width := by
  unfold Machine.widthLegal
  rw [h.params]

theorem SameArray.ksOf (h : SameArray s u) : ksOf u = ksOf s := by
  unfold Machine.ksOf
  rw [h.config]

theorem SameArray.kpOf (h : SameArray s u) : kpOf u = kpOf s := by
  unfold Machine.kpOf
  rw [h.ksOf]

theorem SameArray.primAddr (h : SameArray s u) (i : Nat) : primAddr u i = primAddr s i := by
  unfold Machine.primAddr
  rw [h.config, h.params, h.kpOf]

theorem SameArray.readFrom (h : SameArray s u) (r p n : Nat) :
    readFrom u r p n = readFrom s r p n := by
  induction n generalizing r p with
  | zero => rfl
  | succ n ih => simp only [Machine.readFrom, readBit_eq_of h.params h.words, ih]

theorem SameArray.memRead (h : SameArray s u) (p n : Nat) : memRead u p n = memRead s p n :=
  h.readFrom 0 p n

theorem SameArray.flagSum (h : SameArray s u) (i : Nat) : flagSum u i = flagSum s i := by
  induction i with
  | zero => simp only [Machine.flagSum, h.primAddr, h.memRead]
  | succ i ih => simp only [Machine.flagSum, ih, h.primAddr, h.memRead]

theorem SameArray.overflowPosition (h : SameArray s u) (i payload : Nat) :
    overflowPosition u i payload = overflowPosition s i payload := by
  unfold Machine.overflowPosition ovfPosCompact
  rw [h.config, h.flagSum]

theorem SameArray.ovfRead (h : SameArray s u) (j : Nat) : ovfRead u j = ovfRead s j := by
  unfold Machine.ovfRead
  rw [h.params, h.ovf]

end SameArray

/-! ### Ending in the same way -/

/-- How a read ends in two states: both raise the same cause, both respond with the same data, or both
stop with the same fault; neither writes anything before (20_memory.md R59). -/
inductive EndsAlike (s u : State) :
    Host.Outcome State Fault Refusal → Host.Outcome State Fault Refusal → Prop where
  | raised {c : Cause} (hc : c ≠ .noError) : EndsAlike s u (.next (raise c s)) (.next (raise c u))
  | responded (d : Word) : EndsAlike s u (.next (respond d s)) (.next (respond d u))
  | faulted (f : Fault) : EndsAlike s u (.fault f) (.fault f)

/-- A check that both states pass or both fail comes before the rest (60_exceptions.md R252). -/
theorem EndsAlike.check {s u : State} {o o' : Host.Outcome State Fault Refusal} {b : Prop}
    [Decidable b] {c : Cause} (hc : c ≠ .noError) (ho : EndsAlike s u o o') :
    EndsAlike s u (if b then .next (raise c s) else o) (if b then .next (raise c u) else o') := by
  split
  · exact .raised hc
  · exact ho

theorem respond_injective {d e : Word} {s : State} (h : respond d s = respond e s) : d = e := by
  simpa using congrArg State.responses h

/-- Where the first state ends with a next state, the second ends with the same cause and data. -/
theorem EndsAlike.next_cases {s t u : State} {o : Host.Outcome State Fault Refusal}
    (h : EndsAlike s u (.next t) o) :
    (∃ c, c ≠ .noError ∧ t = raise c s ∧ o = .next (raise c u)) ∨
    (∃ d, t = respond d s ∧ o = .next (respond d u)) := by
  cases h with
  | raised hc => exact .inl ⟨_, hc, rfl, rfl⟩
  | responded d => exact .inr ⟨d, rfl, rfl⟩

section Reads

variable {s u : State}

theorem execReadBits_endsAlike (h : SameArray s u) (width : BitVec 7) (a : Word) :
    EndsAlike s u (execReadBits width a s) (execReadBits width a u) := by
  unfold execReadBits
  rw [h.legal, h.widthLegal, h.cursor, h.memRead]
  refine .check (by decide) (.check (by decide) (.check (by decide) ?_))
  split
  · exact .responded _
  · exact .faulted _

theorem unpackAt_endsAlike (h : SameArray s u) (i start : Nat) :
    EndsAlike s u (unpackAt s i start) (unpackAt u i start) := by
  unfold unpackAt
  rw [h.count, h.cursor, h.config, h.memRead]
  refine .check (by decide) (.check (by decide) ?_)
  split
  · exact .responded _
  · exact .faulted _

theorem execUnpackCons_endsAlike (h : SameArray s u) (a : Word) :
    EndsAlike s u (execUnpackCons a s) (execUnpackCons a u) := by
  unfold execUnpackCons
  rw [h.legal, h.config]
  exact .check (by decide) (unpackAt_endsAlike h _ _)

theorem execUnpackNcons_endsAlike (h : SameArray s u) (a : Word) :
    EndsAlike s u (execUnpackNcons a s) (execUnpackNcons a u) := by
  unfold execUnpackNcons
  rw [h.legal, h.config, h.params]
  exact .check (by decide) (unpackAt_endsAlike h _ _)

theorem unpackEntry_endsAlike (h : SameArray s u) (j : Nat) :
    EndsAlike s u (unpackEntry s j) (unpackEntry u j) := by
  unfold unpackEntry
  rw [h.ovfCount, h.params, h.ovfRead]
  refine .check (by decide) ?_
  split
  · exact .responded _
  · exact .faulted _

theorem unpackPrimary_endsAlike (h : SameArray s u) (i f : Nat) :
    EndsAlike s u (unpackPrimary s i f) (unpackPrimary u i f) := by
  unfold unpackPrimary
  rw [h.ksOf, h.config, h.overflowPosition]
  split
  · split
    · exact unpackEntry_endsAlike h _
    · exact .faulted _
  · exact .responded _

theorem execUnpackOvf_endsAlike (h : SameArray s u) (a : Word) :
    EndsAlike s u (execUnpackOvf a s) (execUnpackOvf a u) := by
  unfold execUnpackOvf
  rw [h.legal, h.count, h.primAddr, h.kpOf, h.cursor, h.memRead]
  refine .check (by decide) (.check (by decide) (.check (by decide) ?_))
  split
  · exact unpackPrimary_endsAlike h _ _
  · exact .faulted _

/-- A read ends in the same way in every state with the same array. -/
theorem exec_endsAlike_of_isRead {i : Instr} (hi : isRead i = true) (h : SameArray s u) :
    EndsAlike s u (exec i s) (exec i u) := by
  cases i with
  | readBits width offset => exact execReadBits_endsAlike h width offset
  | unpackCons index => exact execUnpackCons_endsAlike h index
  | unpackNcons index => exact execUnpackNcons_endsAlike h index
  | unpackOvf index => exact execUnpackOvf_endsAlike h index
  | _ => cases hi

/-- What a read can do: it raises, or it responds with data that every state with the same array
gives, and it writes nothing beside that. -/
theorem exec_cases_of_isRead {i : Instr} {s t : State} (hi : isRead i = true)
    (h : exec i s = .next t) :
    (∃ c, c ≠ .noError ∧ t = raise c s) ∨
    (∃ d, t = respond d s ∧ ∀ u, SameArray s u → exec i u = .next (respond d u)) := by
  have hends (u : State) (hsame : SameArray s u) : EndsAlike s u (.next t) (exec i u) :=
    h ▸ exec_endsAlike_of_isRead hi hsame
  obtain ⟨c, hc, ht, -⟩ | ⟨d, ht, -⟩ := (hends s (.refl s)).next_cases
  · exact .inl ⟨c, hc, ht⟩
  · refine .inr ⟨d, ht, fun u hsame => ?_⟩
    obtain ⟨c, hc, hraise, -⟩ | ⟨e, he, hu⟩ := (hends u hsame).next_cases
    · exact absurd (congrArg State.lastCause (ht.symm.trans hraise)).symm hc
    · rw [hu, respond_injective (he.symm.trans ht)]

end Reads

/-- Settles O19: a read is a raise, whose effects touch no memory and no counter, or a response with
data that the array alone determines. -/
theorem readsHaveNoSideEffect : Obligations.ReadsHaveNoSideEffect := by
  intro i s t hi h
  obtain ⟨c, hc, rfl⟩ | ⟨d, rfl, hsame⟩ := exec_cases_of_isRead hi h
  · refine ⟨⟨rfl, rfl, rfl, rfl, rfl, rfl⟩, fun hnone => absurd hnone hc, fun hcons => ?_⟩
    obtain rfl : c = .consistencyError := hcons
    rfl
  · exact ⟨⟨rfl, rfl, rfl, rfl, rfl, rfl⟩, fun _ => ⟨d, rfl, hsame⟩, nofun⟩

end Sys2Proof.Claims
end

section
/-! PROOFS. The encoding (30_encoding.md R72 to R77): a field put in its place in a header is read back
from there and from no other place, so decoding undoes encoding, and a header is its opcode's fixed bits
with its fields in their places, so encoding undoes decoding. -/

namespace Sys2Proof

/-! ### Fields and their places in a header -/

theorem extractLsb'_place {n p : Nat} (hp : p + n ≤ 32) (x : BitVec n) :
    (x.zeroExtend 32 <<< p).extractLsb' p n = x := by
  apply BitVec.eq_of_getLsbD_eq
  intro j hj
  simp [hj, show p + j < 32 by omega]

theorem extractLsb'_place_of_disjoint {n p q m : Nat} (h : q + m ≤ p ∨ p + n ≤ q) (x : BitVec n) :
    (x.zeroExtend 32 <<< p).extractLsb' q m = 0#m := by
  apply BitVec.eq_of_getLsbD_eq
  intro j hj
  have hout : q + j < p ∨ n ≤ q + j - p := by omega
  rcases hout with hlow | hhigh
  · simp [hlow]
  · simp [BitVec.getLsbD_of_ge x _ hhigh]

/-- A field put back in its place is the header's bits of that place. -/
theorem place_extractLsb' (h : Header) (p n : Nat) :
    (h.extractLsb' p n).zeroExtend 32 <<< p = h &&& ((BitVec.allOnes n).zeroExtend 32 <<< p) := by
  apply BitVec.eq_of_getLsbD_eq
  intro j hj
  by_cases hp : j < p
  · simp [hp]
  · simp [hj, hp, show p + (j - p) = j by omega, Bool.and_comm]

/-- A flag is a field of one bit. -/
theorem bitAt_eq_place (p : Nat) (b : Bool) : bitAt p b = (BitVec.ofBool b).zeroExtend 32 <<< p := by
  cases b
  · simp [bitAt]
  · rfl

theorem ofBool_getLsbD (h : Header) (p : Nat) :
    BitVec.ofBool (h.getLsbD p) = h.extractLsb' p 1 := by
  apply BitVec.eq_of_getLsbD_eq
  intro j hj
  obtain rfl : j = 0 := by omega
  simp

/-! ### The decoder's four answers (30_encoding.md R79) -/

theorem decode_of_reservedOpcode {h : Header} (a : Word) (ho : opcodeOf (opcField h) = none) :
    decode h a = .error .reservedOpcode := by
  unfold decode
  rw [ho]

theorem decode_of_mismatch {h : Header} {o : Opcode} (a : Word)
    (ho : opcodeOf (opcField h) = some o) (hm : h &&& o.mask ≠ o.fixed) :
    decode h a = .error .reservedBits := by
  unfold decode
  rw [ho]
  exact if_neg hm

theorem decode_of_match {h : Header} {o : Opcode} (a : Word) (hm : h &&& o.mask = o.fixed) :
    decode h a = if wellFormed (o.operands h a) then .ok (o.operands h a)
      else .error .reservedRegister := by
  have ho : opcodeOf (opcField h) = some o := by
    rw [Laws.opcField_of_and hm, Laws.opcodeOf_fixed]
  unfold decode
  rw [ho]
  exact if_pos hm

/-- What a header that decodes is. -/
theorem decode_eq_ok {h : Header} {a : Word} {i : Instr} (hd : decode h a = .ok i) :
    ∃ o : Opcode, h &&& o.mask = o.fixed ∧ wellFormed i = true ∧ i = o.operands h a := by
  match ho : opcodeOf (opcField h) with
  | none =>
    rw [decode_of_reservedOpcode a ho] at hd
    cases hd
  | some o =>
    by_cases hm : h &&& o.mask = o.fixed
    · rw [decode_of_match a hm] at hd
      split at hd <;> cases hd
      exact ⟨o, hm, ‹_›, rfl⟩
    · rw [decode_of_mismatch a ho hm] at hd
      cases hd

/-! ### Decoding an encoding -/

theorem encodeHeader_and_mask (i : Instr) :
    encodeHeader i &&& (opcodeOfInstr i).mask = (opcodeOfInstr i).fixed := by
  cases i with
  | beginSession width ksmall variant signed ovfEn ovfMode =>
    exact (Laws.EncodeMatchesTable.beginSession width ksmall variant signed ovfEn ovfMode).1
  | writeBits width value => exact (Laws.EncodeMatchesTable.writeBits width value).1
  | readBits width offset => exact (Laws.EncodeMatchesTable.readBits width offset).1
  | rdreg reg => exact (Laws.EncodeMatchesTable.rdreg reg).1
  | _ => exact Laws.fixed_and_mask _

/-- A header is read field by field: each of BEGIN's six operands, and the one of WRITE_BITS, READ_BITS and
RDREG, stands alone in its own field (30_encoding.md R72). -/
theorem operands_encode (i : Instr) :
    (opcodeOfInstr i).operands (encodeHeader i) (encodeArg i) = i := by
  cases i with
  | beginSession width ksmall variant signed ovfEn ovfMode =>
    simp (disch := omega) [opcodeOfInstr, Opcode.operands, encodeHeader, Opcode.fixed, widthField,
      ksmallField, variantField, signedField, ovfEnField, ovfModeField, bitAt_eq_place,
      BitVec.extractLsb'_or, extractLsb'_place, extractLsb'_place_of_disjoint]
  | writeBits width value =>
    simp (disch := omega) [opcodeOfInstr, Opcode.operands, encodeHeader, encodeArg, Opcode.fixed,
      widthField, BitVec.extractLsb'_or, extractLsb'_place]
  | readBits width offset =>
    simp (disch := omega) [opcodeOfInstr, Opcode.operands, encodeHeader, encodeArg, Opcode.fixed,
      widthField, BitVec.extractLsb'_or, extractLsb'_place]
  | rdreg reg =>
    simp (disch := omega) [opcodeOfInstr, Opcode.operands, encodeHeader, Opcode.fixed,
      regField, BitVec.extractLsb'_or, extractLsb'_place]
  | _ => rfl

theorem decode_encode {i : Instr} (hi : WellFormed i) :
    decode (encodeHeader i) (encodeArg i) = .ok i := by
  rw [decode_of_match _ (encodeHeader_and_mask i), operands_encode, if_pos hi]

/-! ### Encoding what was decoded -/

/-- A header with an opcode's fixed bits is those bits and its fields, since the fields cover every bit
that MASK leaves free (30_encoding.md R74). -/
theorem encodeHeader_operands {h : Header} {o : Opcode} (a : Word) (hm : h &&& o.mask = o.fixed) :
    encodeHeader (o.operands h a) = h := by
  cases o with
  | begin_ =>
    simp only [Opcode.operands, encodeHeader, ← hm, widthField, ksmallField, variantField, signedField,
      ovfEnField, ovfModeField, bitAt_eq_place, ofBool_getLsbD, place_extractLsb',
      ← BitVec.and_or_distrib_left]
    exact BitVec.and_allOnes
  | writeBits =>
    simp only [Opcode.operands, encodeHeader, ← hm, widthField, place_extractLsb',
      ← BitVec.and_or_distrib_left]
    exact BitVec.and_allOnes
  | readBits =>
    simp only [Opcode.operands, encodeHeader, ← hm, widthField, place_extractLsb',
      ← BitVec.and_or_distrib_left]
    exact BitVec.and_allOnes
  | rdreg =>
    simp only [Opcode.operands, encodeHeader, ← hm, regField, place_extractLsb',
      ← BitVec.and_or_distrib_left]
    exact BitVec.and_allOnes
  | _ => exact hm.symm.trans BitVec.and_allOnes

theorem encodeArg_operands (o : Opcode) (h : Header) (a : Word) :
    encodeArg (o.operands h a) = if Claims.ignoresArgument (o.operands h a) then 0#64 else a := by
  cases o <;> rfl

end Sys2Proof
end

section
/-! PROOFS. The decoder against the tables of the spec (30_encoding.md R72 to R75, R79, R80), which the
statements write out in numbers. -/

namespace Sys2Proof.Claims

open Sys2Proof Sys2Proof.Machine

/-! ### Header fields as numbers -/

theorem toNat_extractLsb'_eq_bitsOf (h : Header) (hi lo : Nat) :
    (h.extractLsb' lo (hi - lo + 1)).toNat = bitsOf h hi lo := by
  rw [BitVec.extractLsb'_toNat, Nat.shiftRight_eq_div_pow]
  rfl

theorem toNat_opcField (h : Header) : (opcField h).toNat = bitsOf h 31 28 :=
  toNat_extractLsb'_eq_bitsOf h 31 28

theorem toNat_regField (h : Header) : (regField h).toNat = bitsOf h 8 5 :=
  toNat_extractLsb'_eq_bitsOf h 8 5

theorem ofNat_bitsOf_eq_extractLsb' (h : Header) (hi lo : Nat) :
    BitVec.ofNat (hi - lo + 1) (bitsOf h hi lo) = h.extractLsb' lo (hi - lo + 1) := by
  rw [← toNat_extractLsb'_eq_bitsOf, BitVec.ofNat_toNat, BitVec.setWidth_eq]

theorem ofNat_bitsOf_widthField (h : Header) : BitVec.ofNat 7 (bitsOf h 27 21) = widthField h :=
  ofNat_bitsOf_eq_extractLsb' h 27 21

theorem ofNat_bitsOf_ksmallField (h : Header) : BitVec.ofNat 7 (bitsOf h 20 14) = ksmallField h :=
  ofNat_bitsOf_eq_extractLsb' h 20 14

theorem ofNat_bitsOf_variantField (h : Header) : BitVec.ofNat 2 (bitsOf h 13 12) = variantField h :=
  ofNat_bitsOf_eq_extractLsb' h 13 12

theorem ofNat_bitsOf_regField (h : Header) : BitVec.ofNat 4 (bitsOf h 8 5) = regField h :=
  ofNat_bitsOf_eq_extractLsb' h 8 5

theorem bitsOf_flag (h : Header) (p : Nat) : (bitsOf h p p == 1) = h.getLsbD p := by
  rw [← BitVec.testBit_toNat, Nat.testBit_eq_decide_div_mod_eq]
  simp [bitsOf, beq_eq_decide]

/-! ### The opcode map and the mask table -/

/-- The opcode map is one to one on the assigned opcodes (30_encoding.md R73). -/
theorem opcodeOf_eq_some_iff {b : BitVec 4} {o : Opcode} :
    opcodeOf b = some o ↔ b = opcField o.fixed := by
  constructor
  · revert b
    cases o <;> decide
  · rintro rfl
    exact Laws.opcodeOf_fixed o

theorem mem_maskTable (o : Opcode) :
    ((opcField o.fixed).toNat, o.mask.toNat, o.fixed.toNat) ∈ maskTable := by
  cases o <;> decide

theorem eq_of_mem_maskTable : ∀ row ∈ maskTable, ∃ o : Opcode,
    row = ((opcField o.fixed).toNat, o.mask.toNat, o.fixed.toNat) := by
  simp only [maskTable, List.forall_mem_cons]
  exact ⟨⟨.begin_, rfl⟩, ⟨.writeBits, rfl⟩, ⟨.readBits, rfl⟩, ⟨.packCons, rfl⟩, ⟨.packNcons, rfl⟩,
    ⟨.packOvf, rfl⟩, ⟨.end_, rfl⟩, ⟨.unpackCons, rfl⟩, ⟨.unpackNcons, rfl⟩, ⟨.unpackOvf, rfl⟩,
    ⟨.rdreg, rfl⟩, nofun⟩

/-! ### The three ways a header is no command -/

theorem reservedOpcode_iff {h : Header} : ReservedOpcode h ↔ opcodeOf (opcField h) = none := by
  rw [ReservedOpcode, ← toNat_opcField]
  generalize opcField h = b
  revert b
  decide

theorem reservedBitSet_iff {h : Header} {o : Opcode} (ho : opcodeOf (opcField h) = some o) :
    ReservedBitSet h ↔ h &&& o.mask ≠ o.fixed := by
  have hopc : opcField h = opcField o.fixed := opcodeOf_eq_some_iff.1 ho
  have hrow (p : Opcode) :
      h.toNat &&& p.mask.toNat ≠ p.fixed.toNat ↔ h &&& p.mask ≠ p.fixed := by
    rw [← BitVec.toNat_and]
    exact BitVec.toNat_inj.not
  constructor
  · rintro ⟨row, hmem, hcode, hne⟩
    obtain ⟨p, rfl⟩ := eq_of_mem_maskTable row hmem
    rw [← toNat_opcField] at hcode
    have hp : opcodeOf (opcField h) = some p :=
      opcodeOf_eq_some_iff.2 (BitVec.eq_of_toNat_eq hcode).symm
    obtain rfl : o = p := Option.some.inj (ho.symm.trans hp)
    exact (hrow o).1 hne
  · intro hne
    exact ⟨_, mem_maskTable o, by rw [← toNat_opcField, hopc], (hrow o).2 hne⟩

/-- An RDREG of a reserved register number is the one instruction a header can name that is not
well-formed (30_encoding.md R80). -/
theorem reservedRegister_iff {h : Header} {o : Opcode} (a : Word)
    (ho : opcodeOf (opcField h) = some o) :
    ReservedRegister h ↔ wellFormed (o.operands h a) = false := by
  rw [ReservedRegister, ← toNat_opcField, ← toNat_regField, opcodeOf_eq_some_iff.1 ho]
  cases o with
  | rdreg => simp [Opcode.operands, wellFormed, opcField, Opcode.fixed]
  | _ => exact iff_of_false (fun ⟨hopc, _⟩ => absurd hopc (by decide)) nofun

/-- The decoder takes every operand from the header bits of 30_encoding.md R72. -/
theorem commandOf_eq {h : Header} {o : Opcode} (a : Word) (ho : opcodeOf (opcField h) = some o) :
    commandOf h a = some (o.operands h a) := by
  have hopc : bitsOf h 31 28 = (opcField o.fixed).toNat := by
    rw [← toNat_opcField, opcodeOf_eq_some_iff.1 ho]
  unfold commandOf
  rw [hopc, ofNat_bitsOf_widthField, ofNat_bitsOf_ksmallField, ofNat_bitsOf_variantField,
    ofNat_bitsOf_regField, bitsOf_flag, bitsOf_flag, bitsOf_flag]
  cases o <;> rfl

theorem exists_opcode_of_not_reserved {h : Header} (hr : ¬ ReservedOpcode h) :
    ∃ o, opcodeOf (opcField h) = some o :=
  Option.ne_none_iff_exists'.1 (mt reservedOpcode_iff.2 hr)

theorem step_of_illegal_header {s : State} {h : Header} {a : Word} {e : Illegal}
    {rest : List HostAction} (hd : decode h a = .error e) (hp : ParamsLegal s.params)
    (hpend : s.pending = .command h a :: rest) :
    ∃ t, step s = .next t ∧ Raised .illegalCommand { s with pending := rest } t :=
  ⟨_, by rw [step_of_command hp hpend, runCommand_of_error hd], raise_raised _ _⟩

/-! ### The statements of 30_encoding.md -/

/-- Settles O1: the encoded header has its opcode's fixed bits, and every operand is read back from its
own field. -/
theorem decodeOfEncodeIsIdentity : Obligations.DecodeOfEncodeIsIdentity :=
  fun _ hi => decode_encode hi

/-- Settles O2: a header that decodes has its opcode's fixed bits, and its fields are put back where they
were read. -/
theorem encodeOfDecodeIsHeader : Obligations.EncodeOfDecodeIsHeader := by
  intro h a i hd
  obtain ⟨o, hm, hwf, rfl⟩ := decode_eq_ok hd
  exact ⟨hwf, encodeHeader_operands a hm, encodeArg_operands o h a⟩

/-- Settles O3, by the decoder's four answers, each read against the spec's table. -/
theorem decoderChecksInOrder : Obligations.DecoderChecksInOrder := by
  intro h a
  refine ⟨fun hopc => decode_of_reservedOpcode a (reservedOpcode_iff.1 hopc), fun hopc hbit => ?_,
    fun hopc hbit hreg => ?_, fun hopc hbit hreg => ?_, fun e s rest hd hp hpend =>
      step_of_illegal_header hd hp hpend⟩
  all_goals obtain ⟨o, ho⟩ := exists_opcode_of_not_reserved hopc
  · exact decode_of_mismatch a ho ((reservedBitSet_iff ho).1 hbit)
  · have hm : h &&& o.mask = o.fixed := not_not.1 (mt (reservedBitSet_iff ho).2 hbit)
    rw [decode_of_match a hm, (reservedRegister_iff a ho).1 hreg]
    rfl
  · have hm : h &&& o.mask = o.fixed := not_not.1 (mt (reservedBitSet_iff ho).2 hbit)
    have hwf : wellFormed (o.operands h a) = true :=
      Bool.not_eq_false _ ▸ mt (reservedRegister_iff a ho).2 hreg
    exact ⟨_, commandOf_eq a ho, by rw [decode_of_match a hm, if_pos hwf]⟩

/-- A header that meets any one of the three conditions is refused: the first that it meets, in the order
of 30_encoding.md R79, says why. -/
theorem decode_error_of_reserved {h : Header}
    (hr : ReservedOpcode h ∨ ReservedBitSet h ∨ ReservedRegister h) (a : Word) :
    ∃ e, decode h a = .error e := by
  obtain ⟨hfirst, hsecond, hthird, -, -⟩ := decoderChecksInOrder h a
  by_cases hopc : ReservedOpcode h
  · exact ⟨_, hfirst hopc⟩
  by_cases hbit : ReservedBitSet h
  · exact ⟨_, hsecond hopc hbit⟩
  · exact ⟨_, hthird hopc hbit ((hr.resolve_left hopc).resolve_left hbit)⟩

/-- Settles O6: a reserved header does not decode, and a step raises IllegalCommand for it. -/
theorem illegalHeaderRaisesIllegalCommand : Obligations.IllegalHeaderRaisesIllegalCommand := by
  intro s h a rest hp hpend hr
  obtain ⟨e, hd⟩ := decode_error_of_reserved hr a
  exact step_of_illegal_header hd hp hpend

/-- Settles O4, by running the decoder on each header. -/
theorem specHeadersDecode : Obligations.SpecHeadersDecode :=
  ⟨by decide, by decide, by decide, by decide, by decide, by decide, by decide, by decide⟩

end Sys2Proof.Claims
end

section
/-! PROOFS. The response to a command (30_encoding.md R71, R78): there is one, and where the command
returns nothing its data word is 0. -/

namespace Sys2Proof.Machine

/-- The newest response carries the data word 0. -/
def AnswersZero (t : State) : Prop := ∀ r ∈ t.responses.head?, r.data = 0#64

theorem raise_answersZero (c : Cause) (s : State) : AnswersZero (raise c s) := by
  simp [AnswersZero]

theorem respond_answersZero (s : State) : AnswersZero (respond 0#64 s) := by
  simp [AnswersZero]

theorem execBegin_answersZero {width ksmall : BitVec 7} {variant : BitVec 2}
    {signed ovfEn ovfMode : Bool} {s t : State}
    (h : execBegin width ksmall variant signed ovfEn ovfMode s = .next t) : AnswersZero t := by
  obtain ⟨-, rfl⟩ | ⟨-, -, rfl⟩ | ⟨c, -, -, rfl⟩ := execBegin_cases h
  · exact raise_answersZero _ s
  · exact raise_answersZero _ s
  · exact respond_answersZero _

theorem execWriteBits_answersZero {width : BitVec 7} {a : Word} {s t : State}
    (h : execWriteBits width a s = .next t) : AnswersZero t := by
  obtain ⟨-, rfl⟩ | ⟨-, -, rfl⟩ | ⟨-, -, -, rfl⟩ | ⟨s1, -, -, -, -, rfl⟩ := execWriteBits_cases h
  · exact raise_answersZero _ s
  · exact raise_answersZero _ s
  · exact raise_answersZero _ s
  · exact respond_answersZero _

theorem packAt_answersZero {s t : State} {start : Nat} {x : Int}
    (h : packAt s start x = .next t) : AnswersZero t := by
  obtain ⟨-, rfl⟩ | ⟨-, -, rfl⟩ | ⟨s1, -, -, -, rfl⟩ := packAt_cases h
  · exact raise_answersZero _ s
  · exact raise_answersZero _ s
  · exact respond_answersZero _

theorem execPackCons_answersZero {a : Word} {s t : State} (h : execPackCons a s = .next t) :
    AnswersZero t := by
  obtain ⟨-, rfl⟩ | ⟨-, hpack⟩ := execPackCons_cases h
  · exact raise_answersZero _ s
  · exact packAt_answersZero hpack

theorem execPackNcons_answersZero {a : Word} {s t : State} (h : execPackNcons a s = .next t) :
    AnswersZero t := by
  obtain ⟨-, rfl⟩ | ⟨-, hpack⟩ := execPackNcons_cases h
  · exact raise_answersZero _ s
  · exact packAt_answersZero hpack

theorem packOverflowing_answersZero {s t : State} {x : Int} (h : packOverflowing s x = .next t) :
    AnswersZero t := by
  obtain ⟨-, rfl⟩ | ⟨-, -, rfl⟩ | ⟨s1, -, -, -, rfl⟩ := packOverflowing_cases h
  · exact raise_answersZero _ s
  · exact raise_answersZero _ s
  · exact respond_answersZero _

theorem execPackOvf_answersZero {a : Word} {s t : State} (h : execPackOvf a s = .next t) :
    AnswersZero t := by
  obtain ⟨-, rfl⟩ | ⟨-, -, rfl⟩ | ⟨-, -, -, hpack⟩ | ⟨-, -, -, hpack⟩ := execPackOvf_cases h
  · exact raise_answersZero _ s
  · exact raise_answersZero _ s
  · obtain ⟨s1, -, rfl⟩ := packFitting_cases hpack
    exact respond_answersZero _
  · exact packOverflowing_answersZero hpack

theorem execEnd_answersZero {s t : State} (h : execEnd s = .next t) : AnswersZero t := by
  obtain ⟨-, rfl⟩ | ⟨-, rfl⟩ := execEnd_cases h
  · exact raise_answersZero _ s
  · exact respond_answersZero _

/-- BEGIN, WRITE_BITS, the pack commands and END answer the data word 0 (30_encoding.md R78). -/
theorem exec_answersZero {i : Instr} {s t : State} (hi : Claims.returnsNothing i = true)
    (h : exec i s = .next t) : AnswersZero t := by
  cases i with
  | beginSession => exact execBegin_answersZero h
  | writeBits => exact execWriteBits_answersZero h
  | packCons => exact execPackCons_answersZero h
  | packNcons => exact execPackNcons_answersZero h
  | packOvf => exact execPackOvf_answersZero h
  | endSession => exact execEnd_answersZero h
  | _ => cases hi

/-- A command that answers a next state has taken one response from `s`, with LAST_CAUSE its cause. -/
theorem Ends.response {s t : State} (h : Ends s (.next t)) :
    ∃ r, t.responses = r :: s.responses ∧ t.pending = s.pending ∧ t.lastCause = r.cause ∧
      (r.cause ≠ .noError → r.data = 0#64) := by
  cases h with
  | raised hc => exact ⟨_, rfl, rfl, rfl, fun _ => rfl⟩
  | responded hs =>
    obtain ⟨-, -, hpend, hresp⟩ := hs
    exact ⟨_, congrArg _ hresp, hpend, rfl, fun hne => absurd rfl hne⟩

end Sys2Proof.Machine

namespace Sys2Proof.Claims

open Sys2Proof Sys2Proof.Machine

/-- Settles O10: a command ends in a raise or a response, either of which adds one response; the commands
that return nothing respond with 0. -/
theorem everyCommandGetsOneResponse : Obligations.EveryCommandGetsOneResponse := by
  intro s t h a rest hpend hstep
  obtain ⟨hp, -⟩ := step_cases hstep
  rw [step_of_command hp hpend] at hstep
  have hends : Ends { s with pending := rest } (.next t) := hstep ▸ runCommand_ends h a _
  obtain ⟨r, hresp, hrest, hcause, herr⟩ := hends.response
  refine ⟨r, hresp, hrest, hcause, herr, fun i hd hi => ?_⟩
  rw [runCommand_of_ok hd] at hstep
  exact exec_answersZero hi hstep r (by simp [hresp])

end Sys2Proof.Claims
end

section
/-! PROOFS. The index check of the unpack commands (30_encoding.md R77): it comes right after the check of
STATE, before any field address is used. -/

namespace Sys2Proof.Machine

theorem unpackAt_of_index_ge {s : State} {i start : Nat} (hi : s.count.toNat ≤ i) :
    unpackAt s i start = .next (raise .indexError s) := if_pos hi

theorem execUnpackCons_of_legal {a : Word} {s : State} (hl : legal (.unpackCons a) s = true) :
    execUnpackCons a s = unpackAt s (indexOperand a) (indexOperand a * s.config.k.toNat) := by
  simp [execUnpackCons, hl]

theorem execUnpackNcons_of_legal {a : Word} {s : State} (hl : legal (.unpackNcons a) s = true) :
    execUnpackNcons a s =
      unpackAt s (indexOperand a) (fieldAddrNC s.params.w (indexOperand a) s.config.k.toNat) := by
  simp [execUnpackNcons, hl]

theorem execUnpackOvf_of_index_ge {a : Word} {s : State} (hl : legal (.unpackOvf a) s = true)
    (hi : s.count.toNat ≤ indexOperand a) :
    execUnpackOvf a s = .next (raise .indexError s) := by
  simp [execUnpackOvf, hl, hi]

end Sys2Proof.Machine

namespace Sys2Proof.Claims

open Sys2Proof Sys2Proof.Machine

/-- Settles O40: the index check is the first after legality, for all three layouts. -/
theorem indexPastCountRaisesIndexError : Obligations.IndexPastCountRaisesIndexError := by
  intro a s hi
  refine ⟨fun hs => .of_eq ?_, fun hs => .of_eq ?_, fun hs => .of_eq ?_⟩
  · exact (execUnpackCons_of_legal (legal_unpackCons.2 hs)).trans (unpackAt_of_index_ge hi)
  · exact (execUnpackNcons_of_legal (legal_unpackNcons.2 hs)).trans (unpackAt_of_index_ge hi)
  · exact execUnpackOvf_of_index_ge (legal_unpackOvf.2 hs) hi

end Sys2Proof.Claims
end

section
/-! PROOFS. The word-buffer primitives word by word (40_word_buffer.md R100, R101, R106, R107): which bit
of which word a stream address is, what MemRead takes from the words it reads, and what MemWrite leaves
in every bit of every word. -/

namespace Sys2Proof.Machine

/-! ### The place of a field's bits -/

theorem place_add_of_lt {prm : Params} {p j : Nat} (h : p % prm.w + j < prm.w) :
    wordOf prm (p + j) = p / prm.w ∧ bitOf prm (p + j) = prm.w - 1 - (p % prm.w + j) := by
  obtain ⟨hword, hplace⟩ : (p + j) / prm.w = p / prm.w ∧ (p + j) % prm.w = p % prm.w + j := by
    refine (Nat.div_mod_unique (by omega)).2 ⟨?_, h⟩
    have := Nat.mod_add_div p prm.w
    omega
  exact ⟨hword, by rw [bitOf, hplace]⟩

theorem place_add_of_ge {prm : Params} {p j : Nat} (h : prm.w ≤ p % prm.w + j)
    (hj : p % prm.w + j < 2 * prm.w) :
    wordOf prm (p + j) = p / prm.w + 1 ∧
      bitOf prm (p + j) = prm.w - 1 - (p % prm.w + j - prm.w) := by
  obtain ⟨hword, hplace⟩ :
      (p + j) / prm.w = p / prm.w + 1 ∧ (p + j) % prm.w = p % prm.w + j - prm.w := by
    refine (Nat.div_mod_unique (by omega)).2 ⟨?_, by omega⟩
    have := Nat.mod_add_div p prm.w
    rw [Nat.mul_add]
    omega
  exact ⟨hword, by rw [bitOf, hplace]⟩

/-- The last bit of a field stands in its first word, or in the next when the field straddles. -/
theorem wordOf_last {prm : Params} {p n : Nat} (hn : 1 ≤ n) (hw : n ≤ prm.w) :
    wordOf prm (p + n - 1) =
      if p % prm.w + n ≤ prm.w then p / prm.w else p / prm.w + 1 := by
  have hmod := Nat.mod_lt p (show 0 < prm.w by omega)
  rw [Nat.add_sub_assoc hn]
  split
  · exact (place_add_of_lt (by omega)).1
  · exact (place_add_of_ge (by omega) (by omega)).1

/-! ### MemRead takes slices of words -/

theorem readBit_of_readWord {s : State} {p : Nat} {x : Word}
    (h : readWord s (wordOf s.params p) = .ok x) :
    readBit s p = .ok (x.getLsbD (bitOf s.params p)) := by
  rw [readBit, h]

theorem readFrom_congr {s t : State} {r p n : Nat}
    (h : ∀ j, j < n → readBit t (p + j) = readBit s (p + j)) :
    readFrom t r p n = readFrom s r p n := by
  induction n generalizing r p with
  | zero => rfl
  | succ n ih =>
    have hhead : readBit t p = readBit s p := h 0 (by omega)
    have htail : ∀ r, readFrom t r (p + 1) n = readFrom s r (p + 1) n := fun r => ih fun j hj => by
      rw [Nat.add_assoc, Nat.add_comm 1 j]
      exact h (j + 1) (by omega)
    simp only [readFrom, hhead, htail]

theorem memRead_congr {s t : State} {p n : Nat}
    (h : ∀ j, j < n → readBit t (p + j) = readBit s (p + j)) : memRead t p n = memRead s p n :=
  readFrom_congr h

/-- A field inside one word is a slice of it (40_word_buffer.md R101). -/
theorem memRead_of_within {s : State} {p n : Nat} {x : Word}
    (hx : readWord s (p / s.params.w) = .ok x) (hfit : p % s.params.w + n ≤ s.params.w) :
    memRead s p n = .ok (x.toNat / 2 ^ (s.params.w - p % s.params.w - n) % 2 ^ n) := by
  refine memRead_eq_ok.2 ⟨fun j hj => ?_, Nat.mod_lt _ (Nat.two_pow_pos n)⟩
  obtain ⟨hword, hbit⟩ := place_add_of_lt (prm := s.params) (p := p) (j := j) (by omega)
  rw [readBit_of_readWord (by rw [hword]; exact hx), hbit, Nat.testBit_mod_two_pow,
    Nat.testBit_div_two_pow, BitVec.testBit_toNat, decide_eq_true (by omega), Bool.true_and]
  congr 2
  omega

/-- A field that straddles is the tail of its first word followed by the head of the next
(40_word_buffer.md R101). -/
theorem memRead_of_straddle {s : State} {p n l : Nat} {x y : Word} (hn : n ≤ s.params.w)
    (hw : 1 ≤ s.params.w)
    (hx : readWord s (p / s.params.w) = .ok x) (hy : readWord s (p / s.params.w + 1) = .ok y)
    (hcross : s.params.w < p % s.params.w + n) (hl : l = p % s.params.w + n - s.params.w) :
    memRead s p n = .ok (x.toNat % 2 ^ (s.params.w - p % s.params.w) * 2 ^ l +
      y.toNat / 2 ^ (s.params.w - l) % 2 ^ l) := by
  have hmod := Nat.mod_lt p hw
  have hlow : y.toNat / 2 ^ (s.params.w - l) % 2 ^ l < 2 ^ l := Nat.mod_lt _ (Nat.two_pow_pos l)
  have hhigh : x.toNat % 2 ^ (s.params.w - p % s.params.w) < 2 ^ (s.params.w - p % s.params.w) :=
    Nat.mod_lt _ (Nat.two_pow_pos _)
  rw [Nat.mul_comm]
  refine memRead_eq_ok.2 ⟨fun j hj => ?_, ?_⟩
  · rw [Nat.testBit_two_pow_mul_add _ hlow]
    by_cases hj' : p % s.params.w + j < s.params.w
    · obtain ⟨hword, hbit⟩ := place_add_of_lt hj'
      rw [readBit_of_readWord (by rw [hword]; exact hx), hbit, if_neg (by omega),
        Nat.testBit_mod_two_pow, BitVec.testBit_toNat, decide_eq_true (by omega), Bool.true_and]
      congr 2
      omega
    · obtain ⟨hword, hbit⟩ :=
        place_add_of_ge (prm := s.params) (p := p) (j := j) (by omega) (by omega)
      rw [readBit_of_readWord (by rw [hword]; exact hy), hbit, if_pos (by omega),
        Nat.testBit_mod_two_pow, Nat.testBit_div_two_pow, BitVec.testBit_toNat,
        decide_eq_true (by omega), Bool.true_and]
      congr 2
      omega
  · have hn : n = l + (s.params.w - p % s.params.w) := by omega
    calc 2 ^ l * (x.toNat % 2 ^ (s.params.w - p % s.params.w)) + _
        < 2 ^ l * (x.toNat % 2 ^ (s.params.w - p % s.params.w) + 1) := by
          rw [Nat.mul_add]; omega
      _ ≤ 2 ^ l * 2 ^ (s.params.w - p % s.params.w) := Nat.mul_le_mul_left _ hhigh
      _ = 2 ^ n := by rw [← Nat.pow_add, ← hn]

/-! ### A field that was written stays until it is written again -/

/-- The n-bit field at p holds u and lies in allocated words. -/
structure FieldHeld (s : State) (p n u : Nat) : Prop where
  field : FieldAt s p n u
  allocated : ∀ j, j < n → wordOf s.params (p + j) < s.lenWords.toNat

theorem FieldHeld.of_memWrite {s t : State} {p n v : Nat} (hp : ParamsLegal s.params)
    (hv : v < 2 ^ n) (h : memWrite s p n v = .ok t) : FieldHeld t p n v where
  field := by
    refine ⟨fun j hj => ?_, hv⟩
    rw [memWrite_readBit hp h, if_pos (by omega), Nat.add_sub_cancel_left]
  allocated j hj := by
    have hle : wordOf s.params (p + j) ≤ wordOf s.params (p + n - 1) :=
      Nat.div_le_div_right (by omega)
    rw [memWrite_params hp h, memWrite_lenWords hp h, if_neg (by omega)]
    omega

/-- A write to other stream addresses leaves the field. -/
theorem FieldHeld.memWrite {s t : State} {p n u p' n' v' : Nat} (hp : ParamsLegal s.params)
    (hf : FieldHeld s p n u) (hother : p' + n' ≤ p ∨ p + n ≤ p')
    (h : memWrite s p' n' v' = .ok t) : FieldHeld t p n u where
  field := hf.field.congr fun j hj => by
    have := hf.allocated j hj
    rw [memWrite_readBit hp h, if_neg (by omega), if_neg (by omega)]
  allocated j hj := by
    rw [memWrite_params hp h]
    exact Nat.lt_of_lt_of_le (hf.allocated j hj) (memWrite_lenWords_le hp h)

theorem FieldHeld.writeAll {s t : State} {p n u : Nat} {later : List (Nat × Nat × Nat)}
    (hp : ParamsLegal s.params) (hf : FieldHeld s p n u)
    (hother : ∀ f ∈ later, f.1 + f.2.1 ≤ p ∨ p + n ≤ f.1)
    (h : Claims.writeAll s later = .ok t) : FieldHeld t p n u := by
  induction later generalizing s with
  | nil => cases h; exact hf
  | cons f later ih =>
    obtain ⟨p', n', v'⟩ := f
    simp only [Claims.writeAll] at h
    split at h
    · rename_i s1 hm
      obtain ⟨hfirst, hrest⟩ := List.forall_mem_cons.1 hother
      exact ih (by rw [memWrite_params hp hm]; exact hp) (hf.memWrite hp hfirst hm) hrest h
    · cases h

/-! ### The words MemWrite leaves -/

/-- WORDS[q] as MemWrite finds it: a word that is not allocated counts as 0, which is what its
allocation sets it to (40_word_buffer.md R100). -/
def cellOf (s : State) (q : Nat) : Word :=
  if q < s.lenWords.toNat then (Memory.get s.words q).getD 0#64 else 0#64

theorem cellOf_of_ge {s : State} {q : Nat} (hq : s.lenWords.toNat ≤ q) : cellOf s q = 0#64 :=
  if_neg (by omega)

theorem get_eq_cellOf {s : State} {q : Nat} (hq : q < s.lenWords.toNat)
    (h : (Memory.get s.words q).isSome = true) : Memory.get s.words q = some (cellOf s q) := by
  obtain ⟨x, hx⟩ := Option.isSome_iff_exists.1 h
  rw [cellOf, if_pos hq, hx, Option.getD_some]

/-- Writing a bit changes one bit of one word and no other word. -/
theorem writeBit_cellOf {s t : State} {p : Nat} {v : Bool} (hp : ParamsLegal s.params)
    (h : writeBit s p v = .ok t) (q : Nat) :
    cellOf t q = if q = wordOf s.params p then setWordBit (cellOf s q) (bitOf s.params p) v
      else cellOf s q := by
  obtain ⟨-, hlen, -, x, hx, -, hget⟩ := writeBit_spec hp h
  have hcell : x = cellOf s (wordOf s.params p) := by
    rw [hx, cellOf]
    by_cases hq : wordOf s.params p < s.lenWords.toNat
    · rw [if_neg (by omega), if_pos hq]
    · rw [if_pos (by omega), if_neg hq]
  by_cases hq : q = wordOf s.params p
  · rw [if_pos hq, cellOf, if_pos (by omega), hget, if_pos hq, hcell, hq, Option.getD_some]
  · rw [if_neg hq, cellOf, cellOf, hget, if_neg hq]
    by_cases hold : q < s.lenWords.toNat
    · rw [if_pos (by omega), if_pos hold, if_neg (by omega)]
    · rw [if_neg hold]
      split
      · rw [if_pos (by omega), Option.getD_some]
      · rfl

/-- The stream address of bit i of word q. -/
def streamAddr (prm : Params) (q i : Nat) : Nat := q * prm.w + (prm.w - 1 - i)

theorem streamAddr_eq_iff {prm : Params} {p q i : Nat} (hi : i < prm.w) :
    streamAddr prm q i = p ↔ q = wordOf prm p ∧ i = bitOf prm p := by
  have hmod := Nat.mod_lt p (show 0 < prm.w by omega)
  have hunique := Nat.div_mod_unique (a := p) (d := q) (c := prm.w - 1 - i) (show 0 < prm.w by omega)
  rw [Nat.mul_comm prm.w q] at hunique
  unfold streamAddr wordOf bitOf
  constructor
  · intro h
    obtain ⟨hq, hr⟩ := hunique.2 ⟨by omega, by omega⟩
    omega
  · rintro ⟨hq, hr⟩
    have := (hunique.1 ⟨hq.symm, by omega⟩).1
    omega

/-- Every bit of every word after a bit is written. -/
theorem writeBit_cellOf_getLsbD {s t : State} {p : Nat} {v : Bool} (hp : ParamsLegal s.params)
    (h : writeBit s p v = .ok t) (q i : Nat) :
    (cellOf t q).getLsbD i =
      if i < s.params.w ∧ streamAddr s.params q i = p then v else (cellOf s q).getLsbD i := by
  obtain ⟨hw, hw64, -⟩ := hp.bounds
  have hbit := bitOf_lt hw p
  have hiff : (i < s.params.w ∧ streamAddr s.params q i = p) ↔
      q = wordOf s.params p ∧ i = bitOf s.params p :=
    ⟨fun ⟨hi, ha⟩ => (streamAddr_eq_iff hi).1 ha,
      fun hplace => ⟨by omega, (streamAddr_eq_iff (by omega)).2 hplace⟩⟩
  rw [writeBit_cellOf hp h]
  simp only [hiff]
  by_cases hq : q = wordOf s.params p
  · rw [if_pos hq, setWordBit_getLsbD _ _ _ (by omega)]
    simp only [hq, true_and]
  · rw [if_neg hq, if_neg (fun hplace => hq hplace.1)]

/-- Every bit of every word after MemWrite: the bits of the field where it lies, the rest as it was. -/
theorem memWrite_cellOf_getLsbD {s t : State} {p n v : Nat} (hp : ParamsLegal s.params)
    (h : memWrite s p n v = .ok t) (q i : Nat) :
    (cellOf t q).getLsbD i =
      if i < s.params.w ∧ p ≤ streamAddr s.params q i ∧ streamAddr s.params q i < p + n then
        v.testBit (p + n - 1 - streamAddr s.params q i)
      else (cellOf s q).getLsbD i := by
  induction n generalizing s p with
  | zero => cases h; rw [if_neg (by omega)]
  | succ n ih =>
    simp only [memWrite] at h
    split at h
    · rename_i s1 hb
      have hrest := ih (by rw [writeBit_params hp hb]; exact hp) h
      rw [hrest, writeBit_params hp hb, writeBit_cellOf_getLsbD hp hb]
      by_cases hfirst : i < s.params.w ∧ streamAddr s.params q i = p
      · obtain ⟨hi, ha⟩ := hfirst
        rw [if_neg (by omega), if_pos ⟨hi, ha⟩, if_pos (by omega), ha]
        congr 1
        omega
      · rw [if_neg hfirst]
        by_cases hlater : i < s.params.w ∧ p + 1 ≤ streamAddr s.params q i ∧
            streamAddr s.params q i < p + 1 + n
        · rw [if_pos hlater, if_pos (by omega)]
          congr 1
          omega
        · rw [if_neg hlater, if_neg (by omega)]
    · cases h

theorem get_isSome_of_readBit {s : State} {p : Nat} {b : Bool} (h : readBit s p = .ok b) :
    (Memory.get s.words (wordOf s.params p)).isSome = true := by
  unfold readBit at h
  split at h
  · rename_i x hx
    rw [(readWord_eq_ok.1 hx).2, Option.isSome_some]
  · cases h

/-- The word of every bit of a field that was written holds a value. -/
theorem memWrite_get_isSome {s t : State} {p n v j : Nat} (hp : ParamsLegal s.params)
    (h : memWrite s p n v = .ok t) (hj : j < n) :
    (Memory.get t.words (wordOf s.params (p + j))).isSome = true := by
  rw [← memWrite_params hp h]
  exact get_isSome_of_readBit ((memWrite_readBit hp h (p + j)).trans (if_pos (by omega)))

/-- MemWrite gives no value to an allocated word without one: it faults there. -/
theorem get_isSome_of_memWrite {s t : State} {p n v q : Nat} (hp : ParamsLegal s.params)
    (h : memWrite s p n v = .ok t) (hq : q < s.lenWords.toNat)
    (ht : (Memory.get t.words q).isSome = true) : (Memory.get s.words q).isSome = true := by
  induction n generalizing s p with
  | zero => cases h; exact ht
  | succ n ih =>
    simp only [memWrite] at h
    split at h
    · rename_i s1 hb
      obtain ⟨-, hlen, -, x, -, hx, hget⟩ := writeBit_spec hp hb
      have hs1 := ih (by rw [writeBit_params hp hb]; exact hp) h (by omega)
      by_cases hhere : q = wordOf s.params p
      · rw [hhere, hx (by omega), Option.isSome_some]
      · rwa [hget, if_neg hhere, if_neg (by omega)] at hs1
    · cases h

/-! ### MemWrite replaces slices of words -/

/-- A number whose bits b to a-1 are those of u and whose others are those of x. -/
theorem eq_splice {x x' u a b : Nat} (hba : b ≤ a) (hu : u < 2 ^ (a - b))
    (h : ∀ i, x'.testBit i = if b ≤ i ∧ i < a then u.testBit (i - b) else x.testBit i) :
    x' = x / 2 ^ a * 2 ^ a + u * 2 ^ b + x % 2 ^ b := by
  have hlow : x % 2 ^ b < 2 ^ b := Nat.mod_lt _ (Nat.two_pow_pos b)
  have hmid : 2 ^ b * u + x % 2 ^ b < 2 ^ a := by
    calc 2 ^ b * u + x % 2 ^ b < 2 ^ b * (u + 1) := by rw [Nat.mul_add]; omega
      _ ≤ 2 ^ b * 2 ^ (a - b) := Nat.mul_le_mul_left _ hu
      _ = 2 ^ a := by rw [← Nat.pow_add, Nat.add_sub_cancel' hba]
  refine Nat.eq_of_testBit_eq fun i => ?_
  rw [h, Nat.add_assoc, Nat.mul_comm _ (2 ^ a), Nat.mul_comm u, Nat.testBit_two_pow_mul_add _ hmid,
    Nat.testBit_two_pow_mul_add _ hlow, Nat.testBit_div_two_pow, Nat.testBit_mod_two_pow]
  by_cases hlo : i < b
  · rw [if_neg (by omega), if_pos (by omega), if_pos hlo, decide_eq_true hlo, Bool.true_and]
  · by_cases hhi : i < a
    · rw [if_pos (by omega), if_pos hhi, if_neg hlo]
    · rw [if_neg (by omega), if_neg hhi, Nat.sub_add_cancel (by omega)]

/-- A word that MemWrite writes is, before and after, the one `cellOf` names. -/
theorem memWrite_get_eq_cellOf {s t : State} {p n v j q : Nat} (hp : ParamsLegal s.params)
    (h : memWrite s p n v = .ok t) (hj : j < n) (hq : wordOf s.params (p + j) = q) :
    Memory.get t.words q = some (cellOf t q) ∧
      (q < s.lenWords.toNat → Memory.get s.words q = some (cellOf s q)) := by
  have hlast : wordOf s.params (p + j) ≤ wordOf s.params (p + n - 1) :=
    Nat.div_le_div_right (by omega)
  have hlen := memWrite_lenWords hp h
  rw [if_neg (by omega)] at hlen
  have ht := hq ▸ memWrite_get_isSome hp h hj
  exact ⟨get_eq_cellOf (by omega) ht,
    fun hold => get_eq_cellOf hold (get_isSome_of_memWrite hp h hold ht)⟩

section Slices

variable {s t : State} {p n v : Nat}

/-- A field inside one word replaces a slice of it (40_word_buffer.md R100). -/
theorem memWrite_cellOf_of_within (hp : ParamsLegal s.params) (hv : v < 2 ^ n)
    (hfit : p % s.params.w + n ≤ s.params.w) (h : memWrite s p n v = .ok t) :
    (cellOf t (p / s.params.w)).toNat =
      (cellOf s (p / s.params.w)).toNat / 2 ^ (s.params.w - p % s.params.w) *
          2 ^ (s.params.w - p % s.params.w) +
        v * 2 ^ (s.params.w - p % s.params.w - n) +
        (cellOf s (p / s.params.w)).toNat % 2 ^ (s.params.w - p % s.params.w - n) := by
  have haddr := Nat.div_add_mod' p s.params.w
  refine eq_splice (by omega) (hv.trans_eq (by congr 1; omega)) fun i => ?_
  rw [BitVec.testBit_toNat, BitVec.testBit_toNat, memWrite_cellOf_getLsbD hp h, streamAddr]
  by_cases hin : s.params.w - p % s.params.w - n ≤ i ∧ i < s.params.w - p % s.params.w
  · rw [if_pos (by omega), if_pos hin]
    congr 1
    omega
  · rw [if_neg (by omega), if_neg hin]

/-- The high bits of a field that straddles replace the tail of its first word. -/
theorem memWrite_cellOf_of_straddle_first {l : Nat} (hp : ParamsLegal s.params) (hv : v < 2 ^ n)
    (hcross : s.params.w < p % s.params.w + n) (hl : l = p % s.params.w + n - s.params.w)
    (h : memWrite s p n v = .ok t) :
    (cellOf t (p / s.params.w)).toNat =
      (cellOf s (p / s.params.w)).toNat / 2 ^ (s.params.w - p % s.params.w) *
          2 ^ (s.params.w - p % s.params.w) + v / 2 ^ l := by
  have haddr := Nat.div_add_mod' p s.params.w
  have hmod := Nat.mod_lt p hp.1
  have hhigh : v / 2 ^ l < 2 ^ (s.params.w - p % s.params.w - 0) := by
    refine Nat.div_lt_of_lt_mul (hv.trans_eq ?_)
    rw [← Nat.pow_add]
    congr 1
    omega
  have hsplice := eq_splice (x' := (cellOf t (p / s.params.w)).toNat)
    (x := (cellOf s (p / s.params.w)).toNat) (Nat.zero_le _) hhigh fun i => ?_
  · rwa [Nat.pow_zero, Nat.mul_one, Nat.mod_one, Nat.add_zero] at hsplice
  · rw [BitVec.testBit_toNat, BitVec.testBit_toNat, memWrite_cellOf_getLsbD hp h, streamAddr,
      Nat.testBit_div_two_pow]
    by_cases hin : i < s.params.w - p % s.params.w
    · rw [if_pos (by omega), if_pos (by omega)]
      congr 1
      omega
    · rw [if_neg (by omega), if_neg (by omega)]

/-- The low bits of a field that straddles replace the head of its second word. -/
theorem memWrite_cellOf_of_straddle_second {l : Nat} (hp : ParamsLegal s.params)
    (hn : n ≤ s.params.w) (hcross : s.params.w < p % s.params.w + n)
    (hl : l = p % s.params.w + n - s.params.w) (h : memWrite s p n v = .ok t) :
    (cellOf t (p / s.params.w + 1)).toNat =
      (cellOf s (p / s.params.w + 1)).toNat / 2 ^ s.params.w * 2 ^ s.params.w +
        v % 2 ^ l * 2 ^ (s.params.w - l) +
        (cellOf s (p / s.params.w + 1)).toNat % 2 ^ (s.params.w - l) := by
  have haddr := Nat.div_add_mod' p s.params.w
  have hmod := Nat.mod_lt p hp.1
  have hlow : v % 2 ^ l < 2 ^ (s.params.w - (s.params.w - l)) := by
    rw [Nat.sub_sub_self (by omega)]
    exact Nat.mod_lt _ (Nat.two_pow_pos l)
  refine eq_splice (by omega) hlow fun i => ?_
  rw [BitVec.testBit_toNat, BitVec.testBit_toNat, memWrite_cellOf_getLsbD hp h, streamAddr,
    Nat.add_mul, Nat.one_mul, Nat.testBit_mod_two_pow]
  by_cases hin : s.params.w - l ≤ i ∧ i < s.params.w
  · rw [if_pos (by omega), if_pos hin, decide_eq_true (by omega), Bool.true_and]
    congr 1
    omega
  · rw [if_neg (by omega), if_neg hin]

end Slices

/-! ### The words an access touches -/

/-- MemWrite leaves every word but the field's own: it allocates no word past them
(40_word_buffer.md R107). -/
theorem memWrite_get_of_ne {s t : State} {p n v q : Nat} (hp : ParamsLegal s.params) (hn : 1 ≤ n)
    (hw : n ≤ s.params.w) (hs : p ≤ s.lenWords.toNat * s.params.w) (h : memWrite s p n v = .ok t)
    (hfirst : q ≠ p / s.params.w)
    (hsecond : q ≠ p / s.params.w + 1 ∨ p % s.params.w + n ≤ s.params.w) :
    Memory.get t.words q = Memory.get s.words q := by
  have hlast := wordOf_last (prm := s.params) (p := p) hn hw
  have hreach : p / s.params.w ≤ s.lenWords.toNat := Nat.div_le_of_le_mul (by rwa [Nat.mul_comm])
  have hlen := memWrite_lenWords hp h
  rw [if_neg (by omega)] at hlen
  have hout : q < p / s.params.w ∨ wordOf s.params (p + n - 1) < q := by
    split at hlast <;> omega
  exact memWrite_get hp h hout (by omega)

/-- MemRead depends on the field's own words alone (40_word_buffer.md R107). -/
theorem memRead_eq_of_words {s t : State} {p n : Nat} (hw : n ≤ s.params.w)
    (hparams : t.params = s.params)
    (hfirst : readWord t (p / s.params.w) = readWord s (p / s.params.w))
    (hsecond : s.params.w < p % s.params.w + n →
      readWord t (p / s.params.w + 1) = readWord s (p / s.params.w + 1)) :
    memRead t p n = memRead s p n := by
  refine memRead_congr fun j hj => ?_
  have hmod := Nat.mod_lt p (show 0 < s.params.w by omega)
  have hword : readWord t (wordOf s.params (p + j)) = readWord s (wordOf s.params (p + j)) := by
    by_cases hin : p % s.params.w + j < s.params.w
    · rw [(place_add_of_lt hin).1, hfirst]
    · rw [(place_add_of_ge (by omega) (by omega)).1, hsecond (by omega)]
  unfold readBit
  rw [hparams, hword]

end Sys2Proof.Machine

namespace Sys2Proof.Claims

open Sys2Proof Sys2Proof.Machine

/-- Settles O45: both forms from the bits of a field and the words that hold them. -/
theorem memReadIsWordSlices : Obligations.MemReadIsWordSlices := by
  intro s p n x hp _ hn hx
  exact ⟨memRead_of_within hx,
    fun hcross y l hy hl => memRead_of_straddle hn hp.1 hx hy hcross hl⟩

/-- Settles O46: the words written are the cells MemWrite found, with the slices of the field in place
of theirs. -/
theorem memWriteIsWordSlices : Obligations.MemWriteIsWordSlices := by
  rintro s t p n v q o hp hn hnw hv - rfl rfl h
  obtain ⟨hfirst, hfirst_old⟩ := memWrite_get_eq_cellOf hp h (j := 0) (by omega) rfl
  refine ⟨cellOf s (p / s.params.w), hfirst_old, cellOf_of_ge, fun hfit => ?_, ?_⟩
  · exact ⟨_, hfirst, memWrite_cellOf_of_within hp hv hfit h⟩
  · rintro hcross l hl
    have hmod := Nat.mod_lt p hp.1
    obtain ⟨hsecond, hsecond_old⟩ := memWrite_get_eq_cellOf hp h (j := n - 1) (by omega)
      (place_add_of_ge (by omega) (by omega)).1
    exact ⟨_, cellOf s (p / s.params.w + 1), _, hsecond_old, cellOf_of_ge, hfirst, hsecond,
      memWrite_cellOf_of_straddle_first hp hv hcross hl h,
      memWrite_cellOf_of_straddle_second hp hnw hcross hl h⟩

/-- Settles O47, by induction on the later writes: each leaves the field held. -/
theorem writeThenReadAgrees : Obligations.WriteThenReadAgrees := by
  intro s t u p n v later hp hv h hother hlater
  have hheld : FieldHeld t p n v := .of_memWrite hp hv h
  have hp' : ParamsLegal t.params := by rwa [memWrite_params hp h]
  exact memRead_eq_ok.2 (hheld.writeAll hp' hother hlater).field

/-- Settles O48: a field lies in its first word and, when it straddles, the next. -/
theorem accessesTouchAtMostTwoWords : Obligations.AccessesTouchAtMostTwoWords := by
  intro s p n hp hn hw
  exact ⟨fun _ _ hs h _ hfirst hsecond => memWrite_get_of_ne hp hn hw hs h hfirst hsecond,
    fun _ => memRead_eq_of_words hw⟩

end Sys2Proof.Claims
end

section
/-! PROOFS. The Word Buffer commands (40_word_buffer.md R102 to R105): an equation for each way WRITE_BITS
and READ_BITS end, and for the capacity check of the pack commands. -/

namespace Sys2Proof.Machine

/-! ### WRITE_BITS and READ_BITS -/

theorem widthLegal_iff {s : State} {width : BitVec 7} :
    widthLegal s width = true ↔ 1 ≤ width.toNat ∧ width.toNat ≤ s.params.w :=
  decide_eq_true_iff

section BitAccess

variable {width : BitVec 7} {a : Word} {s : State}

theorem execWriteBits_of_illegal_width (hl : legal (.writeBits width a) s = true)
    (hw : widthLegal s width = false) :
    execWriteBits width a s = .next (raise .configurationError s) := by
  simp [execWriteBits, hl, hw]

theorem execWriteBits_of_full (hl : legal (.writeBits width a) s = true)
    (hw : widthLegal s width = true)
    (hc : capacityBits s.params < s.cursor.toNat + width.toNat) :
    execWriteBits width a s = .next (raise .capacityError s) := by
  simp [execWriteBits, hl, hw, hc]

theorem execWriteBits_of_putField {s1 : State} (hl : legal (.writeBits width a) s = true)
    (hw : widthLegal s width = true)
    (hc : s.cursor.toNat + width.toNat ≤ capacityBits s.params)
    (hs : putField s s.cursor.toNat width.toNat (valueOperand width a) = .ok s1) :
    execWriteBits width a s = .next (respond 0#64 s1) := by
  simp [execWriteBits, hl, hw, Nat.not_lt.2 hc, hs]

theorem execReadBits_of_illegal_width (hl : legal (.readBits width a) s = true)
    (hw : widthLegal s width = false) :
    execReadBits width a s = .next (raise .configurationError s) := by
  simp [execReadBits, hl, hw]

theorem execReadBits_of_past_cursor (hl : legal (.readBits width a) s = true)
    (hw : widthLegal s width = true) (hc : s.cursor.toNat < offsetOperand a + width.toNat) :
    execReadBits width a s = .next (raise .indexError s) := by
  simp [execReadBits, hl, hw, hc]

theorem execReadBits_of_fieldAt {u : Nat} (hl : legal (.readBits width a) s = true)
    (hw : widthLegal s width = true) (hc : offsetOperand a + width.toNat ≤ s.cursor.toNat)
    (hu : FieldAt s (offsetOperand a) width.toNat u) :
    execReadBits width a s = .next (respond (fieldData u) s) := by
  simp [execReadBits, hl, hw, Nat.not_lt.2 hc, memRead_eq_ok.2 hu]

end BitAccess

/-! ### The capacity check of the pack commands -/

section Pack

variable {a : Word} {s : State}

theorem packAt_of_full {start : Nat} {x : Int} (hf : fits s.config.signed x s.config.k.toNat = true)
    (hc : capacityBits s.params < start + s.config.k.toNat) :
    packAt s start x = .next (raise .capacityError s) := by
  simp [packAt, hf, hc]

theorem execPackCons_of_legal (hl : legal (.packCons a) s = true) :
    execPackCons a s = packAt s s.cursor.toNat (elementOperand s.params a) := by
  simp [execPackCons, hl]

theorem execPackNcons_of_legal (hl : legal (.packNcons a) s = true) :
    execPackNcons a s =
      packAt s (nextStart s s.config.k.toNat) (elementOperand s.params a) := by
  simp [execPackNcons, hl]

theorem execPackOvf_of_full (hl : legal (.packOvf a) s = true)
    (hc : capacityBits s.params < primStart s + kpOf s) :
    execPackOvf a s = .next (raise .capacityError s) := by
  simp [execPackOvf, hl, hc]

end Pack

end Sys2Proof.Machine

namespace Sys2Proof.Claims

open Sys2Proof Sys2Proof.Machine

/-! ### The terms of the statements are the model's -/

section Terms

variable {width : BitVec 7} {a : Word} {s : State}

theorem legal_of_allowedIn_writeBits (h : AllowedIn (.writeBits width a) s) :
    legal (.writeBits width a) s = true := by
  rw [legal_writeBits]
  unfold AllowedIn at h
  cases hst : s.state <;> rw [hst] at h
  case packing => exact ⟨rfl, h⟩
  all_goals exact h.elim

theorem legal_of_allowedIn_readBits (h : AllowedIn (.readBits width a) s) :
    legal (.readBits width a) s = true := by
  rw [legal_readBits]
  unfold AllowedIn at h
  cases hst : s.state <;> rw [hst] at h
  case aborted | faulted => exact h.elim
  all_goals simp

end Terms

theorem fits_iff_inRange {signed : Bool} {x : Int} {k : Nat} :
    fits signed x k = true ↔ InRange signed k x := by
  cases signed
  · simp only [fits, fitsU, InRange, Bool.false_eq_true, if_false, decide_eq_true_iff]
  · simp only [fits, fitsS, InRange, if_true, decide_eq_true_iff]
    omega

/-- The two's-complement readings by the sign bit and by the magnitude agree. -/
theorem sext_eq_signedOf (n v : Nat) : sext n v = signedOf n v := by
  unfold sext signedOf
  by_cases hneg : v % 2 ^ n < 2 ^ (n - 1)
  · rw [if_pos hneg, Nat.testBit_lt_two_pow hneg]
    simp
  · have hn : n ≠ 0 := by rintro rfl; simp [Nat.mod_one] at hneg
    have hlt : v % 2 ^ n < 2 ^ (n - 1 + 1) := by
      rw [Nat.sub_add_cancel (by omega)]
      exact Nat.mod_lt _ (Nat.two_pow_pos n)
    rw [if_neg hneg, if_pos (Nat.testBit_of_two_pow_le_and_two_pow_add_one_gt (by omega) hlt)]

theorem fits_of_inRange {a : Word} {s : State} {k : Nat}
    (h : InRange s.config.signed k (elementArg s a)) :
    fits s.config.signed (elementOperand s.params a) k = true := by
  rwa [fits_iff_inRange, elementOperand, sext_eq_signedOf]

/-! ### The statements about WRITE_BITS and READ_BITS -/

/-- Settles O26: after the check of STATE comes that of the width. -/
theorem illegalWidthRaisesConfigurationError : Obligations.IllegalWidthRaisesConfigurationError := by
  intro width a s hwidth
  have hw : widthLegal s width = false := by
    rw [Bool.eq_false_iff, ne_eq, widthLegal_iff]
    omega
  exact ⟨fun h => .of_eq (execWriteBits_of_illegal_width (legal_of_allowedIn_writeBits h) hw),
    fun h => .of_eq (execReadBits_of_illegal_width (legal_of_allowedIn_readBits h) hw)⟩

/-- Settles O27: after the checks of STATE and the width comes that of the place. -/
theorem readPastCursorRaisesIndexError : Obligations.ReadPastCursorRaisesIndexError := by
  intro width a s h hlo hhi hc
  exact .of_eq
    (execReadBits_of_past_cursor (legal_of_allowedIn_readBits h) (widthLegal_iff.2 ⟨hlo, hhi⟩) hc)

/-- Settles O25: every check passes, and MemRead answers the field. -/
theorem readBitsReturnsField : Obligations.ReadBitsReturnsField := by
  intro width a s u hst hlo hhi hc hu
  exact execReadBits_of_fieldAt (legal_readBits.2 hst) (widthLegal_iff.2 ⟨hlo, hhi⟩) hc hu

/-- Settles O24: the write completes because the buffer is allocated up to CURSOR and the field has
room. -/
theorem writeBitsStoresField : Obligations.WriteBitsStoresField := by
  intro width a s hbuf hst hraw hlo hhi hc
  obtain ⟨s1, hs⟩ := putField_ok (valueOperand width a) hbuf.params hc hbuf.listed
  have hstored := putField_stored hbuf.params hlo (Nat.mod_lt _ (Nat.two_pow_pos _)) hbuf.cursor hs
  have hframe := putField_frame hbuf.params hs
  have hbound : s.cursor.toNat + width.toNat < 2 ^ 64 := by
    obtain ⟨-, -, -, -, hcap, -⟩ := hbuf.params
    exact hc.trans_lt hcap
  refine ⟨respond 0#64 s1, execWriteBits_of_putField (legal_writeBits.2 ⟨hst, hraw⟩)
    (widthLegal_iff.2 ⟨hlo, hhi⟩) hc hs, hstored.congr ⟨rfl, rfl, rfl⟩ ⟨rfl, rfl, rfl⟩, ?_, ?_⟩
  · rw [respond_cursor, hframe, BitVec.toNat_ofNat, Nat.mod_eq_of_lt hbound]
  · rw [hframe]
    rfl

/-! ### The capacity of the buffer -/

/-- Settles O28: in each command the check of the capacity comes right after those its clause passes,
and before the write. -/
theorem writePastCapacityRaises : Obligations.WritePastCapacityRaises := by
  refine ⟨fun width a s hst hraw hlo hhi hc => .of_eq ?_, fun a s hs hx hc => .of_eq ?_,
    fun a s hs hx hc => .of_eq ?_, fun a s hs hc => .of_eq ?_⟩
  · exact execWriteBits_of_full (legal_writeBits.2 ⟨hst, hraw⟩) (widthLegal_iff.2 ⟨hlo, hhi⟩) hc
  · exact (execPackCons_of_legal (legal_packCons.2 hs)).trans (packAt_of_full (fits_of_inRange hx) hc)
  · exact (execPackNcons_of_legal (legal_packNcons.2 hs)).trans
      (packAt_of_full (fits_of_inRange hx) hc)
  · exact execPackOvf_of_full (legal_packOvf.2 hs) hc

end Sys2Proof.Claims
end

section
/-! PROOFS. The consecutive packer (41_consecutive.md R131 to R133): how the shared operations
`packAt` and `unpackAt` end, the codec of the statements against the model's, and the density of a packed
array in both layouts. -/

namespace Sys2Proof.Machine

/-! ### Appending an element -/

section PackAt

variable {s : State} {start : Nat} {x : Int}

theorem packAt_of_unfit (hf : fits s.config.signed x s.config.k.toNat = false) :
    packAt s start x = .next (raise .rangeError s) := by
  simp [packAt, hf]

theorem packAt_of_putField {s1 : State} (hf : fits s.config.signed x s.config.k.toNat = true)
    (hc : start + s.config.k.toNat ≤ capacityBits s.params)
    (hs : putField s start s.config.k.toNat (fieldOf s.config.signed x s.config.k.toNat) = .ok s1) :
    packAt s start x = .next (respond 0#64 { s1 with count := s1.count + 1#64 }) := by
  simp [packAt, hf, Nat.not_lt.2 hc, hs]

/-- Appending an element that fits, in the allocated words or right after them, stores its code, moves
CURSOR past it and counts it; nothing else changes (41_consecutive.md R131, 42_non_consecutive.md
R152). -/
theorem packAt_appends (hbuf : BufferOk s) (hk : 1 ≤ s.config.k.toNat)
    (hf : fits s.config.signed x s.config.k.toNat = true)
    (hreach : start ≤ s.lenWords.toNat * s.params.w)
    (hc : start + s.config.k.toNat ≤ capacityBits s.params) :
    ∃ t, packAt s start x = .next t ∧
      FieldStored s t start s.config.k.toNat (fieldOf s.config.signed x s.config.k.toNat) ∧
      t.cursor.toNat = start + s.config.k.toNat ∧
      t = { respond 0#64 s with
            words := t.words, lenWords := t.lenWords, cursor := t.cursor
            count := s.count + 1#64 } := by
  obtain ⟨s1, hs⟩ :=
    putField_ok (fieldOf s.config.signed x s.config.k.toNat) hbuf.params hc hbuf.listed
  have hstored := putField_stored hbuf.params hk (fieldOf_lt hf) hreach hs
  have hframe := putField_frame hbuf.params hs
  have hbound : start + s.config.k.toNat < 2 ^ 64 := by
    obtain ⟨-, -, -, -, hcap, -⟩ := hbuf.params
    exact hc.trans_lt hcap
  refine ⟨_, packAt_of_putField hf hc hs, hstored.congr ⟨rfl, rfl, rfl⟩ ⟨rfl, rfl, rfl⟩, ?_, ?_⟩
  · rw [respond_cursor, hframe, BitVec.toNat_ofNat, Nat.mod_eq_of_lt hbound]
  · rw [hframe]
    rfl

end PackAt

/-! ### Reading an element -/

theorem unpackAt_of_fieldAt {s : State} {i start u : Nat} (hi : i < s.count.toNat)
    (hc : start + s.config.k.toNat ≤ s.cursor.toNat) (hu : FieldAt s start s.config.k.toNat u) :
    unpackAt s i start =
      .next (respond (elementData (elementOf s.config.signed u s.config.k.toNat)) s) := by
  simp [unpackAt, Nat.not_le.2 hi, Nat.not_lt.2 hc, memRead_eq_ok.2 hu]

/-- The data word of an element is its 64-bit two's complement (30_encoding.md R78). -/
theorem elementData_eq_ofInt (x : Int) : elementData x = BitVec.ofInt 64 x := by
  have hlt : (x % ((2 ^ 64 : Nat) : Int)).toNat < 2 ^ 64 := by omega
  apply BitVec.eq_of_toNat_eq
  rw [elementData, pat, BitVec.toNat_ofNat, Nat.mod_eq_of_lt hlt, BitVec.toNat_ofInt]

/-! ### The density of an array -/

/-- Where a CONS array's fields end (41_consecutive.md R133). -/
theorem elemEnd_of_cons {s : State} (hv : s.config.variant = .cons) (n : Nat) :
    elemEnd s n = n * elemWidth s := by
  cases n with
  | zero => simp [elemEnd]
  | succ n => simp [elemEnd, elemAddr, hv, Nat.add_mul]

/-- Where a non-empty NCONS array's fields end (42_non_consecutive.md R154). -/
theorem elemEnd_of_ncons {s : State} (hv : s.config.variant = .ncons) {n : Nat} (hn : 1 ≤ n) :
    elemEnd s n = (n - 1) / (s.params.w / elemWidth s) * s.params.w +
      ((n - 1) % (s.params.w / elemWidth s) + 1) * elemWidth s := by
  rw [elemEnd, if_neg (Nat.ne_of_gt hn), elemAddr, if_pos hv, fieldAddrNC_add]

/-- A place 1 to b bits into block q is covered by q + 1 blocks. -/
theorem ceilDiv_mul_add {b q r : Nat} (hr : 1 ≤ r) (hrb : r ≤ b) :
    ceilDiv (q * b + r) b = q + 1 := by
  have hb : 0 < b := by omega
  rw [ceilDiv_eq hb (by omega), Nat.add_sub_assoc hr, Nat.mul_comm, Nat.mul_add_div hb,
    Nat.div_eq_of_lt (by omega), Nat.add_zero]

/-- Each word of an NCONS array holds floor(W / kf) elements, the last word at least one
(42_non_consecutive.md R154). -/
theorem ceilDiv_elemEnd_of_ncons {s : State} (hlo : 1 ≤ elemWidth s) (hhi : elemWidth s ≤ s.params.w)
    (hv : s.config.variant = .ncons) {n : Nat} (hn : 1 ≤ n) :
    ceilDiv (elemEnd s n) s.params.w = ceilDiv n (s.params.w / elemWidth s) := by
  have hepw : 0 < s.params.w / elemWidth s := Nat.div_pos hhi hlo
  have hfield : ((n - 1) % (s.params.w / elemWidth s) + 1) * elemWidth s ≤ s.params.w :=
    calc ((n - 1) % (s.params.w / elemWidth s) + 1) * elemWidth s
        ≤ s.params.w / elemWidth s * elemWidth s := Nat.mul_le_mul_right _ (Nat.mod_lt _ hepw)
      _ ≤ s.params.w := Nat.div_mul_le_self _ _
  rw [elemEnd_of_ncons hv hn, ceilDiv_mul_add (Nat.mul_pos (Nat.succ_pos _) hlo) hfield,
    ceilDiv_eq hepw hn]

end Sys2Proof.Machine

namespace Sys2Proof.Claims

open Sys2Proof Sys2Proof.Machine

/-! ### The codec of the statements is the model's -/

theorem fieldOf_eq_codeOf {signed : Bool} {k : Nat} {x : Int} (h : InRange signed k x) :
    fieldOf signed x k = codeOf k x := by
  cases signed with
  | false =>
    have hx : 0 ≤ x := h.1
    change x.toNat = codeOf k x
    rw [codeOf, if_neg (Int.not_lt.2 hx)]
    omega
  | true =>
    change encodeS x k = codeOf k x
    unfold encodeS codeOf
    split <;> split <;> omega

theorem elementOf_eq_valueOf (signed : Bool) (k u : Nat) :
    elementOf signed u k = valueOf signed k u := by
  have hpow : 0 < 2 ^ (k - 1) := Nat.two_pow_pos _
  have hneg : u > 2 ^ (k - 1) - 1 ↔ 2 ^ (k - 1) ≤ u := by omega
  cases signed <;> simp [elementOf, valueOf, decodeS, hneg]

theorem fits_of_not_inRange {a : Word} {s : State} {k : Nat}
    (h : ¬ InRange s.config.signed k (elementArg s a)) :
    fits s.config.signed (elementOperand s.params a) k = false := by
  rwa [Bool.eq_false_iff, ne_eq, fits_iff_inRange, elementOperand, sext_eq_signedOf]

/-! ### The statements of 41_consecutive.md -/

/-- Settles O29: every check passes, and the field goes to CURSOR, which lies in the allocated words. -/
theorem packConsAppendsField : Obligations.PackConsAppendsField := by
  intro a s hbuf hs hk _ hx hc
  have happend := packAt_appends hbuf hk (fits_of_inRange hx) hbuf.cursor hc
  rw [← execPackCons_of_legal (legal_packCons.2 hs), elementOperand, sext_eq_signedOf,
    fieldOf_eq_codeOf hx] at happend
  exact happend

/-- Settles O31: the range check is the first after legality, in both plain layouts. -/
theorem packOutOfRangeRaisesRangeError : Obligations.PackOutOfRangeRaisesRangeError := by
  refine ⟨fun a s hs hx => .of_eq ?_, fun a s hs hx => .of_eq ?_⟩
  · exact (execPackCons_of_legal (legal_packCons.2 hs)).trans
      (packAt_of_unfit (fits_of_not_inRange hx))
  · exact (execPackNcons_of_legal (legal_packNcons.2 hs)).trans
      (packAt_of_unfit (fits_of_not_inRange hx))

/-- Settles O35: every check passes, and MemRead answers the element's code. -/
theorem unpackConsReturnsElement : Obligations.UnpackConsReturnsElement := by
  intro a s u hs _ hi hc hu
  rw [← elementOf_eq_valueOf, ← elementData_eq_ofInt]
  exact (execUnpackCons_of_legal (legal_unpackCons.2 hs)).trans (unpackAt_of_fieldAt hi hc hu)

/-- Settles O50: CURSOR is the end of the last field and LEN_WORDS the words up to CURSOR, by the
invariant. -/
theorem packedArrayDensity : Obligations.PackedArrayDensity := by
  intro s h hst
  refine ⟨fun hv => ?_, fun hv hn => ?_, fun hv hn => ?_⟩
  · have hcur := h.array.ends (by simp [hv])
    rw [elemEnd_of_cons hv] at hcur
    exact ⟨hcur, hcur ▸ h.block.length⟩
  · have hcur : s.cursor.toNat = 0 := by
      rw [h.array.ends (by simp [hv]), hn]
      rfl
    have hlen : s.lenWords.toNat = 0 := by
      rw [h.block.length, hcur, ceilDiv_zero h.block.params.bounds.1]
    exact ⟨BitVec.eq_of_toNat_eq hcur, BitVec.eq_of_toNat_eq hlen⟩
  · have hraw : s.config.variant ≠ .raw := by simp [hv]
    obtain ⟨hlo, hhi⟩ := elemWidth_bounds (h.block.legalForm_of_ne_empty hst) hraw
    have hcur := h.array.ends hraw
    refine ⟨?_, hcur.trans (elemEnd_of_ncons hv hn)⟩
    rw [h.block.length, hcur, ceilDiv_elemEnd_of_ncons hlo hhi hv hn]

end Sys2Proof.Claims
end

section
/-! PROOFS. The non-consecutive packer (42_non_consecutive.md R150 to R153): the fields that the padding
rule and FieldAddrNC place straddle no word, and the place the padding rule gives can be written. -/

namespace Sys2Proof.Machine

/-! ### No field straddles a word -/

/-- The local offset of an NCONS field is the room its predecessors in the word take
(42_non_consecutive.md R151). -/
theorem fieldAddrNC_mod {w k : Nat} (hk : 1 ≤ k) (hw : k ≤ w) (i : Nat) :
    fieldAddrNC w i k % w = i % (w / k) * k := by
  have hlt : i % (w / k) * k < w :=
    calc i % (w / k) * k < w / k * k :=
          Nat.mul_lt_mul_of_pos_right (Nat.mod_lt i (Nat.div_pos hw hk)) hk
      _ ≤ w := Nat.div_mul_le_self w k
  rw [fieldAddrNC, Nat.mul_add_mod_self_right, Nat.mod_eq_of_lt hlt]

/-- A word has room for the floor(W / k) fields that stand in it (42_non_consecutive.md R151). -/
theorem fieldAddrNC_mod_add_le {w k : Nat} (hk : 1 ≤ k) (hw : k ≤ w) (i : Nat) :
    fieldAddrNC w i k % w + k ≤ w := by
  rw [fieldAddrNC_mod hk hw]
  calc i % (w / k) * k + k = (i % (w / k) + 1) * k := by rw [Nat.add_mul, Nat.one_mul]
    _ ≤ w / k * k := Nat.mul_le_mul_right k (Nat.mod_lt i (Nat.div_pos hw hk))
    _ ≤ w := Nat.div_mul_le_self w k

/-- NextStart leaves CURSOR only for a word boundary, where every field of at most W bits fits
(42_non_consecutive.md R150). -/
theorem nextStart_mod_add_le {s : State} {k : Nat} (hk : k ≤ s.params.w) :
    nextStart s k % s.params.w + k ≤ s.params.w := by
  unfold nextStart
  split
  · rwa [Nat.mul_mod_left, Nat.zero_add]
  · next hfits => exact Nat.not_lt.1 hfits

/-- The padding rule stays within the allocated words, because they end at a word boundary
(42_non_consecutive.md R150). -/
theorem BufferOk.nextStart_le {s : State} (h : BufferOk s) (k : Nat) :
    nextStart s k ≤ s.lenWords.toNat * s.params.w := by
  unfold nextStart
  split
  · exact Nat.mul_le_mul_right _ (ceilDiv_le h.params.bounds.1 h.cursor)
  · exact h.cursor

end Sys2Proof.Machine

namespace Sys2Proof.Claims

open Sys2Proof Sys2Proof.Machine

/-! ### The statements of 42_non_consecutive.md -/

/-- Settles O30: every check passes, and NextStart, where the field goes, lies in the allocated words. -/
theorem packNconsAppendsField : Obligations.PackNconsAppendsField := by
  intro a s hbuf hs hk hw hx hc
  obtain ⟨t, hexec, hstored, hcursor, hframe⟩ :=
    packAt_appends hbuf hk (fits_of_inRange hx) (hbuf.nextStart_le _) hc
  rw [elementOperand, sext_eq_signedOf, fieldOf_eq_codeOf hx] at hstored
  exact ⟨t, (execPackNcons_of_legal (legal_packNcons.2 hs)).trans hexec, hstored,
    nextStart_mod_add_le hw, hcursor, hframe⟩

/-- Settles O36: every check passes, and MemRead at FieldAddrNC answers the element's code. -/
theorem unpackNconsReturnsElement : Obligations.UnpackNconsReturnsElement := by
  rintro a s _ u hs _ hi rfl hc hu
  rw [← elementOf_eq_valueOf, ← elementData_eq_ofInt]
  exact (execUnpackNcons_of_legal (legal_unpackNcons.2 hs)).trans (unpackAt_of_fieldAt hi hc hu)

/-- Settles O49: the padding rule keeps to FieldAddrNC, and no address of FieldAddrNC straddles. -/
theorem paddingRuleGivesFieldAddress : Obligations.PaddingRuleGivesFieldAddress :=
  fun _ _ hk hw hcur => ⟨nextStart_eq_fieldAddrNC hk hw hcur, fieldAddrNC_mod_add_le hk hw⟩

end Sys2Proof.Claims
end

section
/-! PROOFS. The overflow router (43_overflow.md R170 to R176): a primary field as a flag and a payload, and
an equation for each way PACK_OVF and UNPACK_OVF end. -/

namespace Sys2Proof.Machine

/-! ### The primary field that PACK_OVF writes -/

section WordBuffer

variable {s : State} {start n v : Nat}

/-- A field within capacity, in the allocated words or right after them, is stored, and CURSOR moves past
it without a wrap; nothing else changes (40_word_buffer.md R100, R103). -/
theorem BufferOk.putField_stores (h : BufferOk s) (hn : 1 ≤ n) (hv : v < 2 ^ n)
    (hreach : start ≤ s.lenWords.toNat * s.params.w) (hc : start + n ≤ capacityBits s.params) :
    ∃ s1, putField s start n v = .ok s1 ∧ FieldStored s s1 start n v ∧
      s1.cursor.toNat = start + n ∧
      s1 = { s with words := s1.words, lenWords := s1.lenWords, cursor := s1.cursor } := by
  obtain ⟨s1, hs⟩ := putField_ok v h.params hc h.listed
  have hframe := putField_frame h.params hs
  have hcursor : s1.cursor = BitVec.ofNat 64 (start + n) := by rw [hframe]
  have hbound : start + n < 2 ^ 64 := by
    obtain ⟨-, -, -, -, hcap, -⟩ := h.params
    exact hc.trans_lt hcap
  refine ⟨s1, hs, putField_stored h.params hn hv hreach hs, ?_, ?_⟩
  · rw [hcursor, BitVec.toNat_ofNat, Nat.mod_eq_of_lt hbound]
  · rw [hcursor]
    exact hframe

/-- Both layouts place the primary field within the allocated words (43_overflow.md R171). -/
theorem BufferOk.primStart_le (h : BufferOk s) : primStart s ≤ s.lenWords.toNat * s.params.w := by
  unfold primStart
  split
  · exact h.nextStart_le _
  · exact h.cursor

/-- An unflagged field is its payload (43_overflow.md R170). -/
theorem lt_two_pow_kpOf (hv : v < 2 ^ ksOf s) : v < 2 ^ kpOf s :=
  hv.trans (Nat.pow_lt_pow_succ Nat.one_lt_two)

end WordBuffer

/-! ### PACK_OVF -/

section PackOvf

variable {a : Word} {s : State} {x : Int}

theorem execPackOvf_of_fits (hl : legal (.packOvf a) s = true)
    (hc : primStart s + kpOf s ≤ capacityBits s.params)
    (hf : fits s.config.signed (elementOperand s.params a) (ksOf s) = true) :
    execPackOvf a s = packFitting s (elementOperand s.params a) := by
  simp [execPackOvf, hl, Nat.not_lt.2 hc, hf]

theorem execPackOvf_of_unfit (hl : legal (.packOvf a) s = true)
    (hc : primStart s + kpOf s ≤ capacityBits s.params)
    (hf : fits s.config.signed (elementOperand s.params a) (ksOf s) = false) :
    execPackOvf a s = packOverflowing s (elementOperand s.params a) := by
  simp [execPackOvf, hl, Nat.not_lt.2 hc, hf]

theorem packFitting_of_putField {s1 : State}
    (hs : putField s (primStart s) (kpOf s) (fieldOf s.config.signed x (ksOf s)) = .ok s1) :
    packFitting s x = .next (respond 0#64 { s1 with count := s1.count + 1#64 }) := by
  simp [packFitting, hs]

theorem overflowPayload_of_index (h : s.config.ovfMode = false) :
    overflowPayload s = s.ovfCount.toNat := by
  simp [overflowPayload, h]

theorem overflowPayload_of_compact (h : s.config.ovfMode = true) : overflowPayload s = 0 := by
  simp [overflowPayload, h]

/-- A full store and a payload wider than KSMALL bits end alike (43_overflow.md R173, R174). -/
theorem packOverflowing_of_exhausted
    (h : s.params.maxOvf ≤ s.ovfCount.toNat ∨ 2 ^ ksOf s - 1 < overflowPayload s) :
    packOverflowing s x = .next (raise .capacityError s) := by
  unfold packOverflowing
  split
  · rfl
  · next hroom => exact if_pos (h.resolve_left hroom)

theorem packOverflowing_of_putField {s1 : State} (hroom : s.ovfCount.toNat < s.params.maxOvf)
    (hpay : overflowPayload s ≤ 2 ^ ksOf s - 1)
    (hs : putField s (primStart s) (kpOf s) (2 ^ ksOf s + overflowPayload s) = .ok s1) :
    packOverflowing s x = .next (respond 0#64
      { ovfAppend s1 (BitVec.ofNat 64 (pat s.params.nativeW x)) with count := s1.count + 1#64 }) := by
  simp [packOverflowing, Nat.not_le.2 hroom, Nat.not_lt.2 hpay, hs]

/-- PACK_OVF of an element that fits stores its code, moves CURSOR past it and counts it; nothing else
changes (43_overflow.md R172, R174). -/
theorem packFitting_appends (hbuf : BufferOk s) (hf : fits s.config.signed x (ksOf s) = true)
    (hc : primStart s + kpOf s ≤ capacityBits s.params) :
    ∃ t, packFitting s x = .next t ∧
      FieldStored s t (primStart s) (kpOf s) (fieldOf s.config.signed x (ksOf s)) ∧
      t.cursor.toNat = primStart s + kpOf s ∧
      t = { respond 0#64 s with
            words := t.words, lenWords := t.lenWords, cursor := t.cursor
            count := s.count + 1#64 } := by
  obtain ⟨s1, hs, hstored, hcursor, hframe⟩ := hbuf.putField_stores (Nat.le_add_left 1 _)
    (lt_two_pow_kpOf (fieldOf_lt hf)) hbuf.primStart_le hc
  refine ⟨_, packFitting_of_putField hs, hstored.congr ⟨rfl, rfl, rfl⟩ ⟨rfl, rfl, rfl⟩, hcursor, ?_⟩
  rw [hframe]
  rfl

/-- PACK_OVF of an element that does not fit stores the flagged payload, appends the element's pattern to
the overflow store, moves CURSOR past the field and counts the element; nothing else changes
(43_overflow.md R173, R174; 10_state.md R36). -/
theorem packOverflowing_appends (hbuf : BufferOk s) (hen : s.config.ovfEn = true)
    (hroom : s.ovfCount.toNat < s.params.maxOvf) (hpay : overflowPayload s ≤ 2 ^ ksOf s - 1)
    (hc : primStart s + kpOf s ≤ capacityBits s.params) :
    ∃ t, packOverflowing s x = .next t ∧
      FieldStored s t (primStart s) (kpOf s) (2 ^ ksOf s + overflowPayload s) ∧
      t.cursor.toNat = primStart s + kpOf s ∧
      t.ovfCount = s.ovfCount + 1#64 ∧
      t.ovf = Memory.set s.ovf s.ovfCount.toNat (BitVec.ofNat 64 (pat s.params.nativeW x)) ∧
      t = { respond 0#64 s with
            words := t.words, lenWords := t.lenWords, cursor := t.cursor
            count := s.count + 1#64
            ovf := t.ovf, ovfCount := t.ovfCount } := by
  have hvalue : 2 ^ ksOf s + overflowPayload s < 2 ^ kpOf s :=
    elemWidth_of_overflow hen ▸ flagged_lt hen (overflowPayload_lt hpay)
  obtain ⟨s1, hs, hstored, hcursor, hframe⟩ :=
    hbuf.putField_stores (Nat.le_add_left 1 _) hvalue hbuf.primStart_le hc
  refine ⟨_, packOverflowing_of_putField hroom hpay hs,
    hstored.congr ⟨rfl, rfl, rfl⟩ ⟨rfl, rfl, rfl⟩, hcursor, ?_, ?_, ?_⟩
  all_goals
    rw [hframe]
    rfl

end PackOvf

/-! ### UNPACK_OVF -/

section UnpackOvf

variable {a : Word} {s : State}

theorem execUnpackOvf_of_fieldAt {f : Nat} (hl : legal (.unpackOvf a) s = true)
    (hi : indexOperand a < s.count.toNat)
    (hc : primAddr s (indexOperand a) + kpOf s ≤ s.cursor.toNat)
    (hf : FieldAt s (primAddr s (indexOperand a)) (kpOf s) f) :
    execUnpackOvf a s = unpackPrimary s (indexOperand a) f := by
  simp [execUnpackOvf, hl, Nat.not_le.2 hi, Nat.not_lt.2 hc, memRead_eq_ok.2 hf]

theorem unpackPrimary_of_unflagged {i f : Nat} (hf : f < 2 ^ ksOf s) :
    unpackPrimary s i f =
      .next (respond (elementData (elementOf s.config.signed f (ksOf s))) s) := by
  simp [unpackPrimary, Nat.testBit_lt_two_pow hf, Nat.mod_eq_of_lt hf]

/-- The flag of a field {1, payload} (43_overflow.md R170). -/
theorem testBit_flagged {n payload : Nat} (h : payload < 2 ^ n) :
    (2 ^ n + payload).testBit n = true := by
  rw [Nat.testBit_two_pow_add_eq, Nat.testBit_lt_two_pow h]
  rfl

theorem unpackPrimary_of_flagged {i payload j : Nat} (hpay : payload < 2 ^ ksOf s)
    (hj : overflowPosition s i payload = .ok j) :
    unpackPrimary s i (2 ^ ksOf s + payload) = unpackEntry s j := by
  simp [unpackPrimary, testBit_flagged hpay, Nat.mod_eq_of_lt hpay, hj]

theorem unpackEntry_of_get {j : Nat} {e : Word} (hcount : j < s.ovfCount.toNat)
    (hmax : j < s.params.maxOvf) (he : Memory.get s.ovf j = some e) :
    unpackEntry s j = .next (respond (elementData (sext s.params.nativeW e.toNat)) s) := by
  have hread : ovfRead s j = .ok e := by simp [ovfRead, hmax, he]
  simp [unpackEntry, Nat.not_le.2 hcount, hread]

/-! ### The flag count of COMPACT mode -/

theorem memRead_flag_of_readBit {i : Nat} (h : ∃ b, readBit s (primAddr s i) = .ok b) :
    memRead s (primAddr s i) 1 = .ok (flagBit s i).toNat := by
  have hbits : ∀ j, j < 1 → ∃ b, readBit s (primAddr s i + j) = .ok b := by
    intro j hj
    obtain rfl := Nat.lt_one_iff.1 hj
    exact h
  obtain ⟨b, hb⟩ := memRead_ok hbits
  rw [hb, memRead_flag hb]

/-- The sum COMPACT mode computes ends where the flags up to field i can be read (43_overflow.md R176). -/
theorem flagSum_of_readBit {i : Nat} (h : ∀ m, m ≤ i → ∃ b, readBit s (primAddr s m) = .ok b) :
    flagSum s i = .ok (flagsBelow s (i + 1)) := by
  induction i with
  | zero =>
    rw [flagSum, memRead_flag_of_readBit (h 0 (Nat.le_refl 0)), flagsBelow, flagsBelow, Nat.zero_add]
  | succ i ih =>
    rw [flagSum, ih fun m hm => h m (Nat.le_succ_of_le hm),
      memRead_flag_of_readBit (h (i + 1) (Nat.le_refl _))]
    rfl

/-- The position of a flagged element in COMPACT mode, whatever its payload: the number of flags before it
(43_overflow.md R175, R176). -/
theorem overflowPosition_of_compact {i payload : Nat} (hmode : s.config.ovfMode = true)
    (hflag : readBit s (primAddr s i) = .ok true)
    (h : ∀ m, m < i → ∃ b, readBit s (primAddr s m) = .ok b) :
    overflowPosition s i payload = .ok (flagsBelow s i) := by
  have hreadable : ∀ m, m ≤ i → ∃ b, readBit s (primAddr s m) = .ok b := by
    intro m hm
    obtain hlt | rfl := Nat.lt_or_eq_of_le hm
    · exact h m hlt
    · exact ⟨true, hflag⟩
  rw [overflowPosition, if_pos hmode, ovfPosCompact, flagSum_of_readBit hreadable,
    flagsBelow_succ_of_flag (flagBit_of_readBit hflag)]
  rfl

theorem overflowPosition_of_index {i payload : Nat} (hmode : s.config.ovfMode = false) :
    overflowPosition s i payload = .ok payload := by
  simp [overflowPosition, hmode]

/-- UNPACK_OVF of a flagged element whose position is found answers the entry there (43_overflow.md
R175; 10_state.md R37). -/
theorem execUnpackOvf_of_entry {payload j : Nat} {e : Word} (hl : legal (.unpackOvf a) s = true)
    (hi : indexOperand a < s.count.toNat)
    (hc : primAddr s (indexOperand a) + kpOf s ≤ s.cursor.toNat) (hpay : payload < 2 ^ ksOf s)
    (hf : FieldAt s (primAddr s (indexOperand a)) (kpOf s) (2 ^ ksOf s + payload))
    (hj : overflowPosition s (indexOperand a) payload = .ok j) (hcount : j < s.ovfCount.toNat)
    (hmax : j < s.params.maxOvf) (he : Memory.get s.ovf j = some e) :
    execUnpackOvf a s = .next (respond (elementData (sext s.params.nativeW e.toNat)) s) := by
  rw [execUnpackOvf_of_fieldAt hl hi hc hf, unpackPrimary_of_flagged hpay hj,
    unpackEntry_of_get hcount hmax he]

end UnpackOvf

/-! ### An element and its pattern -/

/-- The pattern of a sign-extended n-bit pattern is that pattern (00_scope.md R7). -/
theorem pat_sext (n v : Nat) : pat n (sext n v) = v % 2 ^ n := by
  unfold pat sext
  split
  · rw [Int.sub_emod_right, ← Int.natCast_emod, Int.toNat_natCast, Nat.mod_mod]
  · rw [← Int.natCast_emod, Int.toNat_natCast, Nat.mod_mod]

end Sys2Proof.Machine

namespace Sys2Proof.Claims

open Sys2Proof Sys2Proof.Machine

/-! ### The statements of 43_overflow.md -/

/-- Settles O32: the element's code fits KSMALL bits, so the flag above it is 0, and the field goes to
the place of the layout, which lies in the allocated words. -/
theorem packOvfStoresFittingElement : Obligations.PackOvfStoresFittingElement := by
  intro a s hbuf hs _ _ hx hc
  have hf := fits_of_inRange hx
  have hcode : fieldOf s.config.signed (elementOperand s.params a) s.config.ksmall.toNat =
      codeOf s.config.ksmall.toNat (elementArg s a) := by
    rw [elementOperand, sext_eq_signedOf, fieldOf_eq_codeOf hx]
  obtain ⟨t, hexec, hstored, hcursor, hframe⟩ := packFitting_appends hbuf hf hc
  exact ⟨t, (execPackOvf_of_fits (legal_packOvf.2 hs) hc hf).trans hexec, hcode ▸ fieldOf_lt hf,
    hcode ▸ hstored, hcursor, hframe⟩

/-- Settles O33: the store has room and the payload fits KSMALL bits, so both writes complete. -/
theorem packOvfRoutesOverflowingElement : Obligations.PackOvfRoutesOverflowingElement := by
  intro a s hbuf hs _ _ hx hc hroom hindex
  have hl : legal (.packOvf a) s = true := legal_packOvf.2 hs
  obtain ⟨-, -, hen⟩ := hs
  obtain ⟨-, -, -, -, -, hmax⟩ := hbuf.params
  have hpay : overflowPayload s ≤ 2 ^ ksOf s - 1 := by
    cases hmode : s.config.ovfMode with
    | false => exact overflowPayload_of_index hmode ▸ hindex hmode
    | true => exact overflowPayload_of_compact hmode ▸ Nat.zero_le _
  obtain ⟨t, hexec, hstored, hcursor, hcount, hovf, hframe⟩ :=
    packOverflowing_appends (x := elementOperand s.params a) hbuf hen hroom hpay hc
  rw [elementOperand, pat_sext] at hovf
  refine ⟨t, (execPackOvf_of_unfit hl hc (fits_of_not_inRange hx)).trans hexec, hstored,
    hcursor, ?_, ?_, fun j hj => ?_, hframe⟩
  · rw [hcount, toNat_add_one hroom hmax]
  · rw [hovf, Memory.get_set_self]
  · rw [hovf, Memory.get_set_ne _ _ hj]

/-- Settles O34: a full store, or in INDEX mode a payload too wide, is found before the write. -/
theorem overflowStoreExhaustionRaises : Obligations.OverflowStoreExhaustionRaises := by
  intro a s hs hx hc hfull
  have hexhausted : s.params.maxOvf ≤ s.ovfCount.toNat ∨ 2 ^ ksOf s - 1 < overflowPayload s :=
    hfull.imp_right fun ⟨hmode, hwide⟩ => overflowPayload_of_index hmode ▸ hwide
  exact .of_eq ((execPackOvf_of_unfit (legal_packOvf.2 hs) hc (fits_of_not_inRange hx)).trans
    (packOverflowing_of_exhausted hexhausted))

/-- Settles O37: every check passes, and the field, below 2^KSMALL, has flag 0. -/
theorem unpackOvfReturnsPrimaryElement : Obligations.UnpackOvfReturnsPrimaryElement := by
  intro a s u hs _ hi hc hu hflag
  rw [← elementOf_eq_valueOf, ← elementData_eq_ofInt]
  exact (execUnpackOvf_of_fieldAt (legal_unpackOvf.2 hs) hi hc hu).trans
    (unpackPrimary_of_unflagged hflag)

/-- Settles O38: in INDEX mode the payload is the position. -/
theorem unpackOvfReturnsIndexedEntry : Obligations.UnpackOvfReturnsIndexedEntry := by
  intro a s j e hs hmode _ hi hc hj hf hcount hmax he
  rw [← sext_eq_signedOf, ← elementData_eq_ofInt]
  exact execUnpackOvf_of_entry (legal_unpackOvf.2 hs) hi hc hj hf (overflowPosition_of_index hmode)
    hcount hmax he

/-- Settles O39: in COMPACT mode the position is the number of flags before the element, whose own flag
the field shows. -/
theorem unpackOvfReturnsCountedEntry : Obligations.UnpackOvfReturnsCountedEntry := by
  intro a s payload e hs hmode _ hi hc hpay hf hreadable hcount hmax he
  have hflag : readBit s (primAddr s a.toNat) = .ok true := by
    rw [hf.head, testBit_flagged hpay]
  rw [← sext_eq_signedOf, ← elementData_eq_ofInt]
  exact execUnpackOvf_of_entry (legal_unpackOvf.2 hs) hi hc hpay hf
    (overflowPosition_of_compact hmode hflag hreadable) hcount hmax he

end Sys2Proof.Claims
end

section
/-! PROOFS. The signed value codec (44_signed_codec.md R200 to R206): Encode and Decode by the sign of the
element and by the half of the code range, and from these equations that each undoes the other. -/

namespace Sys2Proof.Machine

section Codec

variable {x : Int} {k u : Nat}

/-! ### FitsS, Encode and Decode, case by case -/

theorem fitsS_iff_natAbs_lt : fitsS x k = true ↔ x.natAbs < 2 ^ (k - 1) := by
  rw [fitsS, decide_eq_true_iff]
  omega

theorem encodeS_of_nonneg (hx : 0 ≤ x) : encodeS x k = x.natAbs := by
  rw [encodeS, if_pos hx]
  omega

theorem encodeS_of_neg (hx : x < 0) : encodeS x k = 2 ^ (k - 1) + x.natAbs := by
  rw [encodeS, if_neg (Int.not_le.2 hx)]
  omega

theorem decodeS_of_lt (hu : u < 2 ^ (k - 1)) : decodeS u k = u := by
  rw [decodeS, if_neg (by omega)]

/-- A code of the upper half, written as 2^(k-1) and a magnitude. -/
theorem decodeS_half_add (m k : Nat) : decodeS (2 ^ (k - 1) + m) k = -m := by
  have hpow : 0 < 2 ^ (k - 1) := Nat.two_pow_pos _
  rw [decodeS, if_pos (by omega)]
  omega

/-- Decode maps the code that Encode never produces to 0 (44_signed_codec.md R205). -/
theorem decodeS_half (k : Nat) : decodeS (2 ^ (k - 1)) k = 0 := decodeS_half_add 0 k

theorem decodeS_zero (k : Nat) : decodeS 0 k = 0 := decodeS_of_lt (Nat.two_pow_pos _)

/-! ### Decode undoes Encode -/

theorem decodeS_encodeS (h : fitsS x k = true) : decodeS (encodeS x k) k = x := by
  rcases le_or_gt 0 x with hx | hx
  · rw [encodeS_of_nonneg hx, decodeS_of_lt (fitsS_iff_natAbs_lt.1 h), Int.natAbs_of_nonneg hx]
  · rw [encodeS_of_neg hx, decodeS_half_add, Int.ofNat_natAbs_of_nonpos hx.le, Int.neg_neg]

/-- The round trip of both paths (44_signed_codec.md R204). -/
theorem elementOf_fieldOf {signed : Bool} (h : fits signed x k = true) :
    elementOf signed (fieldOf signed x k) k = x := by
  cases signed with
  | false =>
    have hx : 0 ≤ x ∧ x ≤ ((2 ^ k : Nat) - 1 : Int) := of_decide_eq_true h
    exact Int.toNat_of_nonneg hx.1
  | true => exact decodeS_encodeS h

theorem encodeS_injOn {y : Int} (hx : fitsS x k = true) (hy : fitsS y k = true)
    (h : encodeS x k = encodeS y k) : x = y := by
  rw [← decodeS_encodeS hx, h, decodeS_encodeS hy]

/-! ### The codes that Encode produces -/

/-- Only a negative element with magnitude 0 would have the code 2^(k-1) (44_signed_codec.md R205). -/
theorem encodeS_ne_half (h : fitsS x k = true) : encodeS x k ≠ 2 ^ (k - 1) := by
  rcases le_or_gt 0 x with hx | hx
  · rw [encodeS_of_nonneg hx]
    exact (fitsS_iff_natAbs_lt.1 h).ne
  · rw [encodeS_of_neg hx]
    omega

/-- Every k-bit code but 2^(k-1) is Encode of what it decodes to (44_signed_codec.md R205): a code of the
lower half is its own element, one of the upper half has a magnitude above 0 over 2^(k-1). -/
theorem exists_encodeS_eq (hk : 1 ≤ k) (hu : u < 2 ^ k) (hne : u ≠ 2 ^ (k - 1)) :
    ∃ x, fitsS x k = true ∧ encodeS x k = u := by
  refine ⟨decodeS u k, ?_⟩
  rcases Nat.lt_or_ge u (2 ^ (k - 1)) with hlo | hhi
  · rw [decodeS_of_lt hlo, fitsS_iff_natAbs_lt, encodeS_of_nonneg (Int.natCast_nonneg u),
      Int.natAbs_natCast]
    exact ⟨hlo, rfl⟩
  · obtain ⟨m, rfl⟩ := Nat.exists_eq_add_of_le hhi
    have hm : m < 2 ^ (k - 1) := by
      have hhalves := Nat.two_pow_pred_add_two_pow_pred hk
      omega
    have hneg : -(m : Int) < 0 := by omega
    rw [decodeS_half_add, fitsS_iff_natAbs_lt, encodeS_of_neg hneg, Int.natAbs_neg,
      Int.natAbs_natCast]
    exact ⟨hm, rfl⟩

end Codec

end Sys2Proof.Machine

namespace Sys2Proof.Claims

open Sys2Proof Sys2Proof.Machine

/-! ### The statements of 44_signed_codec.md -/

/-- Settles O42: each range of the statement is the model's check, and an element that passes it comes
back from its field value, by Decode in a signed session and as it is in an unsigned one. -/
theorem codecRoundTrips : Obligations.CodecRoundTrips :=
  fun _ _ _ => ⟨fun hx => decodeS_encodeS (fits_iff_inRange.2 hx),
    fun hx => elementOf_fieldOf (fits_iff_inRange.2 hx)⟩

/-- Settles O43: Encode is one to one since Decode undoes it, and onto since it undoes Decode on every
code but 2^(k-1). -/
theorem encodeIsBijectionWithoutHalfCode : Obligations.EncodeIsBijectionWithoutHalfCode := by
  intro k hk
  have hfits : ∀ {x : Int}, fitsS x k = true ↔ InRange true k x := fits_iff_inRange (signed := true)
  refine ⟨fun x hx => ⟨?_, encodeS_ne_half (hfits.2 hx)⟩,
    fun x y hx hy => encodeS_injOn (hfits.2 hx) (hfits.2 hy), fun u hu hne => ?_,
    decodeS_zero k, decodeS_half k⟩
  · exact fieldOf_lt (signed := true) (hfits.2 hx)
  · obtain ⟨x, hx, hcode⟩ := exists_encodeS_eq hk hu hne
    exact ⟨x, hfits.1 hx, hcode⟩

/-- Settles O44: at width 1 FitsS asks for a magnitude below 2^0, and the code 1 is 2^(k-1). -/
theorem widthOneSignedHoldsOnlyZero : Obligations.WidthOneSignedHoldsOnlyZero := by
  refine ⟨fun x => ?_, encodeS_of_nonneg (Int.le_refl 0), decodeS_half 1⟩
  rw [fitsS_iff_natAbs_lt, Nat.sub_self, Nat.pow_zero, Nat.lt_one_iff, Int.natAbs_eq_zero]

end Sys2Proof.Claims
end

section
/-! PROOFS. The session machine (45_session_control.md R220 to R228): the legality table decides
StateError, BEGIN and END, RDREG as the register map, and what a sealed array lets a command do. -/

namespace Sys2Proof.Machine

/-! ### Legality -/

section Legality

variable {i : Instr} {a : Word} {s t : State} {x : Int}

/-- The check of STATE comes first in every meaning that has one (60_exceptions.md R252). -/
theorem exec_of_illegal (hl : legal i s = false) : exec i s = .next (raise .stateError s) := by
  cases i with
  | beginSession => simp [exec, execBegin, hl]
  | writeBits => simp [exec, execWriteBits, hl]
  | readBits => simp [exec, execReadBits, hl]
  | packCons => simp [exec, execPackCons, hl]
  | packNcons => simp [exec, execPackNcons, hl]
  | packOvf => simp [exec, execPackOvf, hl]
  | endSession => simp [exec, execEnd, hl]
  | unpackCons => simp [exec, execUnpackCons, hl]
  | unpackNcons => simp [exec, execUnpackNcons, hl]
  | unpackOvf => simp [exec, execUnpackOvf, hl]
  | rdreg => cases hl

theorem packAt_ne_stateError {start : Nat} (h : packAt s start x = .next t) :
    t.lastCause ≠ .stateError := by
  obtain ⟨-, rfl⟩ | ⟨-, -, rfl⟩ | ⟨s1, -, -, -, rfl⟩ := packAt_cases h <;> simp

theorem packOverflowing_ne_stateError (h : packOverflowing s x = .next t) :
    t.lastCause ≠ .stateError := by
  obtain ⟨-, rfl⟩ | ⟨-, -, rfl⟩ | ⟨s1, -, -, -, rfl⟩ := packOverflowing_cases h <;> simp

theorem unpackAt_ne_stateError {n start : Nat} (h : unpackAt s n start = .next t) :
    t.lastCause ≠ .stateError := by
  obtain ⟨-, rfl⟩ | ⟨-, -, rfl⟩ | ⟨u, -, -, -, rfl⟩ := unpackAt_cases h <;> simp

theorem unpackPrimary_ne_stateError {n f : Nat} (h : unpackPrimary s n f = .next t) :
    t.lastCause ≠ .stateError := by
  obtain ⟨-, rfl⟩ | ⟨j, -, -, hentry⟩ := unpackPrimary_cases h
  · simp
  · obtain ⟨-, rfl⟩ | ⟨e, -, -, rfl⟩ := unpackEntry_cases hentry <;> simp

/-- No later check of a meaning raises StateError. -/
theorem exec_ne_stateError (hl : legal i s = true) (h : exec i s = .next t) :
    t.lastCause ≠ .stateError := by
  have hnot : ¬ legal i s = false := by simp [hl]
  cases i with
  | beginSession =>
    obtain ⟨hf, -⟩ | ⟨-, -, rfl⟩ | ⟨c, -, -, rfl⟩ := execBegin_cases h
    · exact absurd hf (legal_beginSession.1 hl)
    · simp
    · simp
  | writeBits =>
    obtain ⟨hf, -⟩ | ⟨-, -, rfl⟩ | ⟨-, -, -, rfl⟩ | ⟨s1, -, -, -, -, rfl⟩ := execWriteBits_cases h
    · exact absurd hf hnot
    all_goals simp
  | readBits =>
    obtain ⟨hf, -⟩ | ⟨-, -, rfl⟩ | ⟨-, -, -, rfl⟩ | ⟨u, -, -, -, -, rfl⟩ := execReadBits_cases h
    · exact absurd hf hnot
    all_goals simp
  | packCons =>
    obtain ⟨hf, -⟩ | ⟨-, hpack⟩ := execPackCons_cases h
    · exact absurd hf hnot
    · exact packAt_ne_stateError hpack
  | packNcons =>
    obtain ⟨hf, -⟩ | ⟨-, hpack⟩ := execPackNcons_cases h
    · exact absurd hf hnot
    · exact packAt_ne_stateError hpack
  | packOvf =>
    obtain ⟨hf, -⟩ | ⟨-, -, rfl⟩ | ⟨-, -, -, hpack⟩ | ⟨-, -, -, hpack⟩ := execPackOvf_cases h
    · exact absurd hf hnot
    · simp
    · obtain ⟨s1, -, rfl⟩ := packFitting_cases hpack
      simp
    · exact packOverflowing_ne_stateError hpack
  | endSession =>
    obtain ⟨hf, -⟩ | ⟨-, rfl⟩ := execEnd_cases h
    · exact absurd (legal_endSession.1 hl) hf
    · simp
  | unpackCons =>
    obtain ⟨hf, -⟩ | ⟨-, hread⟩ := execUnpackCons_cases h
    · exact absurd hf hnot
    · exact unpackAt_ne_stateError hread
  | unpackNcons =>
    obtain ⟨hf, -⟩ | ⟨-, hread⟩ := execUnpackNcons_cases h
    · exact absurd hf hnot
    · exact unpackAt_ne_stateError hread
  | unpackOvf =>
    obtain ⟨hf, -⟩ | ⟨-, -, rfl⟩ | ⟨-, -, -, rfl⟩ | ⟨f, -, -, -, -, hread⟩ := execUnpackOvf_cases h
    · exact absurd hf hnot
    · simp
    · simp
    · exact unpackPrimary_ne_stateError hread
  | rdreg =>
    obtain ⟨-, rfl⟩ | ⟨d, -, rfl⟩ := execRdreg_cases h <;> simp

end Legality

/-! ### BEGIN and END -/

section Begin

variable {p : Params} {k ks : BitVec 7} {variant : BitVec 2} {signed ovfEn ovfMode : Bool}
  {s : State}

/-- The two bits of VARIANT name CONS, NCONS, RAW or nothing (30_encoding.md R72). -/
theorem variantOf_cases (variant : BitVec 2) :
    (variant = 0#2 ∧ variantOf variant = some .cons) ∨
    (variant = 1#2 ∧ variantOf variant = some .ncons) ∨
    (variant = 2#2 ∧ variantOf variant = some .raw) ∨
    (variant = 3#2 ∧ variantOf variant = none) := by
  revert variant
  decide

theorem configOf_of_legalForm {v : Variant} (hv : variantOf variant = some v)
    (h : legalForm p ⟨v, signed, ovfEn, ovfMode, k, ks⟩ = true) :
    configOf p k ks variant signed ovfEn ovfMode = some ⟨v, signed, ovfEn, ovfMode, k, ks⟩ := by
  simp [configOf, hv, h]

theorem configOf_of_not_legalForm {v : Variant} (hv : variantOf variant = some v)
    (h : ¬ legalForm p ⟨v, signed, ovfEn, ovfMode, k, ks⟩ = true) :
    configOf p k ks variant signed ovfEn ovfMode = none := by
  simp [configOf, hv, h]

theorem configOf_of_variantOf_none (hv : variantOf variant = none) :
    configOf p k ks variant signed ovfEn ovfMode = none := by
  simp [configOf, hv]

theorem execBegin_of_configOf_some {c : ConfigReg} (hst : s.state ≠ .faulted)
    (hc : configOf s.params k ks variant signed ovfEn ovfMode = some c) :
    execBegin k ks variant signed ovfEn ovfMode s = .next (respond 0#64 (openSession c s)) := by
  simp [execBegin, legal_beginSession.2 hst, hc]

theorem execBegin_of_configOf_none (hst : s.state ≠ .faulted)
    (hc : configOf s.params k ks variant signed ovfEn ovfMode = none) :
    execBegin k ks variant signed ovfEn ovfMode s = .next (raise .configurationError s) := by
  simp [execBegin, legal_beginSession.2 hst, hc]

theorem execEnd_of_packing (hst : s.state = .packing) :
    execEnd s = .next (respond 0#64 { s with state := .sealed }) := by
  simp [execEnd, legal_endSession.2 hst]

end Begin

/-! ### RDREG -/

theorem execRdreg_of_readReg {r : BitVec 4} {s : State} {d : Word} (h : readReg s r = some d) :
    execRdreg r s = .next (respond d s) := by
  simp [execRdreg, h]

theorem execRdreg_of_reserved {r : BitVec 4} {s : State} (h : readReg s r = none) :
    execRdreg r s = .next (raise .illegalCommand s) := by
  simp [execRdreg, h]

/-- A concatenation in numbers: its left part stands above its right part. -/
theorem toNat_append_eq_add {m n : Nat} (x : BitVec m) (y : BitVec n) :
    (x ++ y).toNat = x.toNat * 2 ^ n + y.toNat := by
  rw [BitVec.toNat_append, ← Nat.shiftLeft_add_eq_or_of_lt y.isLt, Nat.shiftLeft_eq]

/-- The 64-bit view of CONFIG in numbers (10_state.md R27). -/
theorem toNat_configWord (c : ConfigReg) :
    (configWord c).toNat = (variantCode c.variant).toNat + c.signed.toNat * 2 ^ 2 +
      c.ovfEn.toNat * 2 ^ 3 + c.ovfMode.toNat * 2 ^ 4 + c.k.toNat * 2 ^ 5 +
      c.ksmall.toNat * 2 ^ 12 := by
  unfold configWord
  simp only [toNat_append_eq_add, BitVec.toNat_ofBool, BitVec.toNat_ofNat]
  omega

/-- Bit 0 of ERR_STICKY reads 0 (10_state.md R33). -/
theorem toNat_errSticky_masked (e : BitVec 8) :
    (e &&& stickyMask).toNat = e.toNat - e.toNat % 2 := by
  revert e
  decide

/-! ### What can change STATE in a sealed array -/

section Sealed

variable {s t : State}

theorem ne_packing_of_sealed (hst : s.state = .sealed ∨ s.state = .faulted) :
    s.state ≠ .packing := by
  rcases hst with hst | hst <;> simp [hst]

theorem stateAfter_ne_packing {c : Cause} {st : SessionState} (h : st ≠ .packing) :
    stateAfter c st ≠ .packing := by
  cases c <;> simp [stateAfter, h]

/-- An effect on a sealed array that opens no session keeps it sealed or finds a failure. -/
theorem Effect.state_of_sealed (he : Effect s t) (hst : s.state = .sealed ∨ s.state = .faulted)
    (ht : t.state ≠ .packing) : t.state = .sealed ∨ t.state = .faulted := by
  have hnot := ne_packing_of_sealed hst
  cases he with
  | rejected hc => rwa [raise_state, hc]
  | fieldPastCursor | entryPastStore => exact .inr rfl
  | responded => exact hst
  | opened => exact absurd rfl ht
  | aborted _ hp | ended hp | written hp | packed hp | overflowed hp => exact absurd hp hnot

end Sealed

end Sys2Proof.Machine

namespace Sys2Proof.Claims

open Sys2Proof Sys2Proof.Machine

/-! ### The tables of the statements are the model's -/

theorem variant_ne_raw_iff {v : Variant} : v ≠ .raw ↔ v = .cons ∨ v = .ncons := by
  cases v <;> simp

theorem legal_iff_allowedIn (i : Instr) (s : State) : legal i s = true ↔ AllowedIn i s := by
  delta AllowedIn Allowed
  cases i with
  | beginSession => rw [legal_beginSession]; cases s.state <;> simp
  | writeBits => rw [legal_writeBits]; cases s.state <;> simp
  | readBits => rw [legal_readBits]; cases s.state <;> simp
  | packCons => rw [legal_packCons]; cases s.state <;> simp
  | packNcons => rw [legal_packNcons]; cases s.state <;> simp
  | packOvf => rw [legal_packOvf, variant_ne_raw_iff]; cases s.state <;> simp
  | endSession => rw [legal_endSession]; cases s.state <;> simp
  | unpackCons => rw [legal_unpackCons]; cases s.state <;> simp
  | unpackNcons => rw [legal_unpackNcons]; cases s.state <;> simp
  | unpackOvf => rw [legal_unpackOvf, variant_ne_raw_iff]; cases s.state <;> simp
  | rdreg => exact iff_of_true legal_rdreg trivial

section Forms

variable {p : Params} {k ks : BitVec 7} {signed ovfEn ovfMode : Bool}

/-- Beside VARIANT 0 or 1, the legal forms are the plain and the overflow packed array
(45_session_control.md R221). -/
theorem legalForm_of_array {v : Variant} (hv : v ≠ .raw) :
    legalForm p ⟨v, signed, ovfEn, ovfMode, k, ks⟩ = true ↔
      (ovfEn = false ∧ ovfMode = false ∧ 1 ≤ k.toNat ∧ k.toNat ≤ p.w ∧ ks.toNat = 0) ∨
      (ovfEn = true ∧ k.toNat = 0 ∧ 1 ≤ ks.toNat ∧ ks.toNat < p.nativeW ∧ ks.toNat + 1 ≤ p.w) := by
  obtain rfl | rfl := variant_ne_raw_iff.1 hv <;>
    simp only [legalForm, plainForm, overflowForm, Bool.or_eq_true, Bool.and_eq_true,
      Bool.not_eq_true', decide_eq_true_eq, and_assoc]

/-- Beside VARIANT 2, the legal form is the RAW buffer (45_session_control.md R221). -/
theorem legalForm_of_raw :
    legalForm p ⟨.raw, signed, ovfEn, ovfMode, k, ks⟩ = true ↔
      signed = false ∧ ovfEn = false ∧ ovfMode = false ∧ k.toNat = 0 ∧ ks.toNat = 0 := by
  simp only [legalForm, rawForm, Bool.and_eq_true, Bool.not_eq_true', decide_eq_true_eq, and_assoc]

theorem legalForm_iff_legalBegin {variant : BitVec 2} {v : Variant}
    (hv : variantOf variant = some v) :
    legalForm p ⟨v, signed, ovfEn, ovfMode, k, ks⟩ = true ↔
      LegalBegin p k ks variant signed ovfEn ovfMode := by
  obtain ⟨rfl, h⟩ | ⟨rfl, h⟩ | ⟨rfl, h⟩ | ⟨rfl, h⟩ := variantOf_cases variant <;> rw [h] at hv
  · cases hv; simp [legalForm_of_array, LegalBegin]
  · cases hv; simp [legalForm_of_array, LegalBegin]
  · cases hv; simp [legalForm_of_raw, LegalBegin]
  · cases hv

end Forms

theorem configWord_eq_registerValue (s : State) :
    configWord s.config = BitVec.ofNat 64 (registerValue s 1) := by
  have hvalue : (configWord s.config).toNat = registerValue s 1 := by
    rw [toNat_configWord]
    unfold registerValue
    cases s.config.variant <;> rfl
  rw [← hvalue, BitVec.ofNat_toNat, BitVec.setWidth_eq]

theorem errSticky_eq_registerValue (s : State) :
    (s.errSticky &&& stickyMask).zeroExtend 64 = BitVec.ofNat 64 (registerValue s 7) :=
  (BitVec.ofNat_toNat 64 _).symm.trans (congrArg _ (toNat_errSticky_masked s.errSticky))

/-- The register map in numbers (10_state.md section 1): the codes of STATE and LAST_CAUSE, CONFIG
by its fields, ERR_STICKY without its bit 0, the other registers as they are. -/
theorem readReg_eq_registerValue {s : State} {r : BitVec 4} (hr : r.toNat < 12) :
    readReg s r = some (BitVec.ofNat 64 (registerValue s r.toNat)) := by
  unfold readReg
  generalize r.toNat = n at hr
  match n, hr with
  | 0, _ => unfold registerValue; cases s.state <;> rfl
  | 1, _ => exact congrArg some (configWord_eq_registerValue s)
  | 2, _ | 3, _ | 4, _ | 5, _ => simp [registerValue]
  | 6, _ => unfold registerValue; cases s.lastCause <;> rfl
  | 7, _ => exact congrArg some (errSticky_eq_registerValue s)
  | 8, _ | 9, _ | 10, _ | 11, _ => simp [registerValue]

theorem readReg_of_reserved {s : State} {r : BitVec 4} (hr : 12 ≤ r.toNat) :
    readReg s r = none := by
  have hlt := r.isLt
  unfold readReg
  generalize r.toNat = n at hr hlt
  interval_cases n <;> rfl

/-! ### A sealed array -/

/-- In SEALED and FAULTED only the reads and RDREG may be legal beside BEGIN: nothing writes
(45_session_control.md R220). -/
theorem exec_cases_of_sealed {i : Instr} {s t : State}
    (hst : s.state = .sealed ∨ s.state = .faulted) (hi : isBegin i = false)
    (h : exec i s = .next t) : (∃ c, t = raise c s) ∨ (∃ d, t = respond d s) := by
  have hnot := ne_packing_of_sealed hst
  cases hl : legal i s with
  | false =>
    rw [exec_of_illegal hl] at h
    cases h
    exact .inl ⟨_, rfl⟩
  | true =>
    have hread (hr : isRead i = true) : (∃ c, t = raise c s) ∨ (∃ d, t = respond d s) := by
      obtain ⟨c, -, rfl⟩ | ⟨d, rfl, -⟩ := exec_cases_of_isRead hr h
      · exact .inl ⟨c, rfl⟩
      · exact .inr ⟨d, rfl⟩
    cases i with
    | beginSession => cases hi
    | writeBits => exact absurd (legal_writeBits.1 hl).1 hnot
    | packCons => exact absurd (legal_packCons.1 hl).1 hnot
    | packNcons => exact absurd (legal_packNcons.1 hl).1 hnot
    | packOvf => exact absurd (legal_packOvf.1 hl).1 hnot
    | endSession => exact absurd (legal_endSession.1 hl) hnot
    | readBits | unpackCons | unpackNcons | unpackOvf => exact hread rfl
    | rdreg =>
      obtain ⟨-, rfl⟩ | ⟨d, -, rfl⟩ := execRdreg_cases h
      · exact .inl ⟨_, rfl⟩
      · exact .inr ⟨d, rfl⟩

/-- A command but BEGIN leaves a sealed array as it is, and of the raises only a ConsistencyError
changes STATE (45_session_control.md R223, 60_exceptions.md R257). -/
theorem exec_keeps_sealed {i : Instr} {s t : State}
    (hst : s.state = .sealed ∨ s.state = .faulted) (hi : isBegin i = false)
    (h : exec i s = .next t) :
    t.words = s.words ∧ t.ovf = s.ovf ∧ t.cursor = s.cursor ∧ t.lenWords = s.lenWords ∧
      t.count = s.count ∧ t.ovfCount = s.ovfCount ∧ (t.state = .sealed ∨ t.state = .faulted) := by
  have hnot := ne_packing_of_sealed hst
  have hstate := (exec_effect h).state_of_sealed hst
  obtain ⟨c, rfl⟩ | ⟨d, rfl⟩ := exec_cases_of_sealed hst hi h
  · exact ⟨rfl, rfl, rfl, rfl, rfl, rfl, hstate (stateAfter_ne_packing hnot)⟩
  · exact ⟨rfl, rfl, rfl, rfl, rfl, rfl, hst⟩

/-! ### The statements of 45_session_control.md about the commands -/

/-- Settles O15: the model's table is the spec's, an illegal command raises StateError at its first
check, and no other check raises it. -/
theorem legalityTableDecidesStateError : Obligations.LegalityTableDecidesStateError := by
  intro i s
  rw [← legal_iff_allowedIn]
  exact ⟨fun hl => .of_eq (exec_of_illegal (by simpa using hl)), fun hl _ => exec_ne_stateError hl⟩

/-- Settles O18: a header that is no command raises IllegalCommand, and a command but BEGIN writes
nothing. -/
theorem sealedArrayIsImmutable : Obligations.SealedArrayIsImmutable := by
  intro s t h a rest hst hpend hbegin hstep
  obtain ⟨hp, -⟩ := step_cases hstep
  rw [step_of_command hp hpend] at hstep
  cases hd : decode h a with
  | error e =>
    rw [runCommand_of_error hd] at hstep
    cases hstep
    exact ⟨rfl, rfl, rfl, rfl, rfl, rfl, hst⟩
  | ok i =>
    rw [runCommand_of_ok hd] at hstep
    exact exec_keeps_sealed (s := { s with pending := rest }) hst (hbegin i hd) hstep

/-- Settles O20: a legal form names a variant, and its fields are the new configuration. -/
theorem beginOpensEmptySession : Obligations.BeginOpensEmptySession := by
  intro k ks variant signed ovfEn ovfMode s hst hform
  have hexec {v : Variant} (hv : variantOf variant = some v) :=
    execBegin_of_configOf_some hst
      (configOf_of_legalForm hv ((legalForm_iff_legalBegin hv).2 hform))
  obtain ⟨rfl, hv⟩ | ⟨rfl, hv⟩ | ⟨rfl, hv⟩ | ⟨rfl, hv⟩ := variantOf_cases variant
  · exact ⟨.cons, by simp, hexec hv⟩
  · exact ⟨.ncons, by simp, hexec hv⟩
  · exact ⟨.raw, by simp, hexec hv⟩
  · simp [LegalBegin] at hform

/-- Settles O21: the fields name no variant, or a configuration that is no legal form. -/
theorem beginRejectsIllegalForms : Obligations.BeginRejectsIllegalForms := by
  intro k ks variant signed ovfEn ovfMode s hst hform
  refine .of_eq (execBegin_of_configOf_none hst ?_)
  cases hv : variantOf variant with
  | none => exact configOf_of_variantOf_none hv
  | some v => exact configOf_of_not_legalForm hv (mt (legalForm_iff_legalBegin hv).1 hform)

/-- Settles O22: END is legal in PACKING alone, and has no other check. -/
theorem endSealsOpenSession : Obligations.EndSealsOpenSession := by
  intro s
  refine ⟨execEnd_of_packing, fun hst => .of_eq (exec_of_illegal ?_)⟩
  rwa [Bool.eq_false_iff, ne_eq, legal_endSession]

/-- Settles O23: the model's register map is the spec's in numbers, and reserved numbers are in
neither. -/
theorem rdregReturnsRegister : Obligations.RdregReturnsRegister := fun _ _ =>
  ⟨fun hr => execRdreg_of_readReg (readReg_eq_registerValue hr),
    fun hr => .of_eq (execRdreg_of_reserved (readReg_of_reserved hr))⟩

end Sys2Proof.Claims
end

section
/-! PROOFS. AutoWidth (45_session_control.md R232): `bitlen` by its defining bound, from which both
the formula with the logarithm and the fit of every value follow. -/

namespace Sys2Proof.Machine

/-- The binary digits of m are the least exponent whose power of two is above m. -/
theorem bitLen_le_iff {m n : Nat} : bitLen m ≤ n ↔ m < 2 ^ n := by
  unfold bitLen
  split
  · next hm => simp [hm]
  · next hm => rw [Nat.add_one_le_iff, Nat.log2_lt hm]

theorem bitLen_eq_clog (m : Nat) : bitLen m = Nat.clog 2 (m + 1) :=
  eq_of_forall_ge_iff fun n => by
    rw [bitLen_le_iff, Nat.clog_le_iff_le_pow Nat.one_lt_two, Nat.add_one_le_iff]

theorem natAbs_le_maxMagnitude {values : List Int} {x : Int} (hx : x ∈ values) :
    x.natAbs ≤ maxMagnitude values := by
  induction values with
  | nil => cases hx
  | cons v vs ih =>
    rcases List.mem_cons.1 hx with rfl | hx
    · exact Nat.le_max_left _ _
    · exact (ih hx).trans (Nat.le_max_right _ _)

theorem autoWidth_eq_max (values : List Int) (signed : Bool) :
    autoWidth values signed = max 1 (rawAutoWidth values signed) := by
  unfold autoWidth
  split <;> omega

/-- A magnitude fits the digits of the largest one (45_session_control.md R232). -/
theorem natAbs_lt_two_pow_bitLen {values : List Int} {x : Int} (hx : x ∈ values) :
    x.natAbs < 2 ^ bitLen (maxMagnitude values) :=
  (natAbs_le_maxMagnitude hx).trans_lt (bitLen_le_iff.1 le_rfl)

end Sys2Proof.Machine

namespace Sys2Proof.Claims

open Sys2Proof Sys2Proof.Machine

/-- A magnitude below 2^(k-1) fits a signed session's k bits, and one below 2^k, not negative, an
unsigned session's (44_signed_codec.md R202, R203). -/
theorem inRange_of_natAbs_lt {signed : Bool} {k n : Nat} {x : Int} (hk : n + signed.toNat ≤ k)
    (hx : x.natAbs < 2 ^ n) (hsign : signed = true ∨ 0 ≤ x) : InRange signed k x := by
  cases signed with
  | false =>
    have hle : 2 ^ n ≤ 2 ^ k := Nat.pow_le_pow_right Nat.two_pos hk
    have hpos : 0 ≤ x := hsign.resolve_left Bool.false_ne_true
    show 0 ≤ x ∧ x ≤ ((2 ^ k : Nat) : Int) - 1
    omega
  | true =>
    have hle : 2 ^ n ≤ 2 ^ (k - 1) := Nat.pow_le_pow_right Nat.two_pos (Nat.le_sub_one_of_lt hk)
    show -((2 ^ (k - 1) : Nat) : Int) + 1 ≤ x ∧ x ≤ ((2 ^ (k - 1) : Nat) : Int) - 1
    omega

/-- Settles O59: the digits of the largest magnitude are its logarithm rounded up, and leave a bit
for the sign in a signed session. -/
theorem autoWidthFitsEveryValue : Obligations.AutoWidthFitsEveryValue := by
  refine fun values signed => ⟨?_, fun x hx hsign => ?_⟩
  · rw [autoWidth_eq_max, rawAutoWidth, bitLen_eq_clog]
  · have hk : bitLen (maxMagnitude values) + signed.toNat ≤ autoWidth values signed :=
      autoWidth_eq_max values signed ▸ Nat.le_max_right 1 _
    exact inRange_of_natAbs_lt hk (natAbs_lt_two_pow_bitLen hx) hsign

end Sys2Proof.Claims
end

section
/-! PROOFS. Sequences of commands (45_session_control.md R233 to R235): one that runs without a
raise, what such a run adds to the responses, and what COMPRESS and DECOMPRESS are made of. -/

namespace Sys2Proof.Machine

/-! ### Sequences without a raise -/

/-- The commands run one after another from `s` to `t`, and each ends without an error. -/
def Succeeds : List Instr → State → State → Prop
  | [], s, t => t = s
  | i :: is, s, t => ∃ s1, exec i s = .next s1 ∧ s1.lastCause = .noError ∧ Succeeds is s1 t

theorem succeeds_append {is js : List Instr} {s t : State} :
    Succeeds (is ++ js) s t ↔ ∃ u, Succeeds is s u ∧ Succeeds js u t := by
  induction is generalizing s with
  | nil => simp [Succeeds]
  | cons i is ih =>
    simp only [List.cons_append, Succeeds, ih]
    constructor
    · rintro ⟨s1, hi, hok, u, his, hjs⟩
      exact ⟨u, ⟨s1, hi, hok, his⟩, hjs⟩
    · rintro ⟨u, ⟨s1, hi, hok, his⟩, hjs⟩
      exact ⟨s1, hi, hok, u, his, hjs⟩

theorem succeeds_singleton {i : Instr} {s t : State} :
    Succeeds [i] s t ↔ exec i s = .next t ∧ t.lastCause = .noError := by
  constructor
  · rintro ⟨s1, hi, hok, rfl⟩
    exact ⟨hi, hok⟩
  · rintro ⟨hi, hok⟩
    exact ⟨t, hi, hok, rfl⟩

theorem Succeeds.runSeq {is : List Instr} {s t : State} (h : Succeeds is s t) :
    runSeq is s = .next t := by
  induction is generalizing s with
  | nil =>
    obtain rfl : t = s := h
    rfl
  | cons i is ih =>
    obtain ⟨s1, hi, -, his⟩ := h
    rw [Machine.runSeq, hi]
    exact ih his

theorem runSeq_cons_next {i : Instr} {is : List Instr} {s t : State}
    (h : runSeq (i :: is) s = .next t) : ∃ s1, exec i s = .next s1 ∧ runSeq is s1 = .next t := by
  unfold runSeq at h
  split at h
  · next s1 hi => exact ⟨s1, hi, h⟩
  · cases h
  · cases h

theorem exec_response {i : Instr} {s t : State} (h : exec i s = .next t) :
    ∃ r, t.responses = r :: s.responses ∧ t.lastCause = r.cause := by
  have hends : Ends s (.next t) := h ▸ exec_ends i s
  obtain ⟨r, hr, -, hcause, -⟩ := hends.response
  exact ⟨r, hr, hcause⟩

/-- Every command of a sequence adds one response (30_encoding.md R71). -/
theorem runSeq_responses {is : List Instr} {s t : State} (h : runSeq is s = .next t) :
    ∃ rs, rs.length = is.length ∧ t.responses = rs ++ s.responses := by
  induction is generalizing s with
  | nil =>
    cases h
    exact ⟨[], rfl, rfl⟩
  | cons i is ih =>
    obtain ⟨s1, hi, his⟩ := runSeq_cons_next h
    obtain ⟨r, hr, -⟩ := exec_response hi
    obtain ⟨rs, hlen, hrs⟩ := ih his
    exact ⟨rs ++ [r], by simp [hlen], by simp [hrs, hr]⟩

/-- A sequence none of whose responses is an error runs without a raise. -/
theorem succeeds_of_runSeq {is : List Instr} {s t : State} (h : runSeq is s = .next t)
    (hok : ∀ r ∈ t.responses.take is.length, r.cause = .noError) : Succeeds is s t := by
  induction is generalizing s with
  | nil =>
    cases h
    rfl
  | cons i is ih =>
    obtain ⟨s1, hi, his⟩ := runSeq_cons_next h
    obtain ⟨r, hr, hcause⟩ := exec_response hi
    obtain ⟨rs, hlen, hrs⟩ := runSeq_responses his
    have htake : t.responses.take (is.length + 1) = rs ++ [r] := by
      rw [hrs, hr, List.append_cons]
      exact List.take_left' (by simp [hlen])
    have htake' : t.responses.take is.length = rs := by
      rw [hrs]
      exact List.take_left' hlen
    rw [List.length_cons, htake] at hok
    refine ⟨s1, hi, hcause.trans (hok r (by simp)), ih his fun r' hr' => hok r' ?_⟩
    rw [htake'] at hr'
    exact List.mem_append_left _ hr'

/-- Commands that return nothing and do not raise answer (NONE, 0) (30_encoding.md R78). -/
theorem Succeeds.responses {is : List Instr} {s t : State} (h : Succeeds is s t)
    (hi : ∀ i ∈ is, Claims.returnsNothing i = true) :
    t.responses = List.replicate is.length { cause := .noError, data := 0#64 } ++ s.responses := by
  induction is generalizing s with
  | nil =>
    obtain rfl : t = s := h
    rfl
  | cons i is ih =>
    obtain ⟨s1, hexec, hok, his⟩ := h
    obtain ⟨r, hr, hcause⟩ := exec_response hexec
    have hdata : r.data = 0#64 := exec_answersZero (hi i (by simp)) hexec r (by simp [hr])
    obtain rfl : r = { cause := .noError, data := 0#64 } := by
      rw [← hdata, ← hok, hcause]
    rw [ih his fun j hj => hi j (List.mem_cons_of_mem _ hj), hr, List.length_cons,
      List.replicate_succ', List.append_assoc]
    rfl

/-- Commands that each respond with its own data in every state of a property that responses keep.
-/
theorem runSeq_of_responds {P : State → Prop} (hP : ∀ d u, P u → P (respond d u)) {is : List Instr}
    {ds : List Word}
    (h : List.Forall₂ (fun i d => ∀ u, P u → exec i u = .next (respond d u)) is ds)
    {s : State} (hs : P s) :
    ∃ t, runSeq is s = .next t ∧
      t.responses = ds.reverse.map (fun d => { cause := .noError, data := d }) ++ s.responses := by
  induction h generalizing s with
  | nil => exact ⟨s, rfl, rfl⟩
  | @cons i d is ds hi _ ih =>
    obtain ⟨t, ht, hresp⟩ := ih (hP d s hs)
    refine ⟨t, ?_, by simp [hresp]⟩
    rw [runSeq, hi s hs]
    exact ht

end Sys2Proof.Machine
end

section
/-! PROOFS. What an array holds: the elements its fields and overflow entries stand for, and that a
field written at the next element's place leaves those before it and adds its own. Stale words and
entries (10_state.md R43) may hold anything, so this is no part of `Inv`. -/

namespace Sys2Proof.Machine

/-! ### An element in its field -/

/-- The width of an element's code: K, or KSMALL with the overflow router (43_overflow.md R170). -/
def codeWidth (s : State) : Nat := if s.config.ovfEn then ksOf s else s.config.k.toNat

/-- Field i stands for the element x: it holds x's code, or, with the overflow router, a flag and a
payload, and the entry after as many flags reads back as x (43_overflow.md R172 to R176). -/
inductive HoldsAt (s : State) (i : Nat) (x : Int) : Prop
  | code (hfits : fits s.config.signed x (codeWidth s) = true)
      (hfield : FieldAt s (elemAddr s i) (elemWidth s) (fieldOf s.config.signed x (codeWidth s)))
  | entry {payload : Nat} {e : Word} (hen : s.config.ovfEn = true) (hpay : payload < 2 ^ ksOf s)
      (hfield : FieldAt s (elemAddr s i) (elemWidth s) (2 ^ ksOf s + payload))
      (hindex : s.config.ovfMode = false → payload = flagsBelow s i)
      (hget : Memory.get s.ovf (flagsBelow s i) = some e)
      (hvalue : sext s.params.nativeW e.toNat = x)

/-- CONFIG after the BEGIN of an array form (30_encoding.md R82). -/
def arrayConfig : ArrayForm → ConfigReg
  | .plain ncons k signed =>
    { variant := if ncons then .ncons else .cons, signed := signed, ovfEn := false,
      ovfMode := false, k := k, ksmall := 0#7 }
  | .overflow ncons compact ks signed =>
    { variant := if ncons then .ncons else .cons, signed := signed, ovfEn := true,
      ovfMode := compact, k := 0#7, ksmall := ks }

/-- The array of the session, of the form f, holds the elements xs in order. -/
structure HoldsArray (f : ArrayForm) (s : State) (xs : List Int) : Prop where
  buffer : BufferOk s
  config : s.config = arrayConfig f
  form : legalForm s.params s.config = true
  count : s.count.toNat = xs.length
  ends : s.cursor.toNat = elemEnd s xs.length
  flags : s.config.ovfEn = true → flagsBelow s xs.length = s.ovfCount.toNat
  store : s.ovfCount.toNat ≤ s.params.maxOvf
  elements : ∀ i x, xs[i]? = some x → HoldsAt s i x

theorem arrayConfig_variant_ne_raw (f : ArrayForm) : (arrayConfig f).variant ≠ .raw := by
  rcases f with ⟨ncons, _, _⟩ | ⟨ncons, _, _, _⟩ <;> cases ncons <;> simp [arrayConfig]

theorem codeWidth_of_plain {s : State} (h : s.config.ovfEn = false) :
    codeWidth s = s.config.k.toNat := by
  simp [codeWidth, h]

theorem codeWidth_of_overflow {s : State} (h : s.config.ovfEn = true) : codeWidth s = ksOf s := by
  simp [codeWidth, h]

theorem codeWidth_le_elemWidth (s : State) : codeWidth s ≤ elemWidth s := by
  unfold codeWidth elemWidth kpOf
  split <;> omega

/-! ### What places and widths depend on -/

section Congr

variable {s t : State}

theorem elemWidth_congr (hc : t.config = s.config) : elemWidth t = elemWidth s := by
  simp only [elemWidth, kpOf, ksOf, hc]

theorem codeWidth_congr (hc : t.config = s.config) : codeWidth t = codeWidth s := by
  simp only [codeWidth, ksOf, hc]

theorem elemAddr_congr (hp : t.params = s.params) (hc : t.config = s.config) (i : Nat) :
    elemAddr t i = elemAddr s i := by
  simp only [elemAddr, elemWidth_congr hc, hc, hp]

theorem elemEnd_congr (hp : t.params = s.params) (hc : t.config = s.config) (n : Nat) :
    elemEnd t n = elemEnd s n := by
  simp only [elemEnd, elemWidth_congr hc, elemAddr_congr hp hc]

end Congr

/-! ### The next element's field written -/

/-- `t`'s buffer is `s`'s with one more field, of value v, at the next element's place, and N counts
it; the overflow store may have changed. -/
structure FieldAppended (s t : State) (v : Nat) : Prop where
  buffer : BufferOk t
  params : t.params = s.params
  config : t.config = s.config
  count : t.count = s.count + 1#64
  cursor : t.cursor.toNat = packStart s + elemWidth s
  field : FieldAt t (packStart s) (elemWidth s) v
  kept : ∀ p, p < s.cursor.toNat → readBit t p = readBit s p

theorem cursor_le_packStart {s : State} (hw : 1 ≤ s.params.w) : s.cursor.toNat ≤ packStart s := by
  unfold packStart nextStart
  split
  · split
    · exact le_ceilDiv_mul hw _
    · exact Nat.le_refl _
  · exact Nat.le_refl _

theorem BufferOk.packStart_le {s : State} (h : BufferOk s) :
    packStart s ≤ s.lenWords.toNat * s.params.w := by
  unfold packStart
  split
  · exact h.nextStart_le _
  · exact h.cursor

/-- A field within capacity leaves a buffer that can be read and written on. -/
theorem BufferOk.putField {s t : State} {start n v : Nat} (h : BufferOk s) (hn : 1 ≤ n)
    (hv : v < 2 ^ n) (hreach : start ≤ s.lenWords.toNat * s.params.w)
    (hc : start + n ≤ capacityBits s.params) (hs : putField s start n v = .ok t) : BufferOk t := by
  obtain ⟨t', hs', hstored, hcursor, -⟩ := h.putField_stores hn hv hreach hc
  obtain rfl : t' = t := by simpa [hs'] using hs
  have hp := putField_params h.params hs
  have hlen := hstored.length
  have hlisted : ∀ q, q < t'.lenWords.toNat → (Memory.get t'.words q).isSome = true := by
    obtain ⟨t1, hm, rfl⟩ := putField_cases hs
    exact fun q hq => memWrite_listed h.params hm h.listed q hq
  constructor
  case params => exact hp ▸ h.params
  case length =>
    rw [hlen, hp]
    exact max_le h.length (ceilDiv_le h.params.bounds.1 hc)
  case listed => exact hlisted
  case cursor =>
    rw [hcursor, hlen, hp]
    exact (le_ceilDiv_mul h.params.bounds.1 _).trans (Nat.mul_le_mul_right _ (Nat.le_max_right _ _))

theorem fieldAppended_of_putField {s s1 : State} {v : Nat} (entries : Memory) (n : Word)
    (hbuf : BufferOk s) (hlo : 1 ≤ elemWidth s) (hv : v < 2 ^ elemWidth s)
    (hc : packStart s + elemWidth s ≤ capacityBits s.params)
    (hs : putField s (packStart s) (elemWidth s) v = .ok s1) :
    FieldAppended s
      (respond 0#64 { s1 with ovf := entries, ovfCount := n, count := s1.count + 1#64 }) v := by
  obtain ⟨s1', hs', hstored, hcursor, -⟩ := hbuf.putField_stores hlo hv hbuf.packStart_le hc
  obtain rfl : s1' = s1 := by simpa [hs'] using hs
  obtain ⟨hp, hlen, hlisted, hcur⟩ := hbuf.putField hlo hv hbuf.packStart_le hc hs
  have hparams := putField_params hbuf.params hs
  have hconfig := putField_config hbuf.params hs
  constructor
  case buffer => exact ⟨hp, hlen, hlisted, hcur⟩
  case params => exact hparams
  case config => exact hconfig
  case count => exact congrArg (· + 1#64) (putField_count hbuf.params hs)
  case cursor => exact hcursor
  case field => exact hstored.field.congr fun _ _ => rfl
  case kept =>
    exact fun p hp => hstored.kept p (hp.trans_le hbuf.cursor)
      (.inl (hp.trans_le (cursor_le_packStart hbuf.params.bounds.1)))

/-! ### An array with one more element -/

section Append

variable {f : ArrayForm} {s t : State} {xs : List Int} {v i : Nat}

theorem HoldsArray.variant_ne_raw (h : HoldsArray f s xs) : s.config.variant ≠ .raw :=
  h.config ▸ arrayConfig_variant_ne_raw f

theorem HoldsArray.elemWidth_bounds (h : HoldsArray f s xs) :
    1 ≤ elemWidth s ∧ elemWidth s ≤ s.params.w :=
  Machine.elemWidth_bounds h.form h.variant_ne_raw

theorem HoldsArray.packStart_eq (h : HoldsArray f s xs) : packStart s = elemAddr s xs.length := by
  obtain ⟨hlo, hhi⟩ := h.elemWidth_bounds
  rw [packStart_eq_elemAddr hlo hhi (h.count ▸ h.ends), h.count]

theorem HoldsArray.elemAddr_add_le_cursor (h : HoldsArray f s xs) (hi : i < xs.length) :
    elemAddr s i + elemWidth s ≤ s.cursor.toNat := by
  obtain ⟨hlo, hhi⟩ := h.elemWidth_bounds
  exact h.ends ▸ elemAddr_add_le_elemEnd hlo hhi hi

/-- Every field begins with a bit that can be read, its flag in an overflow array. -/
theorem HoldsAt.readBit {x : Int} (h : HoldsAt s i x) (hlo : 1 ≤ elemWidth s) :
    ∃ b, readBit s (elemAddr s i) = .ok b := by
  cases h with
  | code _ hfield => exact ⟨_, hfield.bits 0 hlo⟩
  | entry _ _ hfield => exact ⟨_, hfield.bits 0 hlo⟩

namespace FieldAppended

/-- The fields before the new one stay. -/
theorem fieldAt_of_lt (ha : FieldAppended s t v) (h : HoldsArray f s xs) (hi : i < xs.length)
    {u : Nat} (hu : FieldAt s (elemAddr s i) (elemWidth s) u) :
    FieldAt t (elemAddr t i) (elemWidth t) u := by
  have hend := h.elemAddr_add_le_cursor hi
  rw [elemAddr_congr ha.params ha.config, elemWidth_congr ha.config]
  exact hu.congr fun j hj => ha.kept _ (by omega)

theorem fieldAt_new (ha : FieldAppended s t v) (h : HoldsArray f s xs) :
    FieldAt t (elemAddr t xs.length) (elemWidth t) v := by
  rw [elemAddr_congr ha.params ha.config, elemWidth_congr ha.config, ← h.packStart_eq]
  exact ha.field

/-- The flags before the new field stay. -/
theorem flagsBelow_eq (ha : FieldAppended s t v) (h : HoldsArray f s xs)
    (hen : s.config.ovfEn = true) (hi : i ≤ xs.length) : flagsBelow t i = flagsBelow s i := by
  refine flagsBelow_congr fun j hj => ?_
  have hlo := h.elemWidth_bounds.1
  have hend := h.elemAddr_add_le_cursor (hj.trans_le hi)
  have hplace : primAddr t j = primAddr s j := by
    rw [← elemAddr_of_overflow hen, ← elemAddr_of_overflow (ha.config ▸ hen),
      elemAddr_congr ha.params ha.config]
  unfold flagBit
  rw [hplace, ← elemAddr_of_overflow hen, ha.kept _ (by omega)]

theorem flagBit_new (ha : FieldAppended s t v) (h : HoldsArray f s xs)
    (hen : s.config.ovfEn = true) : flagBit t xs.length = v.testBit (ksOf s) := by
  have hen' : t.config.ovfEn = true := ha.config ▸ hen
  have hf := ha.fieldAt_new h
  rw [elemAddr_of_overflow hen', elemWidth_of_overflow hen'] at hf
  rw [hf.flagBit, ksOf, ha.config, ksOf]

/-- N counts one up without a wrap, since the field lies within capacity (assumption log 5). -/
theorem count_eq (ha : FieldAppended s t v) (h : HoldsArray f s xs)
    (hc : packStart s + elemWidth s ≤ capacityBits s.params) :
    t.count.toNat = xs.length + 1 := by
  obtain ⟨hlo, hhi⟩ := h.elemWidth_bounds
  obtain ⟨-, -, -, -, hcap, -⟩ := h.buffer.params
  have hle := le_elemAddr hlo hhi xs.length
  rw [h.packStart_eq] at hc
  rw [ha.count, toNat_add_one (m := capacityBits s.params) (by rw [h.count]; omega) hcap, h.count]

theorem ends (ha : FieldAppended s t v) (h : HoldsArray f s xs) :
    t.cursor.toNat = elemEnd t (xs.length + 1) := by
  rw [elemEnd_congr ha.params ha.config, ha.cursor, h.packStart_eq]
  rfl

/-- An element before the new one stays, where its entry does. -/
theorem holdsAt_of_lt (ha : FieldAppended s t v) (h : HoldsArray f s xs) (hi : i < xs.length)
    (hold : ∀ j, j < s.ovfCount.toNat → Memory.get t.ovf j = Memory.get s.ovf j) {x : Int}
    (hx : HoldsAt s i x) : HoldsAt t i x := by
  cases hx with
  | code hfits hfield =>
    rw [← codeWidth_congr ha.config, ← ha.config] at hfits hfield
    exact .code hfits (ha.fieldAt_of_lt h hi hfield)
  | @entry payload e hen hpay hfield hindex hget hvalue =>
    have hks : ksOf t = ksOf s := by rw [ksOf, ha.config, ksOf]
    have hbelow := ha.flagsBelow_eq h hen hi.le
    have hflag : flagBit s i = true := by
      rw [elemAddr_of_overflow hen, elemWidth_of_overflow hen] at hfield
      rw [hfield.flagBit, testBit_flagged hpay]
    have hlt : flagsBelow s i < s.ovfCount.toNat := h.flags hen ▸ flagsBelow_lt hi hflag
    have hfield' := ha.fieldAt_of_lt h hi hfield
    rw [← hks] at hpay hfield'
    refine .entry (ha.config ▸ hen) hpay hfield' ?_ ?_ (ha.params ▸ hvalue)
    · rw [hbelow, ha.config]
      exact hindex
    · rw [hbelow, hold _ hlt, hget]

/-- A new field with x's code stands for x. -/
theorem holdsAt_code {x : Int} (h : HoldsArray f s xs)
    (hfits : fits s.config.signed x (codeWidth s) = true)
    (ha : FieldAppended s t (fieldOf s.config.signed x (codeWidth s))) :
    HoldsAt t xs.length x := by
  have hfield := ha.fieldAt_new h
  rw [← codeWidth_congr ha.config, ← ha.config] at hfits hfield
  exact .code hfits hfield

/-- A new flagged field stands for x where the entry past the old ones reads back as x. -/
theorem holdsAt_entry {payload : Nat} {e : Word} {x : Int} (h : HoldsArray f s xs)
    (hen : s.config.ovfEn = true) (hpay : payload < 2 ^ ksOf s)
    (ha : FieldAppended s t (2 ^ ksOf s + payload))
    (hindex : s.config.ovfMode = false → payload = s.ovfCount.toNat)
    (hget : Memory.get t.ovf s.ovfCount.toNat = some e)
    (hvalue : sext s.params.nativeW e.toNat = x) : HoldsAt t xs.length x := by
  have hks : ksOf t = ksOf s := by rw [ksOf, ha.config, ksOf]
  have hbelow : flagsBelow t xs.length = s.ovfCount.toNat :=
    (ha.flagsBelow_eq h hen le_rfl).trans (h.flags hen)
  have hfield := ha.fieldAt_new h
  rw [← hks] at hpay hfield
  refine .entry (ha.config ▸ hen) hpay hfield ?_ (hbelow ▸ hget) (ha.params ▸ hvalue)
  rw [hbelow, ha.config]
  exact hindex

/-- Appending a field that stands for x to an array of the elements xs gives one of xs and x, where
the overflow store grows with the flag. -/
theorem holdsArray (ha : FieldAppended s t v) (h : HoldsArray f s xs) {x : Int}
    (hc : packStart s + elemWidth s ≤ capacityBits s.params)
    (hold : ∀ j, j < s.ovfCount.toNat → Memory.get t.ovf j = Memory.get s.ovf j)
    (hflags : s.config.ovfEn = true →
      t.ovfCount.toNat = s.ovfCount.toNat + (v.testBit (ksOf s)).toNat)
    (hstore : t.ovfCount.toNat ≤ s.params.maxOvf) (hx : HoldsAt t xs.length x) :
    HoldsArray f t (xs ++ [x]) := by
  constructor
  case buffer => exact ha.buffer
  case config => exact ha.config.trans h.config
  case form => rw [ha.params, ha.config]; exact h.form
  case count => rw [ha.count_eq h hc, List.length_append, List.length_singleton]
  case ends => rw [ha.ends h, List.length_append, List.length_singleton]
  case flags =>
    rw [ha.config, List.length_append, List.length_singleton]
    intro hen
    rw [flagsBelow, ha.flagsBelow_eq h hen le_rfl, ha.flagBit_new h hen, h.flags hen, hflags hen]
  case store => rw [ha.params]; exact hstore
  case elements =>
    intro i y hy
    rcases Nat.lt_trichotomy i xs.length with hi | rfl | hi
    · rw [List.getElem?_append_left hi] at hy
      exact ha.holdsAt_of_lt h hi hold (h.elements i y hy)
    · obtain rfl : x = y := by simpa using hy
      exact hx
    · rw [List.getElem?_eq_none (by simp; omega)] at hy
      cases hy

end FieldAppended

end Append

end Sys2Proof.Machine
end

section
/-! PROOFS. Filling an array (45_session_control.md R234): the integers the host writes are those
the block reads, BEGIN opens the empty array, and each pack command that does not raise appends its
element. -/

namespace Sys2Proof.Machine

/-! ### An integer as an operand and as an entry -/

/-- x is an integer of NATIVE_W bits (30_encoding.md R77). -/
abbrev NativeInt (p : Params) (x : Int) : Prop :=
  -((2 ^ (p.nativeW - 1) : Nat) : Int) ≤ x ∧ x < ((2 ^ (p.nativeW - 1) : Nat) : Int)

/-- The low n bits of a pattern of at least n bits are the n-bit pattern. -/
theorem pat_mod_two_pow {n m : Nat} (hnm : n ≤ m) (x : Int) : pat m x % 2 ^ n = pat n x := by
  have hdvd : ((2 ^ n : Nat) : Int) ∣ ((2 ^ m : Nat) : Int) :=
    Int.natCast_dvd_natCast.2 (Nat.pow_dvd_pow 2 hnm)
  have hm : 0 ≤ x % ((2 ^ m : Nat) : Int) :=
    Int.emod_nonneg _ (by have := Nat.two_pow_pos m; omega)
  unfold pat
  rw [← Int.emod_emod_of_dvd x hdvd]
  generalize x % ((2 ^ m : Nat) : Int) = y at hm ⊢
  lift y to Nat using hm
  rw [← Int.natCast_emod, Int.toNat_natCast, Int.toNat_natCast]

/-- Reading an n-bit pattern back gives the integer it was made of (00_scope.md R7). -/
theorem sext_pat {n m : Nat} (hn : 1 ≤ n) (hnm : n ≤ m) {x : Int}
    (hlo : -((2 ^ (n - 1) : Nat) : Int) ≤ x) (hhi : x < ((2 ^ (n - 1) : Nat) : Int)) :
    sext n (pat m x) = x := by
  have hhalves := Nat.two_pow_pred_add_two_pow_pred hn
  rw [Claims.sext_eq_signedOf, Claims.signedOf, pat_mod_two_pow hnm, pat]
  rcases le_or_gt 0 x with hx | hx
  · rw [Int.emod_eq_of_lt hx (by omega), if_pos (by omega), Int.toNat_of_nonneg hx]
  · have hmod : x % ((2 ^ n : Nat) : Int) = x + (2 ^ n : Nat) := by
      rw [← Int.add_emod_right, Int.emod_eq_of_lt (by omega) (by omega)]
    rw [hmod, if_neg (by omega)]
    omega

/-- The block reads back the integer the host wrote (30_encoding.md R77, R82). -/
theorem elementOperand_operandWord {p : Params} (hp : ParamsLegal p) {x : Int}
    (hx : NativeInt p x) : elementOperand p (operandWord x) = x := by
  obtain ⟨-, -, hn, hn64, -, -⟩ := hp
  have hpat : (operandWord x).toNat = pat 64 x := by
    rw [operandWord, BitVec.toNat_ofNat, pat_mod_two_pow le_rfl]
  rw [elementOperand, hpat, sext_pat hn hn64 hx.1 hx.2]

/-- The overflow store returns the integer it was given (10_state.md R36, R37). -/
theorem sext_entry {p : Params} (hp : ParamsLegal p) {x : Int} (hx : NativeInt p x) :
    sext p.nativeW (BitVec.ofNat 64 (pat p.nativeW x)).toNat = x := by
  obtain ⟨-, -, hn, hn64, -, -⟩ := hp
  have hlt : pat p.nativeW x < 2 ^ 64 := by
    rw [← pat_mod_two_pow le_rfl]
    exact (Nat.mod_lt _ (Nat.two_pow_pos _)).trans_le (Nat.pow_le_pow_right Nat.two_pos hn64)
  rw [BitVec.toNat_ofNat, Nat.mod_eq_of_lt hlt, sext_pat hn le_rfl hx.1 hx.2]

/-! ### BEGIN and END of an array -/

section Session

variable {f : ArrayForm} {s t : State} {xs : List Int}

theorem variantOf_layoutField (ncons : Bool) :
    variantOf (layoutField ncons) = some (if ncons then .ncons else .cons) := by
  cases ncons <;> rfl

theorem exec_beginArray_of_legalForm (hst : s.state ≠ .faulted)
    (hform : legalForm s.params (arrayConfig f) = true) :
    exec (beginArray f) s = .next (respond 0#64 (openSession (arrayConfig f) s)) := by
  rcases f with ⟨ncons, _, _⟩ | ⟨ncons, _, _, _⟩ <;>
    exact execBegin_of_configOf_some hst (configOf_of_legalForm (variantOf_layoutField ncons) hform)

theorem exec_beginArray_of_not_legalForm (hst : s.state ≠ .faulted)
    (hform : ¬ legalForm s.params (arrayConfig f) = true) :
    exec (beginArray f) s = .next (raise .configurationError s) := by
  rcases f with ⟨ncons, _, _⟩ | ⟨ncons, _, _, _⟩ <;>
    exact execBegin_of_configOf_none hst
      (configOf_of_not_legalForm (variantOf_layoutField ncons) hform)

/-- A new session holds the empty array, whatever the memories still list (10_state.md R43). -/
theorem holdsArray_openSession (hp : ParamsLegal s.params)
    (hform : legalForm s.params (arrayConfig f) = true) :
    HoldsArray f (respond 0#64 (openSession (arrayConfig f) s)) [] where
  buffer := ⟨hp, Nat.zero_le _, fun _ hq => absurd hq (Nat.not_lt_zero _), Nat.zero_le _⟩
  config := rfl
  form := hform
  count := rfl
  ends := rfl
  flags := fun _ => rfl
  store := Nat.zero_le _
  elements := nofun

theorem HoldsAt.withStatus {i : Nat} {x : Int} (h : HoldsAt s i x) (st : SessionState) (c : Cause)
    (rs : List Response) :
    HoldsAt { s with state := st, lastCause := c, responses := rs } i x := by
  have hflags := flagsBelow_withStatus s st c s.errSticky s.pending rs i
  cases h with
  | code hfits hfield => exact .code hfits (hfield.congr fun _ _ => rfl)
  | entry hen hpay hfield hindex hget hvalue =>
    exact .entry hen hpay (hfield.congr fun _ _ => rfl) (hflags ▸ hindex) (hflags ▸ hget) hvalue

/-- The array does not depend on STATE, LAST_CAUSE and the responses. -/
theorem HoldsArray.withStatus (h : HoldsArray f s xs) (st : SessionState) (c : Cause)
    (rs : List Response) :
    HoldsArray f { s with state := st, lastCause := c, responses := rs } xs where
  buffer := ⟨h.buffer.params, h.buffer.length, h.buffer.listed, h.buffer.cursor⟩
  config := h.config
  form := h.form
  count := h.count
  ends := h.ends
  flags := fun hen =>
    (flagsBelow_withStatus s st c s.errSticky s.pending rs xs.length).trans (h.flags hen)
  store := h.store
  elements := fun i x hx => (h.elements i x hx).withStatus st c rs

theorem HoldsArray.after_respond (h : HoldsArray f s xs) (d : Word) :
    HoldsArray f (respond d s) xs :=
  h.withStatus s.state _ _

/-! ### The pack commands -/

/-- What a pack command that does not raise does with the element x: it writes its code, or a flag
and a payload with an entry in the overflow store (41_consecutive.md R131, 43_overflow.md R172,
R173). -/
inductive Packs (s : State) (x : Int) : State → Prop
  | code {s1 : State} (hfits : fits s.config.signed x (codeWidth s) = true)
      (hc : packStart s + elemWidth s ≤ capacityBits s.params)
      (hs : putField s (packStart s) (elemWidth s) (fieldOf s.config.signed x (codeWidth s)) =
        .ok s1) :
      Packs s x (respond 0#64 { s1 with count := s1.count + 1#64 })
  | entry {s1 : State} (hen : s.config.ovfEn = true) (hroom : s.ovfCount.toNat < s.params.maxOvf)
      (hpay : overflowPayload s < 2 ^ ksOf s)
      (hc : packStart s + elemWidth s ≤ capacityBits s.params)
      (hs : putField s (packStart s) (elemWidth s) (2 ^ ksOf s + overflowPayload s) = .ok s1) :
      Packs s x (respond 0#64
        { ovfAppend s1 (BitVec.ofNat 64 (pat s.params.nativeW x)) with count := s1.count + 1#64 })

theorem exec_packInstr_plain {ncons signed : Bool} {k : BitVec 7}
    (hconf : s.config = arrayConfig (.plain ncons k signed)) (hst : s.state = .packing) (x : Int) :
    exec (packInstr (.plain ncons k signed) x) s =
      packAt s (packStart s) (elementOperand s.params (operandWord x)) := by
  have hen : s.config.ovfEn = false := by rw [hconf]; rfl
  cases ncons with
  | false =>
    have hvar : s.config.variant = .cons := by rw [hconf]; rfl
    have hplace : packStart s = s.cursor.toNat := by simp [packStart, hvar]
    rw [hplace]
    exact execPackCons_of_legal (legal_packCons.2 ⟨hst, hvar, hen⟩)
  | true =>
    have hvar : s.config.variant = .ncons := by rw [hconf]; rfl
    have hplace : packStart s = nextStart s s.config.k.toNat := by
      simp [packStart, hvar, elemWidth_of_plain hen]
    rw [hplace]
    exact execPackNcons_of_legal (legal_packNcons.2 ⟨hst, hvar, hen⟩)

theorem packs_of_packAt {x : Int} (hen : s.config.ovfEn = false)
    (h : packAt s (packStart s) x = .next t) (hok : t.lastCause = .noError) : Packs s x t := by
  obtain ⟨-, rfl⟩ | ⟨-, -, rfl⟩ | ⟨s1, hfits, hc, hs, rfl⟩ := packAt_cases h
  · cases hok
  · cases hok
  · have hcode := codeWidth_of_plain hen
    have hwidth := elemWidth_of_plain hen
    exact .code (by rwa [hcode]) (by rwa [hwidth]) (by rwa [hwidth, hcode])

theorem packs_of_execPackOvf {a : Word} (hl : legal (.packOvf a) s = true)
    (h : execPackOvf a s = .next t) (hok : t.lastCause = .noError) :
    Packs s (elementOperand s.params a) t := by
  obtain ⟨-, -, hen⟩ := legal_packOvf.1 hl
  have hcode := codeWidth_of_overflow hen
  have hplace := primStart_eq_packStart hen
  have hwidth := elemWidth_of_overflow hen
  obtain ⟨hf, -⟩ | ⟨-, -, rfl⟩ | ⟨-, hc, hfits, hpack⟩ | ⟨-, hc, -, hpack⟩ := execPackOvf_cases h
  · simp [hl] at hf
  · cases hok
  · obtain ⟨s1, hs, rfl⟩ := packFitting_cases hpack
    rw [← hcode] at hfits hs
    rw [hplace, ← hwidth] at hc hs
    exact .code hfits hc hs
  · obtain ⟨-, rfl⟩ | ⟨-, -, rfl⟩ | ⟨s1, hroom, hpay, hs, rfl⟩ := packOverflowing_cases hpack
    · cases hok
    · cases hok
    · rw [hplace, ← hwidth] at hc hs
      exact .entry hen hroom (overflowPayload_lt hpay) hc hs

/-- A pack command of COMPRESS that does not raise packs its element. -/
theorem HoldsArray.packs (h : HoldsArray f s xs) (hst : s.state = .packing) {x : Int}
    (hx : NativeInt s.params x) (hexec : exec (packInstr f x) s = .next t)
    (hok : t.lastCause = .noError) : Packs s x t := by
  rw [← elementOperand_operandWord h.buffer.params hx]
  cases f with
  | plain ncons k signed =>
    rw [exec_packInstr_plain h.config hst] at hexec
    exact packs_of_packAt (by rw [h.config]; rfl) hexec hok
  | overflow ncons compact ks signed =>
    exact packs_of_execPackOvf
      (legal_packOvf.2 ⟨hst, h.variant_ne_raw, by rw [h.config]; rfl⟩) hexec hok

theorem Packs.params {x : Int} (h : Packs s x t) (hp : ParamsLegal s.params) :
    t.params = s.params := by
  cases h with
  | code _ _ hs => exact (putField_params hp hs :)
  | entry _ _ _ _ hs => exact (putField_params hp hs :)

theorem Packs.state {x : Int} (h : Packs s x t) (hp : ParamsLegal s.params) :
    t.state = s.state := by
  cases h with
  | code _ _ hs => exact (putField_state hp hs :)
  | entry _ _ _ _ hs => exact (putField_state hp hs :)

/-- Packing x appends it to the array. -/
theorem HoldsArray.append (h : HoldsArray f s xs) {x : Int} (hx : NativeInt s.params x)
    (hpack : Packs s x t) : HoldsArray f t (xs ++ [x]) := by
  have hp := h.buffer.params
  obtain ⟨hlo, -⟩ := h.elemWidth_bounds
  cases hpack with
  | @code s1 hfits hc hs =>
    have hcode := fieldOf_lt hfits
    have hv := hcode.trans_le (Nat.pow_le_pow_right Nat.two_pos (codeWidth_le_elemWidth s))
    have ha := fieldAppended_of_putField s1.ovf s1.ovfCount h.buffer hlo hv hc hs
    have hcount := putField_ovfCount hp hs
    have hovf := putField_ovf hp hs
    refine ha.holdsArray h hc (fun j _ => congrArg (Memory.get · j) hovf) (fun hen => ?_)
      (hcount ▸ h.store) (ha.holdsAt_code h hfits)
    rw [codeWidth_of_overflow hen] at hcode ⊢
    rw [Nat.testBit_lt_two_pow hcode]
    exact congrArg BitVec.toNat hcount
  | @entry s1 hen hroom hpay hc hs =>
    have ⟨_, _, _, _, _, hmax⟩ := hp
    have hcount := putField_ovfCount hp hs
    have hovf := putField_ovf hp hs
    have hone : (s1.ovfCount + 1#64).toNat = s.ovfCount.toNat + 1 := by
      rw [hcount, toNat_add_one hroom hmax]
    have ha := fieldAppended_of_putField
      (Memory.set s1.ovf s1.ovfCount.toNat (BitVec.ofNat 64 (pat s.params.nativeW x)))
      (s1.ovfCount + 1#64) h.buffer hlo (flagged_lt hen hpay) hc hs
    refine ha.holdsArray h hc (fun j hj => ?_) (fun _ => ?_) (hone.trans_le hroom)
      (ha.holdsAt_entry h hen hpay overflowPayload_of_index ?_ (sext_entry hp hx))
    · rw [← hovf]
      exact Memory.get_set_ne _ _ (by rw [hcount]; omega)
    · rw [testBit_flagged hpay]
      exact hone
    · rw [← hcount]
      exact Memory.get_set_self _ _ _

end Session

end Sys2Proof.Machine
end

section
/-! PROOFS. Whole arrays (45_session_control.md R233 to R235): each unpack command reads its element
back, COMPRESS leaves the array of its values, and DECOMPRESS returns them. -/

namespace Sys2Proof.Machine

section Unpack

variable {f : ArrayForm} {s t : State} {xs : List Int} {i : Nat} {x : Int}

/-! ### The unpack commands -/

theorem indexOperand_ofNat (hi : i < 2 ^ 64) : indexOperand (BitVec.ofNat 64 i) = i := by
  rw [indexOperand, BitVec.toNat_ofNat, Nat.mod_eq_of_lt hi]

theorem exec_unpackInstr_plain {ncons signed : Bool} {k : BitVec 7}
    (hconf : s.config = arrayConfig (.plain ncons k signed)) (hst : s.state = .sealed)
    (hi : i < 2 ^ 64) :
    exec (unpackInstr (.plain ncons k signed) i) s = unpackAt s i (elemAddr s i) := by
  have hen : s.config.ovfEn = false := by rw [hconf]; rfl
  cases ncons with
  | false =>
    have hvar : s.config.variant = .cons := by rw [hconf]; rfl
    have hexec := execUnpackCons_of_legal (a := BitVec.ofNat 64 i)
      (legal_unpackCons.2 ⟨hst, hvar, hen⟩)
    have hplace : elemAddr s i = i * elemWidth s := by simp [elemAddr, hvar]
    rw [indexOperand_ofNat hi, ← elemWidth_of_plain hen, ← hplace] at hexec
    exact hexec
  | true =>
    have hvar : s.config.variant = .ncons := by rw [hconf]; rfl
    have hexec := execUnpackNcons_of_legal (a := BitVec.ofNat 64 i)
      (legal_unpackNcons.2 ⟨hst, hvar, hen⟩)
    have hplace : elemAddr s i = fieldAddrNC s.params.w i (elemWidth s) := by simp [elemAddr, hvar]
    rw [indexOperand_ofNat hi, ← elemWidth_of_plain hen, ← hplace] at hexec
    exact hexec

/-- The overflow position of a flagged element, by its payload in INDEX mode and by the count of the
flags before it in COMPACT mode (43_overflow.md R175, R176). -/
theorem HoldsArray.overflowPosition_eq (h : HoldsArray f s xs) (hen : s.config.ovfEn = true)
    (hi : i < xs.length) {payload : Nat} (hpay : payload < 2 ^ ksOf s)
    (hfield : FieldAt s (primAddr s i) (kpOf s) (2 ^ ksOf s + payload))
    (hindex : s.config.ovfMode = false → payload = flagsBelow s i) :
    overflowPosition s i payload = .ok (flagsBelow s i) := by
  cases hmode : s.config.ovfMode with
  | false => rw [overflowPosition_of_index hmode, hindex hmode]
  | true =>
    refine overflowPosition_of_compact hmode ?_ fun m hm => ?_
    · rw [hfield.head, testBit_flagged hpay]
    · have hx := h.elements m xs[m] (List.getElem?_eq_getElem (hm.trans hi))
      exact elemAddr_of_overflow hen m ▸ hx.readBit h.elemWidth_bounds.1

theorem HoldsArray.execUnpackOvf_eq (h : HoldsArray f s xs) (hen : s.config.ovfEn = true)
    (hst : s.state = .sealed) (hi : i < xs.length) (hx : HoldsAt s i x) {a : Word}
    (ha : indexOperand a = i) : execUnpackOvf a s = .next (respond (elementData x) s) := by
  subst ha
  have hl : legal (.unpackOvf a) s = true := legal_unpackOvf.2 ⟨hst, h.variant_ne_raw, hen⟩
  have hcount := h.count ▸ hi
  have hc := h.elemAddr_add_le_cursor hi
  rw [elemAddr_of_overflow hen, elemWidth_of_overflow hen] at hc
  cases hx with
  | code hfits hfield =>
    rw [elemAddr_of_overflow hen, elemWidth_of_overflow hen] at hfield
    rw [codeWidth_of_overflow hen] at hfits hfield
    rw [execUnpackOvf_of_fieldAt hl hcount hc hfield, unpackPrimary_of_unflagged (fieldOf_lt hfits),
      elementOf_fieldOf hfits]
  | entry _ hpay hfield hindex hget hvalue =>
    rw [elemAddr_of_overflow hen, elemWidth_of_overflow hen] at hfield
    have hlt : flagsBelow s (indexOperand a) < s.ovfCount.toNat := by
      rw [← h.flags hen]
      exact flagsBelow_lt hi (by rw [hfield.flagBit, testBit_flagged hpay])
    rw [execUnpackOvf_of_entry hl hcount hc hpay hfield
      (h.overflowPosition_eq hen hi hpay hfield hindex) hlt (hlt.trans_le h.store) hget, hvalue]

/-- UNPACK i of a sealed array returns element i (45_session_control.md R235). -/
theorem HoldsArray.exec_unpackInstr (h : HoldsArray f s xs) (hst : s.state = .sealed)
    (hx : xs[i]? = some x) : exec (unpackInstr f i) s = .next (respond (elementData x) s) := by
  obtain ⟨hi, -⟩ := List.getElem?_eq_some_iff.1 hx
  have hi64 : i < 2 ^ 64 := hi.trans (h.count ▸ s.count.isLt)
  have hat := h.elements i x hx
  cases f with
  | plain ncons k signed =>
    have hen : s.config.ovfEn = false := by rw [h.config]; rfl
    have hc := h.elemAddr_add_le_cursor hi
    rw [elemWidth_of_plain hen] at hc
    rw [exec_unpackInstr_plain h.config hst hi64]
    cases hat with
    | code hfits hfield =>
      rw [elemWidth_of_plain hen] at hfield
      rw [codeWidth_of_plain hen] at hfits hfield
      rw [unpackAt_of_fieldAt (h.count ▸ hi) hc hfield, elementOf_fieldOf hfits]
    | entry hovf => simp [hen] at hovf
  | overflow ncons compact ks signed =>
    exact h.execUnpackOvf_eq (by rw [h.config]; rfl) hst hi hat (indexOperand_ofNat hi64)

/-! ### COMPRESS -/

theorem HoldsArray.append_all (h : HoldsArray f s xs) (hst : s.state = .packing) {ys : List Int}
    (hys : ∀ y ∈ ys, NativeInt s.params y) (hrun : Succeeds (ys.map (packInstr f)) s t) :
    HoldsArray f t (xs ++ ys) ∧ t.state = .packing := by
  induction ys generalizing s xs with
  | nil =>
    obtain rfl : t = s := hrun
    exact ⟨by rwa [List.append_nil], hst⟩
  | cons y ys ih =>
    obtain ⟨s1, hexec, hok, hrun⟩ := hrun
    have hy := hys y List.mem_cons_self
    have hpack := h.packs hst hy hexec hok
    have hparams := hpack.params h.buffer.params
    rw [List.append_cons]
    refine ih (h.append hy hpack) ((hpack.state h.buffer.params).trans hst) (fun z hz => ?_) hrun
    exact hparams ▸ hys z (List.mem_cons_of_mem y hz)

/-- COMPRESS without a raise leaves a sealed array of its values (45_session_control.md R234). -/
theorem holdsArray_of_compress (hp : ParamsLegal s.params) (hst : s.state ≠ .faulted)
    {values : List Int} (hvalues : ∀ x ∈ values, NativeInt s.params x)
    (hrun : Succeeds (compressSeq f values) s t) : HoldsArray f t values ∧ t.state = .sealed := by
  obtain ⟨u, ⟨s1, hbegin, hok, hpacks⟩, hend⟩ := succeeds_append.1 hrun
  obtain ⟨hend, -⟩ := succeeds_singleton.1 hend
  have hform : legalForm s.params (arrayConfig f) = true := by
    by_contra hform
    rw [exec_beginArray_of_not_legalForm hst hform] at hbegin
    cases hbegin
    cases hok
  rw [exec_beginArray_of_legalForm hst hform] at hbegin
  cases hbegin
  obtain ⟨hu, hpacking⟩ := (holdsArray_openSession hp hform).append_all rfl hvalues hpacks
  have hend : execEnd u = .next t := hend
  rw [execEnd_of_packing hpacking] at hend
  cases hend
  exact ⟨hu.withStatus _ _ _, rfl⟩

theorem returnsNothing_of_mem_compressSeq {values : List Int} {j : Instr}
    (hj : j ∈ compressSeq f values) : Claims.returnsNothing j = true := by
  obtain rfl | ⟨x, -, rfl⟩ | rfl :
      j = beginArray f ∨ (∃ x ∈ values, packInstr f x = j) ∨ j = .endSession := by
    simpa [compressSeq] using hj
  · cases f <;> rfl
  · rcases f with ⟨_ | _, _, _⟩ | _ <;> rfl
  · rfl

/-! ### Room for every element -/

section Plain

variable {ncons signed : Bool} {k : BitVec 7}

theorem HoldsArray.exists_pack (h : HoldsArray (.plain ncons k signed) s xs)
    (hst : s.state = .packing) (hx : NativeInt s.params x) (hfits : fits signed x k.toNat = true)
    (hroom : elemEnd s (xs.length + 1) ≤ capacityBits s.params) :
    ∃ t, exec (packInstr (.plain ncons k signed) x) s = .next t ∧ t.lastCause = .noError := by
  have hen : s.config.ovfEn = false := by rw [h.config]; rfl
  have hlo := h.elemWidth_bounds.1
  have hc : packStart s + elemWidth s ≤ capacityBits s.params := h.packStart_eq ▸ hroom
  rw [elemWidth_of_plain hen] at hlo hc
  have hfits' : fits s.config.signed x s.config.k.toNat = true := by rw [h.config]; exact hfits
  obtain ⟨t, hpack, -, -, hframe⟩ :=
    packAt_appends h.buffer hlo hfits' h.buffer.packStart_le hc
  refine ⟨t, ?_, congrArg State.lastCause hframe⟩
  rw [exec_packInstr_plain h.config hst, elementOperand_operandWord h.buffer.params hx, hpack]

theorem HoldsArray.exists_append_all (h : HoldsArray (.plain ncons k signed) s xs)
    (hst : s.state = .packing) {ys : List Int}
    (hys : ∀ y ∈ ys, NativeInt s.params y ∧ fits signed y k.toNat = true)
    (hroom : elemEnd s (xs.length + ys.length) ≤ capacityBits s.params) :
    ∃ t, Succeeds (ys.map (packInstr (.plain ncons k signed))) s t := by
  induction ys generalizing s xs with
  | nil => exact ⟨s, rfl⟩
  | cons y ys ih =>
    obtain ⟨hlo, hhi⟩ := h.elemWidth_bounds
    obtain ⟨hy, hfits⟩ := hys y List.mem_cons_self
    have hroom1 : elemEnd s (xs.length + 1) ≤ capacityBits s.params :=
      (elemAddr_add_le_elemEnd hlo hhi (by simp)).trans hroom
    obtain ⟨s1, hexec, hok⟩ := h.exists_pack hst hy hfits hroom1
    have hpack := h.packs hst hy hexec hok
    have hparams := hpack.params h.buffer.params
    have h1 := h.append hy hpack
    have hroom' : elemEnd s1 ((xs ++ [y]).length + ys.length) ≤ capacityBits s1.params := by
      rw [elemEnd_congr hparams (h1.config.trans h.config.symm), hparams]
      simpa [Nat.add_assoc, Nat.add_comm 1] using hroom
    obtain ⟨t, hrun⟩ := ih h1 ((hpack.state h.buffer.params).trans hst)
      (fun z hz => hparams ▸ hys z (List.mem_cons_of_mem y hz)) hroom'
    exact ⟨t, s1, hexec, hok, hrun⟩

/-- COMPRESS of fitting values within capacity runs without a raise (45_session_control.md R234). -/
theorem exists_succeeds_compressSeq (hp : ParamsLegal s.params) (hst : s.state ≠ .faulted)
    (hform : legalForm s.params (arrayConfig (.plain ncons k signed)) = true) {values : List Int}
    (hnative : ∀ x ∈ values, NativeInt s.params x)
    (hfits : ∀ x ∈ values, fits signed x k.toNat = true)
    (hroom : elemEnd (respond 0#64 (openSession (arrayConfig (.plain ncons k signed)) s))
      values.length ≤ capacityBits s.params) :
    ∃ t, Succeeds (compressSeq (.plain ncons k signed) values) s t := by
  have hopen := holdsArray_openSession hp hform
  obtain ⟨u, hpacks⟩ := hopen.exists_append_all rfl (fun x hx => ⟨hnative x hx, hfits x hx⟩)
    (by rwa [List.length_nil, Nat.zero_add])
  obtain ⟨-, hpacking⟩ := hopen.append_all rfl hnative hpacks
  exact ⟨_, succeeds_append.2 ⟨u, ⟨_, exec_beginArray_of_legalForm hst hform, rfl, hpacks⟩,
    succeeds_singleton.2 ⟨execEnd_of_packing hpacking, rfl⟩⟩⟩

end Plain

/-- An NCONS array of n elements needs ceil(n / epw) words (42_non_consecutive.md R154). -/
theorem elemEnd_le_of_ncons (hlo : 1 ≤ elemWidth s) (hhi : elemWidth s ≤ s.params.w)
    (hv : s.config.variant = .ncons) {n m : Nat}
    (hn : ceilDiv n (s.params.w / elemWidth s) ≤ m) : elemEnd s n ≤ m * s.params.w := by
  rcases Nat.eq_zero_or_pos n with rfl | hpos
  · exact Nat.zero_le _
  · have hend := le_ceilDiv_mul (hlo.trans hhi) (elemEnd s n)
    rw [ceilDiv_elemEnd_of_ncons hlo hhi hv hpos] at hend
    exact hend.trans (Nat.mul_le_mul_right _ hn)

/-! ### DECOMPRESS -/

theorem exec_readCount (s : State) : exec readCount s = .next (respond s.count s) := rfl

/-- DECOMPRESS of a sealed array returns N and then the elements in order (45_session_control.md
R233). -/
theorem HoldsArray.decompress_responds (h : HoldsArray f s xs) (hst : s.state = .sealed) :
    ∃ u, decompress f s = .next u ∧
      u.responses = (xs.map elementData).reverse.map (fun d => { cause := .noError, data := d }) ++
        { cause := .noError, data := s.count } :: s.responses := by
  have hreads : List.Forall₂ (fun i d => ∀ u, HoldsArray f u xs ∧ u.state = .sealed →
      exec i u = .next (respond d u)) (unpackSeq f xs.length) (xs.map elementData) := by
    rw [unpackSeq, List.forall₂_map_left_iff, List.forall₂_map_right_iff, List.forall₂_iff_get]
    refine ⟨List.length_range, fun i _ hi u ⟨hu, hsealed⟩ => ?_⟩
    rw [List.get_eq_getElem, List.get_eq_getElem, List.getElem_range]
    exact hu.exec_unpackInstr hsealed (List.getElem?_eq_getElem hi)
  obtain ⟨u, hrun, hresp⟩ := runSeq_of_responds
    (fun d _ ⟨hu, hsealed⟩ => ⟨hu.after_respond d, hsealed⟩) hreads
    (s := respond s.count s) ⟨h.after_respond _, hst⟩
  refine ⟨u, ?_, hresp⟩
  unfold decompress
  rw [exec_readCount, ← hrun, ← h.count]
  rfl

end Unpack

end Sys2Proof.Machine

namespace Sys2Proof.Claims

open Sys2Proof Sys2Proof.Machine

theorem legalForm_plain {p : Params} {ncons signed : Bool} {k : BitVec 7} (hlo : 1 ≤ k.toNat)
    (hhi : k.toNat ≤ p.w) : legalForm p (arrayConfig (.plain ncons k signed)) = true :=
  (legalForm_of_array (arrayConfig_variant_ne_raw (.plain ncons k signed))).2
    (.inl ⟨rfl, rfl, hlo, hhi, rfl⟩)

/-- Settles O57: in range and within capacity no pack command raises, so COMPRESS succeeds, and what
it leaves is the sealed array of the values. -/
theorem compressOfFittingValuesSeals : Obligations.CompressOfFittingValuesSeals := by
  intro ncons signed k values s hp hst hlo hhi hvalues hcons hncons
  have hnative : ∀ x ∈ values, NativeInt s.params x := fun x hx => (hvalues x hx).2
  have hfits : ∀ x ∈ values, fits signed x k.toNat = true := fun x hx =>
    fits_iff_inRange.2 (hvalues x hx).1
  have hroom : elemEnd (respond 0#64 (openSession (arrayConfig (.plain ncons k signed)) s))
      values.length ≤ capacityBits s.params := by
    cases ncons with
    | false => exact (elemEnd_of_cons rfl _).trans_le (hcons rfl)
    | true =>
      exact elemEnd_le_of_ncons
        (s := respond 0#64 (openSession (arrayConfig (.plain true k signed)) s)) hlo hhi rfl
        (hncons rfl)
  obtain ⟨t, hrun⟩ :=
    exists_succeeds_compressSeq hp hst (legalForm_plain hlo hhi) hnative hfits hroom
  obtain ⟨hheld, hsealed⟩ := holdsArray_of_compress hp hst hnative hrun
  refine ⟨t, hrun.runSeq, hsealed, hheld.count, ?_⟩
  rw [hrun.responses fun _ => returnsNothing_of_mem_compressSeq]
  simp [compressSeq]

/-- Settles O58: without a raise COMPRESS leaves the sealed array of the values, each of which its
unpack command returns. -/
theorem compressThenDecompressReturnsValues : Obligations.CompressThenDecompressReturnsValues := by
  intro f values s t hp hst hvalues hrun hok
  have hlen : (compressSeq f values).length = values.length + 2 := by simp [compressSeq]
  obtain ⟨hheld, hsealed⟩ :=
    holdsArray_of_compress hp hst hvalues (succeeds_of_runSeq hrun (hlen ▸ hok))
  refine ⟨?_, fun i x hx => elementData_eq_ofInt x ▸ hheld.exec_unpackInstr hsealed hx⟩
  obtain ⟨u, hu, hresp⟩ := hheld.decompress_responds hsealed
  have hcount : t.count = BitVec.ofNat 64 values.length := by
    rw [← hheld.count, BitVec.ofNat_toNat, BitVec.setWidth_eq]
  refine ⟨u, hu, ?_⟩
  rw [hresp, hcount]
  simp [elementData_eq_ofInt, Function.comp_def]

end Sys2Proof.Claims
end

section
/-! PROOFS. Errors (60_exceptions.md R250 to R257): the effects of a raise, the causes each command can
end with, and the STATEs they come from and lead to. -/

namespace Sys2Proof.Machine

/-! ### A command that ends with an error -/

/-- Of the ends of a command the raise alone gives an error, and it has the effects of a raise. -/
theorem Ends.raised_of_error {s t : State} (h : Ends s (.next t)) (hc : t.lastCause ≠ .noError) :
    Raised t.lastCause s t := by
  cases h with
  | raised => exact raise_raised _ s
  | responded => exact absurd rfl hc

theorem Raised.state {c : Cause} {s t : State} (h : Raised c s t) :
    t.state = abortedBy c s.state := by
  rw [h.frame]

/-! ### The causes of the shared operations -/

section Causes

variable {s t : State} {x : Int}

theorem packAt_lastCause {start : Nat} (h : packAt s start x = .next t) :
    t.lastCause = .noError ∨ t.lastCause = .rangeError ∨ t.lastCause = .capacityError := by
  obtain ⟨-, rfl⟩ | ⟨-, -, rfl⟩ | ⟨s1, -, -, -, rfl⟩ := packAt_cases h <;> simp

theorem packOverflowing_lastCause (h : packOverflowing s x = .next t) :
    t.lastCause = .noError ∨ t.lastCause = .capacityError := by
  obtain ⟨-, rfl⟩ | ⟨-, -, rfl⟩ | ⟨s1, -, -, -, rfl⟩ := packOverflowing_cases h <;> simp

theorem unpackAt_lastCause {i start : Nat} (h : unpackAt s i start = .next t) :
    t.lastCause = .noError ∨ t.lastCause = .indexError ∨ t.lastCause = .consistencyError := by
  obtain ⟨-, rfl⟩ | ⟨-, -, rfl⟩ | ⟨u, -, -, -, rfl⟩ := unpackAt_cases h <;> simp

theorem unpackPrimary_lastCause {i f : Nat} (h : unpackPrimary s i f = .next t) :
    t.lastCause = .noError ∨ t.lastCause = .consistencyError := by
  obtain ⟨-, rfl⟩ | ⟨j, -, -, hentry⟩ := unpackPrimary_cases h
  · simp
  · obtain ⟨-, rfl⟩ | ⟨e, -, -, rfl⟩ := unpackEntry_cases hentry <;> simp

end Causes

/-! ### Legality in ABORTED and FAULTED -/

section Stopped

variable {i : Instr} {s t : State}

/-- In ABORTED only BEGIN and RDREG are legal (45_session_control.md R220). -/
theorem illegal_of_aborted (hst : s.state = .aborted) (hbegin : Claims.isBegin i = false)
    (hrdreg : Claims.isRdreg i = false) : legal i s = false := by
  cases i with
  | beginSession => cases hbegin
  | rdreg => cases hrdreg
  | _ => simp [legal, hst]

/-- In FAULTED only RDREG is legal (45_session_control.md R220). -/
theorem illegal_of_faulted (hst : s.state = .faulted) (hrdreg : Claims.isRdreg i = false) :
    legal i s = false := by
  cases i with
  | rdreg => cases hrdreg
  | _ => simp [legal, hst]

theorem exec_keeps_faulted (hst : s.state = .faulted) (h : exec i s = .next t) :
    t.state = .faulted := by
  cases hrdreg : Claims.isRdreg i with
  | false =>
    rw [exec_of_illegal (illegal_of_faulted hst hrdreg)] at h
    cases h
    exact hst
  | true =>
    cases i with
    | rdreg => obtain ⟨-, rfl⟩ | ⟨d, -, rfl⟩ := execRdreg_cases h <;> exact hst
    | _ => cases hrdreg

theorem runCommand_keeps_faulted {c : Header} {a : Word} (hst : s.state = .faulted)
    (h : runCommand c a s = .next t) : t.state = .faulted := by
  cases hd : decode c a with
  | error e =>
    rw [runCommand_of_error hd] at h
    cases h
    exact hst
  | ok i =>
    rw [runCommand_of_ok hd] at h
    exact exec_keeps_faulted hst h

/-- A command that ends with another cause than StateError was legal. -/
theorem legal_of_ne_stateError (h : exec i s = .next t) (hc : t.lastCause ≠ .stateError) :
    legal i s = true := by
  cases hl : legal i s with
  | true => rfl
  | false =>
    rw [exec_of_illegal hl] at h
    cases h
    exact absurd rfl hc

end Stopped

end Sys2Proof.Machine

namespace Sys2Proof.Claims

open Sys2Proof Sys2Proof.Machine

section Causes

variable {i : Instr} {s t : State}

/-- Every command ends with a cause of its list: StateError where it is illegal, and the causes of its
own checks (60_exceptions.md R250, R252). -/
theorem exec_lastCause (h : exec i s = .next t) : t.lastCause ∈ causesOf i := by
  cases i with
  | beginSession =>
    obtain ⟨-, rfl⟩ | ⟨-, -, rfl⟩ | ⟨c, -, -, rfl⟩ := execBegin_cases h <;> simp [causesOf]
  | writeBits =>
    obtain ⟨-, rfl⟩ | ⟨-, -, rfl⟩ | ⟨-, -, -, rfl⟩ | ⟨s1, -, -, -, -, rfl⟩ :=
      execWriteBits_cases h <;> simp [causesOf]
  | readBits =>
    obtain ⟨-, rfl⟩ | ⟨-, -, rfl⟩ | ⟨-, -, -, rfl⟩ | ⟨u, -, -, -, -, rfl⟩ :=
      execReadBits_cases h <;> simp [causesOf]
  | packCons =>
    obtain ⟨-, rfl⟩ | ⟨-, hpack⟩ := execPackCons_cases h
    · simp [causesOf]
    · rcases packAt_lastCause hpack with hc | hc | hc <;> simp [causesOf, hc]
  | packNcons =>
    obtain ⟨-, rfl⟩ | ⟨-, hpack⟩ := execPackNcons_cases h
    · simp [causesOf]
    · rcases packAt_lastCause hpack with hc | hc | hc <;> simp [causesOf, hc]
  | packOvf =>
    obtain ⟨-, rfl⟩ | ⟨-, -, rfl⟩ | ⟨-, -, -, hpack⟩ | ⟨-, -, -, hpack⟩ := execPackOvf_cases h
    · simp [causesOf]
    · simp [causesOf]
    · obtain ⟨s1, -, rfl⟩ := packFitting_cases hpack
      simp [causesOf]
    · rcases packOverflowing_lastCause hpack with hc | hc <;> simp [causesOf, hc]
  | endSession => obtain ⟨-, rfl⟩ | ⟨-, rfl⟩ := execEnd_cases h <;> simp [causesOf]
  | unpackCons =>
    obtain ⟨-, rfl⟩ | ⟨-, hread⟩ := execUnpackCons_cases h
    · simp [causesOf]
    · rcases unpackAt_lastCause hread with hc | hc | hc <;> simp [causesOf, hc]
  | unpackNcons =>
    obtain ⟨-, rfl⟩ | ⟨-, hread⟩ := execUnpackNcons_cases h
    · simp [causesOf]
    · rcases unpackAt_lastCause hread with hc | hc | hc <;> simp [causesOf, hc]
  | unpackOvf =>
    obtain ⟨-, rfl⟩ | ⟨-, -, rfl⟩ | ⟨-, -, -, rfl⟩ | ⟨f, -, -, -, -, hread⟩ := execUnpackOvf_cases h
    · simp [causesOf]
    · simp [causesOf]
    · simp [causesOf]
    · rcases unpackPrimary_lastCause hread with hc | hc <;> simp [causesOf, hc]
  | rdreg => obtain ⟨-, rfl⟩ | ⟨d, -, rfl⟩ := execRdreg_cases h <;> simp [causesOf]

/-- RangeError and CapacityError stand in the lists of the writing commands alone. -/
theorem isWrite_of_mem_causesOf {c : Cause} (hc : c = .rangeError ∨ c = .capacityError)
    (h : c ∈ causesOf i) : isWrite i = true := by
  cases i with
  | writeBits | packCons | packNcons | packOvf => rfl
  | _ => rcases hc with rfl | rfl <;> simp [causesOf] at h

theorem packing_of_legal_write (hi : isWrite i = true) (hl : legal i s = true) :
    s.state = .packing := by
  cases i with
  | writeBits => exact (legal_writeBits.1 hl).1
  | packCons => exact (legal_packCons.1 hl).1
  | packNcons => exact (legal_packNcons.1 hl).1
  | packOvf => exact (legal_packOvf.1 hl).1
  | _ => cases hi

/-- ConsistencyError stands in the lists of the unpack commands alone, which are legal in SEALED
alone. -/
theorem sealed_of_mem_causesOf (h : .consistencyError ∈ causesOf i) (hl : legal i s = true) :
    s.state = .sealed := by
  cases i with
  | unpackCons => exact (legal_unpackCons.1 hl).1
  | unpackNcons => exact (legal_unpackNcons.1 hl).1
  | unpackOvf => exact (legal_unpackOvf.1 hl).1
  | _ => simp [causesOf] at h

end Causes

/-! ### The statements of 60_exceptions.md -/

/-- Settles O7: the step's own case of a port with no action. -/
theorem stepWithoutActionHoldsState : Obligations.StepWithoutActionHoldsState := fun _ hp hpend =>
  step_of_idle hp hpend

/-- Settles O12: a command that ends with an error ends in a raise of the state it found. -/
theorem errorHasOnlyItsEffects : Obligations.ErrorHasOnlyItsEffects := by
  intro i s t h hc
  have hends : Ends s (.next t) := h ▸ exec_ends i s
  exact hends.raised_of_error hc

/-- Settles O13, by the ends of each command. -/
theorem commandsEndWithTheirCauses : Obligations.CommandsEndWithTheirCauses := fun _ _ _ h =>
  exec_lastCause h

/-- Settles O16: the two causes stand in the lists of the writing commands alone, which are legal in
PACKING alone; in ABORTED the check of STATE stops every command but BEGIN and RDREG. -/
theorem abortOnlyFromPacking : Obligations.AbortOnlyFromPacking := by
  refine ⟨fun i s t h hc => ?_, fun i s hst hbegin hrdreg =>
    .of_eq (exec_of_illegal (illegal_of_aborted hst hbegin hrdreg))⟩
  have hwrite : isWrite i = true := isWrite_of_mem_causesOf hc (exec_lastCause h)
  have hl : legal i s = true := legal_of_ne_stateError h (by rcases hc with hc | hc <;> simp [hc])
  have hraised : Raised t.lastCause s t :=
    errorHasOnlyItsEffects i s t h (by rcases hc with hc | hc <;> simp [hc])
  exact ⟨packing_of_legal_write hwrite hl, hwrite, hraised.state.trans (if_pos hc), hraised⟩

/-- Settles O17: ConsistencyError ends a legal unpack command alone; in FAULTED a command is a raise of
StateError or IllegalCommand, or an RDREG. -/
theorem faultedOnlyFromSealedUntilReset : Obligations.FaultedOnlyFromSealedUntilReset := by
  refine ⟨fun i s t h hc => ?_, fun s t c a rest hst hpend hstep => ?_,
    fun s t rest hpend hstep => ?_⟩
  · have hl : legal i s = true := legal_of_ne_stateError h (by simp [hc])
    have hraised : Raised t.lastCause s t := errorHasOnlyItsEffects i s t h (by simp [hc])
    refine ⟨sealed_of_mem_causesOf (hc ▸ exec_lastCause h) hl, ?_⟩
    rw [hraised.state, hc]
    rfl
  · obtain ⟨hp, -⟩ := step_cases hstep
    rw [step_of_command hp hpend] at hstep
    exact runCommand_keeps_faulted (s := { s with pending := rest }) hst hstep
  · obtain ⟨hp, -⟩ := step_cases hstep
    rw [step_of_reset hp hpend] at hstep
    cases hstep
    exact resetBlock_state _

end Sys2Proof.Claims
end

section
/-! PROOFS. ConsistencyError (60_exceptions.md R257): the unpack of a field past CURSOR or of an entry
past OVF_COUNT raises it, and in a state of the invariant, where every command completes, none does. -/

namespace Sys2Proof.Machine

/-! ### The consistency checks of the unpack commands -/

section Consistency

variable {a : Word} {s : State}

theorem unpackAt_of_past_cursor {i start : Nat} (hi : i < s.count.toNat)
    (hc : s.cursor.toNat < start + s.config.k.toNat) :
    unpackAt s i start = .next (raise .consistencyError s) := by
  simp [unpackAt, Nat.not_le.2 hi, hc]

theorem execUnpackOvf_of_past_cursor (hl : legal (.unpackOvf a) s = true)
    (hi : indexOperand a < s.count.toNat)
    (hc : s.cursor.toNat < primAddr s (indexOperand a) + kpOf s) :
    execUnpackOvf a s = .next (raise .consistencyError s) := by
  simp [execUnpackOvf, hl, Nat.not_le.2 hi, hc]

theorem unpackEntry_of_past_store {j : Nat} (hj : s.ovfCount.toNat ≤ j) :
    unpackEntry s j = .next (raise .consistencyError s) := if_pos hj

/-- UNPACK_OVF of a flagged element whose position is at or past OVF_COUNT (10_state.md R37). -/
theorem execUnpackOvf_of_past_store {payload j : Nat} (hl : legal (.unpackOvf a) s = true)
    (hi : indexOperand a < s.count.toNat)
    (hc : primAddr s (indexOperand a) + kpOf s ≤ s.cursor.toNat) (hpay : payload < 2 ^ ksOf s)
    (hf : FieldAt s (primAddr s (indexOperand a)) (kpOf s) (2 ^ ksOf s + payload))
    (hpos : overflowPosition s (indexOperand a) payload = .ok j) (hj : s.ovfCount.toNat ≤ j) :
    execUnpackOvf a s = .next (raise .consistencyError s) := by
  rw [execUnpackOvf_of_fieldAt hl hi hc hf, unpackPrimary_of_flagged hpay hpos,
    unpackEntry_of_past_store hj]

end Consistency

/-! ### Commands that complete -/

/-- The meaning answers a next state: it neither faults nor is refused. -/
def Completes (o : Host.Outcome State Fault Refusal) : Prop := ∃ t, o = .next t

/-- A check that fails raises its cause; the rest has to complete only where the check passes
(60_exceptions.md R252). -/
theorem Completes.check {s : State} {o : Host.Outcome State Fault Refusal} {b : Prop} [Decidable b]
    {c : Cause} (ho : ¬ b → Completes o) : Completes (if b then .next (raise c s) else o) := by
  split
  · exact ⟨_, rfl⟩
  · exact ho ‹_›

theorem execBegin_completes (width ksmall : BitVec 7) (variant : BitVec 2)
    (signed ovfEn ovfMode : Bool) (s : State) :
    Completes (execBegin width ksmall variant signed ovfEn ovfMode s) := by
  unfold execBegin
  refine .check fun _ => ?_
  split <;> exact ⟨_, rfl⟩

theorem execRdreg_completes (r : BitVec 4) (s : State) : Completes (execRdreg r s) := by
  unfold execRdreg
  split <;> exact ⟨_, rfl⟩

section Invariant

variable {s : State}

/-- Every bit below CURSOR lies in an allocated word, which holds a value (10_state.md R34). -/
theorem BlockInv.readBit_ok (h : BlockInv s) {p : Nat} (hp : p < s.cursor.toNat) :
    ∃ b, readBit s p = .ok b := by
  have hword : wordOf s.params p < s.lenWords.toNat :=
    div_lt_of_lt_mul (Nat.lt_of_lt_of_le hp h.cursor_le)
  obtain ⟨x, hx⟩ := Option.isSome_iff_exists.1 (h.listed _ hword)
  exact ⟨_, readBit_of_get (Nat.lt_of_lt_of_le hword h.lenWords_le) hx⟩

theorem BlockInv.memRead_ok (h : BlockInv s) {p n : Nat} (hc : p + n ≤ s.cursor.toNat) :
    ∃ u, memRead s p n = .ok u :=
  Machine.memRead_ok fun j hj => h.readBit_ok (by omega)

theorem BlockInv.execWriteBits_completes (h : BlockInv s) (width : BitVec 7) (a : Word) :
    Completes (execWriteBits width a s) := by
  unfold execWriteBits
  refine .check fun _ => .check fun _ => .check fun hc => ?_
  obtain ⟨s1, hs⟩ := putField_ok (valueOperand width a) h.params (Nat.le_of_not_lt hc) h.listed
  exact ⟨_, by rw [hs]⟩

theorem BlockInv.execReadBits_completes (h : BlockInv s) (width : BitVec 7) (a : Word) :
    Completes (execReadBits width a s) := by
  unfold execReadBits
  refine .check fun _ => .check fun _ => .check fun hc => ?_
  obtain ⟨u, hu⟩ := h.memRead_ok (Nat.le_of_not_lt hc)
  exact ⟨_, by rw [hu]⟩

theorem BlockInv.packAt_completes (h : BlockInv s) (start : Nat) (x : Int) :
    Completes (packAt s start x) := by
  unfold packAt
  refine .check fun _ => .check fun hc => ?_
  obtain ⟨s1, hs⟩ := putField_ok (fieldOf s.config.signed x s.config.k.toNat) h.params
    (Nat.le_of_not_lt hc) h.listed
  exact ⟨_, by rw [hs]⟩

theorem BlockInv.packFitting_completes (h : BlockInv s) (x : Int)
    (hc : primStart s + kpOf s ≤ capacityBits s.params) : Completes (packFitting s x) := by
  obtain ⟨s1, hs⟩ := putField_ok (fieldOf s.config.signed x (ksOf s)) h.params hc h.listed
  exact ⟨_, packFitting_of_putField hs⟩

theorem BlockInv.packOverflowing_completes (h : BlockInv s) (x : Int)
    (hc : primStart s + kpOf s ≤ capacityBits s.params) : Completes (packOverflowing s x) := by
  unfold packOverflowing
  refine .check fun _ => .check fun _ => ?_
  obtain ⟨s1, hs⟩ := putField_ok (2 ^ ksOf s + overflowPayload s) h.params hc h.listed
  exact ⟨_, by rw [hs]⟩

theorem BlockInv.execPackOvf_completes (h : BlockInv s) (a : Word) :
    Completes (execPackOvf a s) := by
  unfold execPackOvf
  refine .check fun _ => .check fun hc => ?_
  split
  · exact h.packFitting_completes _ (Nat.le_of_not_lt hc)
  · exact h.packOverflowing_completes _ (Nat.le_of_not_lt hc)

theorem BlockInv.unpackAt_completes (h : BlockInv s) (i start : Nat) :
    Completes (unpackAt s i start) := by
  unfold unpackAt
  refine .check fun _ => .check fun hc => ?_
  obtain ⟨u, hu⟩ := h.memRead_ok (Nat.le_of_not_lt hc)
  exact ⟨_, by rw [hu]⟩

/-- Every entry below OVF_COUNT exists and holds a value (10_state.md R35, R37). -/
theorem BlockInv.unpackEntry_completes (h : BlockInv s) (j : Nat) :
    Completes (unpackEntry s j) := by
  obtain hj | hj := Nat.lt_or_ge j s.ovfCount.toNat
  · obtain ⟨e, he⟩ := Option.isSome_iff_exists.1 (h.ovfListed j hj)
    exact ⟨_, unpackEntry_of_get hj (Nat.lt_of_lt_of_le hj h.ovfCapacity) he⟩
  · exact ⟨_, unpackEntry_of_past_store hj⟩

/-- The flags that COMPACT mode counts all stand below CURSOR (43_overflow.md R176). -/
theorem Inv.overflowPosition_ok (h : Inv s) (hs : Claims.SealedOverflow s) {i : Nat}
    (hi : i < s.count.toNat) (payload : Nat) : ∃ j, overflowPosition s i payload = .ok j := by
  obtain ⟨hst, hvar, hen⟩ := hs
  cases hmode : s.config.ovfMode with
  | false => exact ⟨payload, overflowPosition_of_index hmode⟩
  | true =>
    have hread : ∀ m, m ≤ i → ∃ b, readBit s (primAddr s m) = .ok b := by
      intro m hm
      have hend := h.elemAddr_add_le_cursor (by simp [hst]) hvar (Nat.lt_of_le_of_lt hm hi)
      rw [elemAddr_of_overflow hen, elemWidth_of_overflow hen, kpOf] at hend
      exact h.block.readBit_ok (by omega)
    exact ⟨_, by rw [overflowPosition, if_pos hmode, ovfPosCompact, flagSum_of_readBit hread]⟩

theorem Inv.unpackPrimary_completes (h : Inv s) (hs : Claims.SealedOverflow s) {i : Nat}
    (hi : i < s.count.toNat) (f : Nat) : Completes (unpackPrimary s i f) := by
  unfold unpackPrimary
  split
  · obtain ⟨j, hj⟩ := h.overflowPosition_ok hs hi (f % 2 ^ ksOf s)
    rw [hj]
    exact h.block.unpackEntry_completes j
  · exact ⟨_, rfl⟩

theorem Inv.execUnpackOvf_completes (h : Inv s) (a : Word) : Completes (execUnpackOvf a s) := by
  unfold execUnpackOvf
  refine .check fun hl => .check fun hi => .check fun hc => ?_
  obtain ⟨f, hf⟩ := h.block.memRead_ok (Nat.le_of_not_lt hc)
  rw [hf]
  exact h.unpackPrimary_completes (legal_unpackOvf.1 (by simpa using hl)) (Nat.lt_of_not_le hi) f

/-- In a state of the invariant every instruction completes (70_reset_and_hazards.md R286). -/
theorem Inv.exec_completes (h : Inv s) (i : Instr) : Completes (exec i s) := by
  cases i with
  | beginSession width ksmall variant signed ovfEn ovfMode =>
    exact execBegin_completes width ksmall variant signed ovfEn ovfMode s
  | writeBits width value => exact h.block.execWriteBits_completes width value
  | readBits width offset => exact h.block.execReadBits_completes width offset
  | packCons element => exact .check fun _ => h.block.packAt_completes _ _
  | packNcons element => exact .check fun _ => h.block.packAt_completes _ _
  | packOvf element => exact h.block.execPackOvf_completes element
  | endSession => exact .check fun _ => ⟨_, rfl⟩
  | unpackCons index => exact .check fun _ => h.block.unpackAt_completes _ _
  | unpackNcons index => exact .check fun _ => h.block.unpackAt_completes _ _
  | unpackOvf index => exact h.execUnpackOvf_completes index
  | rdreg reg => exact execRdreg_completes reg s

end Invariant

end Sys2Proof.Machine

namespace Sys2Proof.Claims

open Sys2Proof Sys2Proof.Machine

/-- Settles O41: the check of CURSOR is the first after that of the index, and the check of OVF_COUNT
comes once the position is known, in INDEX mode the payload, in COMPACT mode the flags before. -/
theorem inconsistentArrayRaisesConsistencyError :
    Obligations.InconsistentArrayRaisesConsistencyError := by
  intro a s hi
  refine ⟨fun hs hc => .of_eq ?_, fun hs hc => .of_eq ?_, fun hs hc => .of_eq ?_,
    fun j hs hmode hc hj hf hpast => .of_eq ?_,
    fun payload hs hmode hc hpay hf hreadable hpast => .of_eq ?_⟩
  · exact (execUnpackCons_of_legal (legal_unpackCons.2 hs)).trans (unpackAt_of_past_cursor hi hc)
  · exact (execUnpackNcons_of_legal (legal_unpackNcons.2 hs)).trans (unpackAt_of_past_cursor hi hc)
  · exact execUnpackOvf_of_past_cursor (legal_unpackOvf.2 hs) hi hc
  · exact execUnpackOvf_of_past_store (legal_unpackOvf.2 hs) hi hc hj hf
      (overflowPosition_of_index hmode) hpast
  · have hflag : readBit s (primAddr s a.toNat) = .ok true := by
      rw [hf.head, testBit_flagged hpay]
    exact execUnpackOvf_of_past_store (legal_unpackOvf.2 hs) hi hc hpay hf
      (overflowPosition_of_compact hmode hflag hreadable) hpast

/-- Settles O54: every instruction completes, and a ConsistencyError would lead to FAULTED, which no
effect on a state of the invariant does. -/
theorem invariantExcludesConsistencyError : Obligations.InvariantExcludesConsistencyError := by
  intro i s h
  obtain ⟨t, ht⟩ := h.exec_completes i
  refine ⟨t, ht, fun hc => ?_⟩
  obtain ⟨hend, -⟩ := faultedOnlyFromSealedUntilReset
  obtain ⟨-, hfaulted⟩ := hend i s t ht hc
  exact ((exec_effect ht).keeps_arrayInv h).notFaulted hfaulted

end Sys2Proof.Claims
end

section
/-! PROOFS. Reset and completion (70_reset_and_hazards.md R280, R286): the block right after reset is in a
state of the invariant, reset asserted by the host gives that block's registers, and in a state of the
invariant every step ends. -/

namespace Sys2Proof.Machine

/-- The block of every legal parameter tuple right after reset: no word is allocated, no entry stored. -/
theorem BlockInv.resetOf {p : Params} (hp : ParamsLegal p) : BlockInv (State.resetOf p) where
  params := hp
  wordsWf := rfl
  wordsIn := rfl
  ovfWf := rfl
  ovfIn := rfl
  sticky := by simp [State.resetOf]
  form := .inl rfl
  fresh := fun _ => ⟨rfl, rfl, rfl, rfl⟩
  capacity := Nat.zero_le _
  length := (ceilDiv_zero hp.bounds.1).symm
  listed := fun _ hq => absurd hq (Nat.not_lt_zero _)
  ovfCapacity := Nat.zero_le _
  ovfListed := fun _ hj => absurd hj (Nat.not_lt_zero _)
  tail := fun _ _ hq => absurd hq (by simp [State.resetOf])

theorem Inv.resetOf {p : Params} (hp : ParamsLegal p) : Inv (State.resetOf p) :=
  ⟨.resetOf hp, .of_empty nofun rfl rfl rfl rfl⟩

/-- Taking the host's action from the port keeps the invariant. -/
theorem Inv.takePending {s : State} (h : Inv s) (rest : List HostAction) :
    Inv { s with pending := rest } :=
  ⟨h.block.takePending rest, h.array.takePending rest⟩

/-- A command from the port completes: it is an instruction, or an IllegalCommand (30_encoding.md R79). -/
theorem Inv.runCommand_completes {s : State} (h : Inv s) (c : Header) (a : Word) :
    Completes (runCommand c a s) := by
  cases hd : decode c a with
  | ok i =>
    rw [runCommand_of_ok hd]
    exact h.exec_completes i
  | error e => exact ⟨_, runCommand_of_error hd s⟩

theorem Inv.step_completes {s : State} (h : Inv s) : Completes (step s) := by
  have hp := h.block.params
  match hpend : s.pending with
  | [] => exact ⟨_, step_of_idle hp hpend⟩
  | .reset :: rest => exact ⟨_, step_of_reset hp hpend⟩
  | .command c a :: rest =>
    rw [step_of_command hp hpend]
    exact (h.takePending rest).runCommand_completes c a

end Sys2Proof.Machine

namespace Sys2Proof.Claims

open Sys2Proof Sys2Proof.Machine

/-- Settles O8, by the equation of a step that takes a reset from the port. -/
theorem hostResetGivesResetValues : Obligations.HostResetGivesResetValues :=
  fun _ _ hp hpend => step_of_reset hp hpend

/-- Settles O51: the model's own parameter tuple is one of the legal ones. -/
theorem invariantHoldsAtReset : Obligations.InvariantHoldsAtReset :=
  ⟨fun _ hp => .resetOf hp, .resetOf (by decide)⟩

/-- Settles O55, by the host's next action: none, a reset, or a command. -/
theorem everyStepCompletes : Obligations.EveryStepCompletes := fun _ h => h.step_completes

end Sys2Proof.Claims
end

section
/-! PROOFS. Stale contents (10_state.md R43, 70_reset_and_hazards.md R281): two states that agree on the
allocated words and the stored entries end every command in the same way, since every read stays below
CURSOR and OVF_COUNT and an allocation sets its word before it can be read. -/

namespace Sys2Proof.Machine

/-! ### What two such states share -/

section SameObservable

variable {s s' : State}

theorem SameObservable.refl (s : State) : SameObservable s s := ⟨rfl, fun _ _ => rfl, fun _ _ => rfl⟩

/-- The second state is the first with other memories, so the two agree on whatever reads no memory. -/
theorem SameObservable.exists_memories (h : SameObservable s s') :
    ∃ ws es, s' = { s with words := ws, ovf := es } := ⟨_, _, h.frame⟩

/-- What reads no memory is the same of both states. -/
theorem SameObservable.same {α : Type} (h : SameObservable s s') (f : State → α)
    (hf : ∀ ws es, f { s with words := ws, ovf := es } = f s) : f s' = f s := by
  obtain ⟨ws, es, rfl⟩ := h.exists_memories
  exact hf ws es

theorem SameObservable.params (h : SameObservable s s') : s'.params = s.params :=
  h.same State.params fun _ _ => rfl

theorem SameObservable.pending (h : SameObservable s s') : s'.pending = s.pending :=
  h.same State.pending fun _ _ => rfl

theorem SameObservable.primAddr (h : SameObservable s s') : primAddr s' = primAddr s :=
  h.same Machine.primAddr fun _ _ => rfl

/-- The same update of the registers in both states, one that neither allocates a word nor stores an
entry. -/
theorem SameObservable.update (h : SameObservable s s') (f : State → State)
    (hf : ∀ ws es, f { s with words := ws, ovf := es } = { f s with words := ws, ovf := es })
    (hwords : (f s).words = s.words) (hovf : (f s).ovf = s.ovf)
    (hlen : (f s).lenWords.toNat ≤ s.lenWords.toNat)
    (hcount : (f s).ovfCount.toNat ≤ s.ovfCount.toNat) : SameObservable (f s) (f s') := by
  obtain ⟨ws, es, rfl⟩ := h.exists_memories
  rw [hf ws es]
  refine ⟨rfl, fun q hq => ?_, fun j hj => ?_⟩
  · rw [hwords]
    exact h.words q (Nat.lt_of_lt_of_le hq hlen)
  · rw [hovf]
    exact h.ovf j (Nat.lt_of_lt_of_le hj hcount)

theorem SameObservable.respond (h : SameObservable s s') (d : Word) :
    SameObservable (respond d s) (respond d s') :=
  h.update (Machine.respond d) (fun _ _ => rfl) rfl rfl (Nat.le_refl _) (Nat.le_refl _)

theorem SameObservable.raise (h : SameObservable s s') (c : Cause) :
    SameObservable (raise c s) (raise c s') :=
  h.update (Machine.raise c) (fun _ _ => rfl) rfl rfl (Nat.le_refl _) (Nat.le_refl _)

theorem SameObservable.takePending (h : SameObservable s s') (rest : List HostAction) :
    SameObservable { s with pending := rest } { s' with pending := rest } :=
  h.update (fun u => { u with pending := rest }) (fun _ _ => rfl) rfl rfl (Nat.le_refl _)
    (Nat.le_refl _)

theorem SameObservable.withCursor (h : SameObservable s s') (p : Word) :
    SameObservable { s with cursor := p } { s' with cursor := p } :=
  h.update (fun u => { u with cursor := p }) (fun _ _ => rfl) rfl rfl (Nat.le_refl _) (Nat.le_refl _)

theorem SameObservable.incrementCount (h : SameObservable s s') :
    SameObservable { s with count := s.count + 1#64 } { s' with count := s'.count + 1#64 } :=
  h.update (fun u => { u with count := u.count + 1#64 }) (fun _ _ => rfl) rfl rfl (Nat.le_refl _)
    (Nat.le_refl _)

/-- BEGIN leaves no word allocated and no entry stored (45_session_control.md R222). -/
theorem SameObservable.openSession (h : SameObservable s s') (c : ConfigReg) :
    SameObservable (openSession c s) (openSession c s') :=
  h.update (Machine.openSession c) (fun _ _ => rfl) rfl rfl (Nat.zero_le _) (Nat.zero_le _)

theorem SameObservable.withState (h : SameObservable s s') (st : SessionState) :
    SameObservable { s with state := st } { s' with state := st } :=
  h.update (fun u => { u with state := st }) (fun _ _ => rfl) rfl rfl (Nat.le_refl _) (Nat.le_refl _)

/-! ### Reads -/

theorem SameObservable.readBit (h : SameObservable s s') {p : Nat}
    (hp : p < s.lenWords.toNat * s.params.w) : readBit s' p = readBit s p :=
  readBit_congr h.params (h.words _ (div_lt_of_lt_mul hp))

theorem SameObservable.memRead (h : SameObservable s s') (hs : BlockInv s) {p n : Nat}
    (hc : p + n ≤ s.cursor.toNat) : memRead s' p n = memRead s p n :=
  memRead_congr fun j hj => h.readBit (Nat.lt_of_lt_of_le (by omega) hs.cursor_le)

theorem SameObservable.ovfRead (h : SameObservable s s') {j : Nat} (hj : j < s.ovfCount.toNat) :
    ovfRead s' j = ovfRead s j := by
  unfold Machine.ovfRead
  rw [h.params, h.ovf j hj]

/-- The flags that COMPACT mode counts all stand below CURSOR (43_overflow.md R176). -/
theorem SameObservable.flagSum (h : SameObservable s s') (hs : BlockInv s) {i : Nat}
    (hc : ∀ m, m ≤ i → Machine.primAddr s m + 1 ≤ s.cursor.toNat) : flagSum s' i = flagSum s i := by
  induction i with
  | zero => simp only [Machine.flagSum, h.primAddr, h.memRead hs (hc 0 (Nat.le_refl _))]
  | succ i ih =>
    have hsum := ih fun m hm => hc m (by omega)
    simp only [Machine.flagSum, hsum, h.primAddr, h.memRead hs (hc (i + 1) (Nat.le_refl _))]

theorem SameObservable.overflowPosition (h : SameObservable s s') (hs : Inv s)
    (hsealed : Claims.SealedOverflow s) {i : Nat} (hi : i < s.count.toNat) (payload : Nat) :
    overflowPosition s' i payload = overflowPosition s i payload := by
  obtain ⟨hst, hvar, hen⟩ := hsealed
  have hsum : Machine.flagSum s' i = Machine.flagSum s i := h.flagSum hs.block fun m hm => by
    have hend := hs.elemAddr_add_le_cursor (by simp [hst]) hvar (Nat.lt_of_le_of_lt hm hi)
    rw [elemAddr_of_overflow hen, elemWidth_of_overflow hen, kpOf] at hend
    omega
  unfold Machine.overflowPosition ovfPosCompact
  rw [hsum, h.same State.config fun _ _ => rfl]

/-! ### Writes -/

/-- Writing the same cell of two memories keeps what they agree on, and they agree on that cell. -/
theorem Memory.get_set_eq_of_agree {m m' : Memory} {i j : Nat} (v : Word)
    (h : j ≠ i → Memory.get m' j = Memory.get m j) :
    Memory.get (Memory.set m' i v) j = Memory.get (Memory.set m i v) j := by
  rw [Memory.get_set, Memory.get_set]
  split
  · rfl
  · exact h ‹_›

/-- Below a counter that grew by one, also one that wrapped, stand the old indices and the new one. -/
theorem lt_of_lt_add_one {x : Word} {j : Nat} (hj : j < (x + 1#64).toNat) (hne : j ≠ x.toNat) :
    j < x.toNat := by
  bv_omega

theorem SameObservable.ovfAppend (h : SameObservable s s') (e : Word) :
    SameObservable (ovfAppend s e) (ovfAppend s' e) := by
  obtain ⟨ws, es, rfl⟩ := h.exists_memories
  exact ⟨rfl, h.words, fun j hj =>
    Memory.get_set_eq_of_agree _ fun hne => h.ovf j (lt_of_lt_add_one hj hne)⟩

theorem SameObservable.setWord (h : SameObservable s s') (q : Nat) (x : Word) :
    SameObservable { s with words := Memory.set s.words q x }
      { s' with words := Memory.set s'.words q x } := by
  obtain ⟨ws, es, rfl⟩ := h.exists_memories
  exact ⟨rfl, fun r hr => Memory.get_set_eq_of_agree _ fun _ => h.words r hr, h.ovf⟩

/-- An allocated word is set to 0 in both states, whatever it held (40_word_buffer.md R100). -/
theorem SameObservable.allocate (h : SameObservable s s') (j : Nat) :
    SameObservable (allocate s j) (allocate s' j) := by
  induction j generalizing s s' with
  | zero => exact h
  | succ j ih =>
    refine ih ?_
    obtain ⟨ws, es, rfl⟩ := h.exists_memories
    exact ⟨rfl, fun q hq =>
      Memory.get_set_eq_of_agree _ fun hne => h.words q (lt_of_lt_add_one hq hne), h.ovf⟩

theorem SameObservable.writeBit (h : SameObservable s s') (hp : ParamsLegal s.params) {t : State}
    {p : Nat} {v : Bool} (hw : writeBit s p v = .ok t) :
    ∃ t', writeBit s' p v = .ok t' ∧ SameObservable t t' := by
  obtain ⟨-, hlen, -, -⟩ := writeBit_spec hp hw
  unfold Machine.writeBit at hw ⊢
  dsimp only at hw ⊢
  rw [h.params, h.same State.lenWords fun _ _ => rfl]
  have hall := h.allocate (wordOf s.params p + 1 - s.lenWords.toNat)
  split at hw <;> cases hw
  rename_i x hx
  have hallocated : wordOf s.params p <
      (Machine.allocate s (wordOf s.params p + 1 - s.lenWords.toNat)).lenWords.toNat := by
    dsimp only at hlen
    omega
  rw [readWord_congr hall.params (hall.words _ hallocated), hx]
  exact ⟨_, rfl, hall.setWord _ _⟩

theorem SameObservable.memWrite (h : SameObservable s s') (hp : ParamsLegal s.params) {t : State}
    {p n v : Nat} (hw : memWrite s p n v = .ok t) :
    ∃ t', memWrite s' p n v = .ok t' ∧ SameObservable t t' := by
  induction n generalizing s s' p with
  | zero =>
    cases hw
    exact ⟨s', rfl, h⟩
  | succ n ih =>
    simp only [Machine.memWrite] at hw ⊢
    cases hb : Machine.writeBit s p (v.testBit n) with
    | error f => rw [hb] at hw; cases hw
    | ok s1 =>
      rw [hb] at hw
      obtain ⟨s1', hb', h1⟩ := h.writeBit hp hb
      rw [hb']
      exact ih h1 (by rw [writeBit_params hp hb]; exact hp) hw

theorem SameObservable.putField (h : SameObservable s s') (hp : ParamsLegal s.params) {t : State}
    {p n v : Nat} (hw : putField s p n v = .ok t) :
    ∃ t', putField s' p n v = .ok t' ∧ SameObservable t t' := by
  obtain ⟨s1, h1, rfl⟩ := putField_cases hw
  obtain ⟨s1', h1', hsame⟩ := h.memWrite hp h1
  exact ⟨_, by rw [Machine.putField, h1'], hsame.withCursor _⟩

end SameObservable

/-! ### Ending in the same way -/

/-- Where the first meaning answers a next state, the second answers one that is observably the same. -/
def Matches (o o' : Host.Outcome State Fault Refusal) : Prop :=
  ∀ t, o = .next t → ∃ t', o' = .next t' ∧ SameObservable t t'

theorem Matches.next {t t' : State} (h : SameObservable t t') : Matches (.next t) (.next t') := by
  rintro _ ⟨⟩
  exact ⟨t', rfl, h⟩

theorem Matches.fault (f : Fault) (o : Host.Outcome State Fault Refusal) : Matches (.fault f) o := nofun

section Meanings

variable {s s' : State}

theorem Matches.responded (h : SameObservable s s') (d : Word) :
    Matches (.next (respond d s)) (.next (respond d s')) := .next (h.respond d)

theorem Matches.raised (h : SameObservable s s') (c : Cause) :
    Matches (.next (raise c s)) (.next (raise c s')) := .next (h.raise c)

/-- A check that both states pass or both fail; the rest has to match only where it passes
(60_exceptions.md R252). -/
theorem Matches.check {o o' : Host.Outcome State Fault Refusal} {b : Prop} [Decidable b] {c : Cause}
    (h : SameObservable s s') (ho : ¬ b → Matches o o') :
    Matches (if b then .next (raise c s) else o) (if b then .next (raise c s') else o') := by
  split
  · exact .raised h c
  · exact ho ‹_›

theorem execBegin_matches (h : SameObservable s s') (width ksmall : BitVec 7) (variant : BitVec 2)
    (signed ovfEn ovfMode : Bool) :
    Matches (execBegin width ksmall variant signed ovfEn ovfMode s)
      (execBegin width ksmall variant signed ovfEn ovfMode s') := by
  obtain ⟨ws, es, rfl⟩ := h.exists_memories
  refine .check h fun _ => ?_
  cases hc : configOf s.params width ksmall variant signed ovfEn ovfMode with
  | none => exact .raised h _
  | some c => exact .responded (h.openSession c) _

theorem execEnd_matches (h : SameObservable s s') : Matches (execEnd s) (execEnd s') := by
  obtain ⟨ws, es, rfl⟩ := h.exists_memories
  exact .check h fun _ => .responded (h.withState _) _

theorem execRdreg_matches (h : SameObservable s s') (r : BitVec 4) :
    Matches (execRdreg r s) (execRdreg r s') := by
  have hread : readReg s' r = readReg s r := h.same (readReg · r) fun _ _ => rfl
  unfold execRdreg
  rw [hread]
  split
  · exact .responded h _
  · exact .raised h _

theorem execWriteBits_matches (h : SameObservable s s') (hs : BlockInv s) (width : BitVec 7)
    (a : Word) : Matches (execWriteBits width a s) (execWriteBits width a s') := by
  obtain ⟨ws, es, rfl⟩ := h.exists_memories
  refine .check h fun _ => .check h fun _ => .check h fun _ => ?_
  split
  · rename_i hw
    obtain ⟨s1', hw', hsame⟩ := h.putField hs.params hw
    dsimp only
    rw [hw']
    exact .responded hsame _
  · exact .fault _ _

theorem execReadBits_matches (h : SameObservable s s') (hs : BlockInv s) (width : BitVec 7)
    (a : Word) : Matches (execReadBits width a s) (execReadBits width a s') := by
  obtain ⟨ws, es, rfl⟩ := h.exists_memories
  refine .check h fun _ => .check h fun _ => .check h fun hc => ?_
  rw [h.memRead hs (Nat.le_of_not_lt hc)]
  split
  · exact .responded h _
  · exact .fault _ _

theorem packAt_matches (h : SameObservable s s') (hs : BlockInv s) (start : Nat) (x : Int) :
    Matches (packAt s start x) (packAt s' start x) := by
  obtain ⟨ws, es, rfl⟩ := h.exists_memories
  refine .check h fun _ => .check h fun _ => ?_
  split
  · rename_i hw
    obtain ⟨s1', hw', hsame⟩ := h.putField hs.params hw
    dsimp only
    rw [hw']
    exact .responded hsame.incrementCount _
  · exact .fault _ _

theorem packFitting_matches (h : SameObservable s s') (hs : BlockInv s) (x : Int) :
    Matches (packFitting s x) (packFitting s' x) := by
  obtain ⟨ws, es, rfl⟩ := h.exists_memories
  intro t ht
  obtain ⟨s1, hw, rfl⟩ := packFitting_cases ht
  obtain ⟨s1', hw', hsame⟩ := h.putField hs.params hw
  exact ⟨_, packFitting_of_putField hw', hsame.incrementCount.respond _⟩

theorem packOverflowing_matches (h : SameObservable s s') (hs : BlockInv s) (x : Int) :
    Matches (packOverflowing s x) (packOverflowing s' x) := by
  unfold packOverflowing
  rw [h.params, h.same State.ovfCount fun _ _ => rfl, h.same overflowPayload fun _ _ => rfl,
    h.same primStart fun _ _ => rfl, h.same kpOf fun _ _ => rfl, h.same ksOf fun _ _ => rfl]
  refine .check h fun _ => .check h fun _ => ?_
  split
  · rename_i hw
    obtain ⟨s1', hw', hsame⟩ := h.putField hs.params hw
    rw [hw']
    exact .responded (hsame.ovfAppend _).incrementCount _
  · exact .fault _ _

theorem execPackOvf_matches (h : SameObservable s s') (hs : BlockInv s) (a : Word) :
    Matches (execPackOvf a s) (execPackOvf a s') := by
  unfold execPackOvf
  rw [h.params, h.same State.config fun _ _ => rfl, h.same (legal _) fun _ _ => rfl,
    h.same primStart fun _ _ => rfl, h.same kpOf fun _ _ => rfl, h.same ksOf fun _ _ => rfl]
  refine .check h fun _ => .check h fun _ => ?_
  split
  · exact packFitting_matches h hs _
  · exact packOverflowing_matches h hs _

theorem unpackAt_matches (h : SameObservable s s') (hs : BlockInv s) (i start : Nat) :
    Matches (unpackAt s i start) (unpackAt s' i start) := by
  obtain ⟨ws, es, rfl⟩ := h.exists_memories
  refine .check h fun _ => .check h fun hc => ?_
  rw [h.memRead hs (Nat.le_of_not_lt hc)]
  split
  · exact .responded h _
  · exact .fault _ _

theorem unpackEntry_matches (h : SameObservable s s') (j : Nat) :
    Matches (unpackEntry s j) (unpackEntry s' j) := by
  obtain ⟨ws, es, rfl⟩ := h.exists_memories
  refine .check h fun hj => ?_
  rw [h.ovfRead (Nat.lt_of_not_le hj)]
  split
  · exact .responded h _
  · exact .fault _ _

theorem unpackPrimary_matches (h : SameObservable s s') (hs : Inv s)
    (hsealed : Claims.SealedOverflow s) {i : Nat} (hi : i < s.count.toNat) (f : Nat) :
    Matches (unpackPrimary s i f) (unpackPrimary s' i f) := by
  unfold unpackPrimary
  rw [h.same ksOf fun _ _ => rfl, h.same State.config fun _ _ => rfl,
    h.overflowPosition hs hsealed hi]
  split
  · split
    · exact unpackEntry_matches h _
    · exact .fault _ _
  · exact .responded h _

theorem execUnpackOvf_matches (h : SameObservable s s') (hs : Inv s) (a : Word) :
    Matches (execUnpackOvf a s) (execUnpackOvf a s') := by
  unfold execUnpackOvf
  rw [h.same (legal _) fun _ _ => rfl, h.same State.count fun _ _ => rfl, h.primAddr,
    h.same kpOf fun _ _ => rfl, h.same State.cursor fun _ _ => rfl]
  refine .check h fun hl => .check h fun hi => .check h fun hc => ?_
  rw [h.memRead hs.block (Nat.le_of_not_lt hc)]
  split
  · exact unpackPrimary_matches h hs (legal_unpackOvf.1 (by simpa using hl)) (Nat.lt_of_not_le hi) _
  · exact .fault _ _

/-- In a state of the invariant every instruction ends in the same way whatever the stale contents. -/
theorem exec_matches (h : SameObservable s s') (hs : Inv s) (i : Instr) :
    Matches (exec i s) (exec i s') := by
  obtain ⟨ws, es, rfl⟩ := h.exists_memories
  cases i with
  | beginSession width ksmall variant signed ovfEn ovfMode =>
    exact execBegin_matches h width ksmall variant signed ovfEn ovfMode
  | writeBits width value => exact execWriteBits_matches h hs.block width value
  | readBits width offset => exact execReadBits_matches h hs.block width offset
  | packCons element => exact .check h fun _ => packAt_matches h hs.block _ _
  | packNcons element => exact .check h fun _ => packAt_matches h hs.block _ _
  | packOvf element => exact execPackOvf_matches h hs.block element
  | endSession => exact execEnd_matches h
  | unpackCons index => exact .check h fun _ => unpackAt_matches h hs.block _ _
  | unpackNcons index => exact .check h fun _ => unpackAt_matches h hs.block _ _
  | unpackOvf index => exact execUnpackOvf_matches h hs index
  | rdreg reg => exact execRdreg_matches h reg

theorem runCommand_matches (h : SameObservable s s') (hs : Inv s) (c : Header) (a : Word) :
    Matches (runCommand c a s) (runCommand c a s') := by
  cases hd : decode c a with
  | ok i =>
    rw [runCommand_of_ok hd, runCommand_of_ok hd]
    exact exec_matches h hs i
  | error e =>
    rw [runCommand_of_error hd, runCommand_of_error hd]
    exact .raised h _

theorem step_matches (h : SameObservable s s') (hs : Inv s) : Matches (step s) (step s') := by
  have hp := hs.block.params
  have hp' : ParamsLegal s'.params := h.params ▸ hp
  match hpend : s.pending with
  | [] =>
    rw [step_of_idle hp hpend, step_of_idle hp' (h.pending.trans hpend)]
    exact .next h
  | .reset :: rest =>
    have hreset : resetBlock { s' with pending := rest } = resetBlock { s with pending := rest } :=
      h.same (fun u => resetBlock { u with pending := rest }) fun _ _ => rfl
    rw [step_of_reset hp hpend, step_of_reset hp' (h.pending.trans hpend), hreset]
    exact .next (.refl _)
  | .command c a :: rest =>
    rw [step_of_command hp hpend, step_of_command hp' (h.pending.trans hpend)]
    exact runCommand_matches (h.takePending rest) (hs.takePending rest) c a

end Meanings

end Sys2Proof.Machine

namespace Sys2Proof.Claims

open Sys2Proof Sys2Proof.Machine

/-- Settles O56: a step of the two states is the same idle step, the same reset, or the same command,
whose reads and writes agree on what is allocated. -/
theorem staleContentsAreUnobservable : Obligations.StaleContentsAreUnobservable :=
  fun _ _ t hs h => step_matches h hs t

end Sys2Proof.Claims
end
